-- ==== Sys2Proof/Word.lean ====
section
/-! DEFINITION. The words of the block: the byte, the 16-bit value, and a byte sequence on one of its ports. -/

namespace Sys2Proof

/-- One byte, `b[7:0]` with bit 0 the least significant (rules R10, R11). -/
abbrev Byte := BitVec 8

/-- A 16-bit value: the checksum and the lengths of the command port (rules R10, R86). -/
abbrev Half := BitVec 16

/-- A byte sequence on one port of the block: the command port (`port = none`, rule R86), or the exchange port
of worker `w` (`port = some w`, rule R150), where it is the read its channel agent answers with and the empty
sequence is "no response" (rule R151). -/
structure PortWord where
  port  : Option Byte
  bytes : List Byte
  deriving DecidableEq, Repr

end Sys2Proof
end

