-- ==== Sys2Proof/Config.lean ====
section
/-! DEFINITION. What is fixed for a run: the constants of rule R8 and the parameters of rule R9 with their constraints. -/

namespace Sys2Proof

/-! ### Rule R8: the values the source fixes -/

/-- `HDR`, offsets 0 and 1 (rules R8, R71). -/
def HDR0 : Byte := 0xA5
def HDR1 : Byte := 0xA5
/-- `TRL`, `0A` then `0D` (rules R8, R72). -/
def TRL0 : Byte := 0x0A
def TRL1 : Byte := 0x0D
/-- The device addresses with a meaning of their own, and the assignable range (rules R8, R54). -/
def ADDR_BROADCAST : Byte := 0x00
def ADDR_CONTROLLER : Byte := 0x01
def ADDR_MIN : Nat := 2
def ADDR_MAX : Nat := 253
/-- The longest payload (rules R8, R73). -/
def N_MAX : Nat := 255
/-- The only control code and the only function code the source fixes (rules R8, R76, R80). -/
def CTRL_READ : Byte := 0x31
def FN_QUERY_NORMAL_INFO : Byte := 0x42

/-! ### Rule R78: name ids -/

def ID_ABSENT : Byte := 0x00
def ID_REREGISTER : Byte := 0x01
def ID_OFFLINE_QUERY : Byte := 0x02
def ID_SEND_REGISTER_ADDRESS : Byte := 0x03
def ID_OFFLINE_QUERY_REPLY : Byte := 0x81
def ID_ADDRESS_CONFIRM : Byte := 0x82
def ID_REREGISTER_REPLY : Byte := 0x83
def ID_QUERY_NORMAL_INFO : Byte := 0x11
def ID_QUERY_NORMAL_INFO_REPLY : Byte := 0x91

/-! ### Rule R9: the parameters -/

/-- One entry of `P_REG_EXTRA` or `P_READ_EXTRA`: a function code, its name id, and for a request the name id of
the response paired with it, if the table pairs one (rules R9, R83, R137; 92_eei_decisions.md D45). -/
structure Extra where
  code     : Byte
  nameId   : Byte
  response : Option Byte
  deriving DecidableEq, Repr

/-- The parameters of rule R9, fixed before reset and the same for the whole run (rule R256). `P_NW` is the number
of workers State holds (`State.nw`). -/
structure Params where
  ctrlRegister           : Byte
  ctrlWrite              : Byte
  ctrlExecute            : Byte
  tReg                   : Byte
  tRead                  : Byte
  fnReRegister           : Byte
  fnOfflineQuery         : Byte
  fnSendRegisterAddress  : Byte
  fnOfflineQueryReply    : Byte
  fnAddressConfirm       : Byte
  fnReRegisterReply      : Option Byte
  fnQueryNormalInfoReply : Byte
  regExtra               : List Extra
  readExtra              : List Extra
  ack                    : Byte
  serialCharset          : List Byte
  maxAttempts            : Nat
  settleDelay            : Nat
  decodeCheckMagic       : Bool
  cksumWideCompare       : Bool
  rxBufMax               : Nat
  deriving DecidableEq, Repr

/-- The default of `P_SERIAL_CHARSET`, printable ASCII `0x20..0x7E` (rule R9, 92_eei_decisions.md D18). -/
def printableAscii : List Byte := (List.range 95).map fun i => BitVec.ofNat 8 (0x20 + i)

/-- The test configuration TC1 (92_eei_decisions.md D37), never a claim about the device. DESIGN CHOICE (unsafe,
notes/assumptions/2.md): TC1 gives `P_MAX_ATTEMPTS` and `P_SETTLE_DELAY` no value; 10 is the number of the source's
one scenario (E3) and 0 is the least duration. -/
def Params.tc1 : Params where
  ctrlRegister           := 0x30
  ctrlWrite              := 0x32
  ctrlExecute            := 0x33
  tReg                   := 0x80
  tRead                  := 0x80
  fnReRegister           := 0x44
  fnOfflineQuery         := 0x40
  fnSendRegisterAddress  := 0x41
  fnOfflineQueryReply    := 0xBF
  fnAddressConfirm       := 0xBE
  fnReRegisterReply      := none
  fnQueryNormalInfoReply := 0xB1
  regExtra               := []
  readExtra              := []
  ack                    := 0x06
  serialCharset          := printableAscii
  maxAttempts            := 10
  settleDelay            := 0
  decodeCheckMagic       := false
  cksumWideCompare       := false
  rxBufMax               := 266

/-- The codes of the Register family's named entries (rule R131). -/
def Params.regNamed (p : Params) : List Byte :=
  [p.fnReRegister, p.fnOfflineQuery, p.fnSendRegisterAddress, p.fnOfflineQueryReply, p.fnAddressConfirm]
    ++ p.fnReRegisterReply.toList

/-- The codes of the Read family's named entries (rule R131). -/
def Params.readNamed (p : Params) : List Byte := [FN_QUERY_NORMAL_INFO, p.fnQueryNormalInfoReply]

/-- An extra entry lies on the side of the threshold its name id says (rules R78, R131), and only a request is
paired with a response, whose id is one of `responses` (rules R83, R137). -/
abbrev Extra.Valid (t : Byte) (responses : List Byte) (e : Extra) : Prop :=
  (0x20#8 ≤ e.nameId ∧ e.nameId ≤ 0x7F#8 ∧ e.code < t ∧ ∀ r ∈ e.response.toList, r ∈ responses) ∨
  (0xA0#8 ≤ e.nameId ∧ e.nameId ≤ 0xFE#8 ∧ t ≤ e.code ∧ e.response = none)

/-- The response ids an extra request of the Register family may be paired with. -/
def Params.regResponses (p : Params) : List Byte :=
  [ID_OFFLINE_QUERY_REPLY, ID_ADDRESS_CONFIRM] ++ p.fnReRegisterReply.toList.map (fun _ => ID_REREGISTER_REPLY)
    ++ (p.regExtra.filter fun e => 0xA0#8 ≤ e.nameId).map (·.nameId)

/-- The response ids an extra request of the Read family may be paired with. -/
def Params.readResponses (p : Params) : List Byte :=
  [ID_QUERY_NORMAL_INFO_REPLY] ++ (p.readExtra.filter fun e => 0xA0#8 ≤ e.nameId).map (·.nameId)

/-- Rule R9: the four control codes are distinct. -/
abbrev Params.ControlsDistinct (p : Params) : Prop :=
  [CTRL_READ, p.ctrlRegister, p.ctrlWrite, p.ctrlExecute].Nodup

/-- Rules R9 and R131 for the Register family: requests below the threshold, responses at or above it, all codes
distinct; the name ids distinct too, since the maps are bidirectional (rule R36; DEDUCED, notes/assumptions/4.md). -/
abbrev Params.RegisterValid (p : Params) : Prop :=
  p.fnReRegister < p.tReg ∧ p.fnOfflineQuery < p.tReg ∧ p.fnSendRegisterAddress < p.tReg ∧
  p.tReg ≤ p.fnOfflineQueryReply ∧ p.tReg ≤ p.fnAddressConfirm ∧ (∀ c ∈ p.fnReRegisterReply.toList, p.tReg ≤ c) ∧
  (∀ e ∈ p.regExtra, e.Valid p.tReg p.regResponses) ∧
  (p.regNamed ++ p.regExtra.map (·.code)).Nodup ∧ (p.regExtra.map (·.nameId)).Nodup

/-- Rules R9, R80 and R131 for the Read family. -/
abbrev Params.ReadValid (p : Params) : Prop :=
  FN_QUERY_NORMAL_INFO < p.tRead ∧ p.tRead ≤ p.fnQueryNormalInfoReply ∧
  (∀ e ∈ p.readExtra, e.Valid p.tRead p.readResponses) ∧
  (p.readNamed ++ p.readExtra.map (·.code)).Nodup ∧ (p.readExtra.map (·.nameId)).Nodup

/-- The constraints of rule R9. -/
abbrev Params.Valid (p : Params) : Prop :=
  p.ControlsDistinct ∧ p.RegisterValid ∧ p.ReadValid ∧ 1 ≤ p.maxAttempts ∧ 266 ≤ p.rxBufMax

/-- The bound on the time of one exchange, `max_attempts × settle_delay` (rules R160, R265). It belongs to the
channel agent; no rule of the block depends on it. -/
def Params.exchangeBound (p : Params) : Nat := p.maxAttempts * p.settleDelay

end Sys2Proof
end

