-- ==== Sys2Proof/Syntax.lean ====
section
/-! DEFINITION. The instructions: the commands of the command port (rule R87), the illegal commands (rule R89) and the frames of the wire (rules R70, R78 to R82). -/

namespace Sys2Proof

/-- A frame as it stands on the wire (rule R70). The length byte is the payload's length (rule R73); `tail` is all
that follows the checksum field: the trailer, and whatever else the read holds (rule R110). -/
structure WireFrame where
  hdr0    : Byte
  hdr1    : Byte
  src     : Byte
  dst     : Byte
  ctrl    : Byte
  fn      : Byte
  payload : List Byte
  cksumHi : Byte
  cksumLo : Byte
  tail    : List Byte
  deriving DecidableEq, Repr

/-- One constructor per mnemonic of spec/opcode_table.json. Operand bytes that rule R88 gives a domain are kept as
bytes, since a value outside it is answered by the command (rule R225). A frame's constructor says which row of the
table its control and function codes fall in, and `w` names the worker whose exchange port it arrives at
(rule R150). -/
inductive Instr where
  /-- ENCODE, rule R100. -/
  | encode (src dst ctrl fn : Byte) (payload : List Byte)
  /-- CHECKSUM, rule R103. -/
  | checksum (data : List Byte)
  /-- DECODE, rule R107. -/
  | decode (data : List Byte)
  /-- VERIFY, rule R112. -/
  | verify (data : List Byte)
  /-- LOOKUP, rule R132. -/
  | lookup (ctrl fn : Byte)
  /-- FUNCTION_NAME, rule R135. -/
  | functionName (family fn direction : Byte)
  /-- CODE_OF, rule R136. -/
  | codeOf (family nameId : Byte)
  /-- RESPONSE_OF, rule R137. -/
  | responseOf (family nameId : Byte)
  /-- FSM_RESET, rule R188. -/
  | fsmReset (w : Byte)
  /-- FSM_GO, rule R171. -/
  | fsmGo (w : Byte)
  /-- FSM_RESULT, rule R174. -/
  | fsmResult (w present : Byte) (data : List Byte)
  /-- FSM_READ, rule R197. -/
  | fsmRead (w reg : Byte)
  /-- FILTER_SERIAL, rule R195. -/
  | filterSerial (data : List Byte)
  /-- TABLE_RESET, rule R194. -/
  | tableReset
  /-- ILLEGAL_COMMAND: an opcode outside rule R87 (rule R89), or a command of the wrong length (rule R86). -/
  | illegalCommand (bytes : List Byte)
  /-- Read-family request `0x42`, rule R80. -/
  | queryNormalInfo (w : Byte) (f : WireFrame)
  /-- Read-family response, rule R80. -/
  | queryNormalInfoReply (w : Byte) (f : WireFrame)
  /-- Register-family request of step 1, rule R172. -/
  | reRegister (w : Byte) (f : WireFrame)
  /-- Register-family request of step 2, rule R173. -/
  | offlineQuery (w : Byte) (f : WireFrame)
  /-- Register-family request of step 3, rule R179. -/
  | sendRegisterAddress (w : Byte) (f : WireFrame)
  /-- Register-family response of step 2, rule R177. -/
  | offlineQueryReply (w : Byte) (f : WireFrame)
  /-- Register-family response of step 4, rule R183. -/
  | addressConfirm (w : Byte) (f : WireFrame)
  /-- Register-family response of step 1, when the parameter is present, rule R175. -/
  | reRegisterReply (w : Byte) (f : WireFrame)
  /-- Any other Read-family function code, rule R133. -/
  | readFamilyOther (w : Byte) (f : WireFrame)
  /-- Any other Register-family function code, rule R133. -/
  | registerFamilyOther (w : Byte) (f : WireFrame)
  /-- Write family, rule R81. -/
  | writeFamily (w : Byte) (f : WireFrame)
  /-- Execute family, rule R81. -/
  | executeFamily (w : Byte) (f : WireFrame)
  /-- A control code of none of the four families, rule R82. -/
  | unknownControl (w : Byte) (f : WireFrame)
  deriving DecidableEq, Repr

end Sys2Proof
end

