-- ==== Sys2Proof/Machine/Operands.lean ====
section
/-! DEFINITION. Operand forms of the command port: byte order, family, direction and status codes, and the registry's tables (rules R76 to R83, R86 to R88, R130, R131, R137, R221). -/

namespace Sys2Proof.Machine

/-! ### Byte order (rules R11, R12, R50) -/

/-- `hi8(v) = v[15:8]` (rule R11). -/
def hi8 (v : Half) : Byte := v.extractLsb' 8 8

/-- `lo8(v) = v[7:0]` (rule R11). -/
def lo8 (v : Half) : Byte := v.extractLsb' 0 8

/-- `be16(a, b) = a * 256 + b` (rule R12). -/
def be16 (a b : Byte) : Half := a ++ b

/-- A 16-bit field as the command port carries it, high byte first (rules R50, R86). -/
def be16Bytes (v : Half) : List Byte := [hi8 v, lo8 v]

/-- A length as a 16-bit field. -/
def be16Length (n : Nat) : List Byte := be16Bytes (BitVec.ofNat 16 n)

/-- A length as one byte. -/
def length8 (n : Nat) : Byte := BitVec.ofNat 8 n

/-- `ok`, `present` and `trailer_present` as a byte (rule R88). -/
def boolByte (b : Bool) : Byte := if b then 0x01 else 0x00

/-! ### Families and directions -/

/-- The families a control code selects (rule R76). -/
inductive Family where
  | register | read | write | execute | unknown
  deriving DecidableEq, Repr

/-- Family codes on the command port (rule R76). -/
def Family.code : Family → Byte
  | .register => 0x00
  | .read     => 0x01
  | .write    => 0x02
  | .execute  => 0x03
  | .unknown  => 0xFF

/-- The family an operand byte names; none for a byte outside the five codes (rule R88). -/
def familyOperand (b : Byte) : Option Family :=
  if b = 0x00 then some .register
  else if b = 0x01 then some .read
  else if b = 0x02 then some .write
  else if b = 0x03 then some .execute
  else if b = 0xFF then some .unknown
  else none

/-- The direction of a function code (rule R77). -/
inductive Direction where
  | request | response
  deriving DecidableEq, Repr

/-- Direction codes on the command port (rule R77). -/
def Direction.code : Direction → Byte
  | .request  => 0x00
  | .response => 0x01

/-- A direction as a result byte, `0xFF` when absent (rule R77). -/
def directionByte : Option Direction → Byte
  | some d => d.code
  | none   => 0xFF

/-- The direction an operand byte names; only Request and Response are in the operand's domain (rule R135). -/
def directionOperand (b : Byte) : Option Direction :=
  if b = 0x00 then some .request else if b = 0x01 then some .response else none

/-! ### The registry's tables -/

/-- `FAMILY(ctrl)` (rule R130). -/
def familyOf (p : Params) (ctrl : Byte) : Family :=
  if ctrl = p.ctrlRegister then .register
  else if ctrl = CTRL_READ then .read
  else if ctrl = p.ctrlWrite then .write
  else if ctrl = p.ctrlExecute then .execute
  else .unknown

/-- `TABLE(F)` as a list of code and name id (rule R131); Write, Execute and Unknown have none (rule R81). -/
def nameTable (p : Params) : Family → List (Byte × Byte)
  | .register =>
    [(p.fnReRegister, ID_REREGISTER), (p.fnOfflineQuery, ID_OFFLINE_QUERY),
     (p.fnSendRegisterAddress, ID_SEND_REGISTER_ADDRESS), (p.fnOfflineQueryReply, ID_OFFLINE_QUERY_REPLY),
     (p.fnAddressConfirm, ID_ADDRESS_CONFIRM)]
      ++ p.fnReRegisterReply.toList.map (fun c => (c, ID_REREGISTER_REPLY))
      ++ p.regExtra.map (fun e => (e.code, e.nameId))
  | .read =>
    [(FN_QUERY_NORMAL_INFO, ID_QUERY_NORMAL_INFO), (p.fnQueryNormalInfoReply, ID_QUERY_NORMAL_INFO_REPLY)]
      ++ p.readExtra.map (fun e => (e.code, e.nameId))
  | .write | .execute | .unknown => []

/-- The direction threshold of a family that has a function table (rule R77). -/
def threshold (p : Params) : Family → Option Byte
  | .register => some p.tReg
  | .read     => some p.tRead
  | .write | .execute | .unknown => none

/-- `fn < T` is a request, `fn >= T` a response (rule R77). -/
def directionOf (t fn : Byte) : Direction := if fn < t then .request else .response

/-- The name id of a code, `0x00` when the table has no entry (rules R78, R132). -/
def nameOf (tbl : List (Byte × Byte)) (fn : Byte) : Byte :=
  match tbl.find? (fun e => e.1 = fn) with
  | some e => e.2
  | none   => ID_ABSENT

/-- The code of a name id; `0x00` is never found (rule R136). -/
def codeOfName (tbl : List (Byte × Byte)) (id : Byte) : Option Byte :=
  if id = ID_ABSENT then none
  else match tbl.find? (fun e => e.2 = id) with
    | some e => some e.1
    | none   => none

/-- The pairs an extra entry adds (rule R137). -/
def extraPairs (es : List Extra) : List (Byte × Byte) :=
  es.flatMap fun e => e.response.toList.map fun r => (e.nameId, r)

/-- `PAIR` of rule R137, request id to response id, family by family. -/
def pairTable (p : Params) : Family → List (Byte × Byte)
  | .register =>
    p.fnReRegisterReply.toList.map (fun _ => (ID_REREGISTER, ID_REREGISTER_REPLY))
      ++ [(ID_OFFLINE_QUERY, ID_OFFLINE_QUERY_REPLY), (ID_SEND_REGISTER_ADDRESS, ID_ADDRESS_CONFIRM)]
      ++ extraPairs p.regExtra
  | .read => [(ID_QUERY_NORMAL_INFO, ID_QUERY_NORMAL_INFO_REPLY)] ++ extraPairs p.readExtra
  | .write | .execute | .unknown => []

/-- The response paired with a request id, if the table pairs one (rule R137). -/
def responseOfName (pairs : List (Byte × Byte)) (id : Byte) : Option Byte :=
  match pairs.find? (fun e => e.1 = id) with
  | some e => some e.2
  | none   => none

/-- How the dispatcher reads a frame: its family, its direction (absent for a family without a table) and its name
id (rules R132 to R134, R140). -/
structure Reading where
  family    : Family
  direction : Option Direction
  nameId    : Byte
  deriving DecidableEq, Repr

/-- The classification of a control and function code pair (rules R132 to R134). -/
def lookupReading (p : Params) (ctrl fn : Byte) : Reading :=
  let f := familyOf p ctrl
  match threshold p f with
  | some t => ⟨f, some (directionOf t fn), nameOf (nameTable p f) fn⟩
  | none   => ⟨f, none, ID_ABSENT⟩

/-! ### Status codes -/

/-- The result statuses (rule R221). -/
inductive Status where
  | ok | malformedHeader | truncatedPayload | checksumMismatch | protocolViolation | addressSpaceExhausted
  | noResponse | payloadTooLong | illegalCommand | badWorker | busy | notPending | malformedTrailer
  deriving DecidableEq, Repr

/-- The code of a status (rule R221). -/
def Status.code : Status → Byte
  | .ok                    => 0x00
  | .malformedHeader       => 0x01
  | .truncatedPayload      => 0x02
  | .checksumMismatch      => 0x03
  | .protocolViolation     => 0x04
  | .addressSpaceExhausted => 0x05
  | .noResponse            => 0x06
  | .payloadTooLong        => 0x07
  | .illegalCommand        => 0x08
  | .badWorker             => 0x09
  | .busy                  => 0x0A
  | .notPending            => 0x0B
  | .malformedTrailer      => 0x0C

/-! ### Command opcodes -/

/-- The command opcodes of rule R87. -/
def OP_ENCODE : Byte := 0x01
def OP_CHECKSUM : Byte := 0x02
def OP_DECODE : Byte := 0x03
def OP_VERIFY : Byte := 0x04
def OP_LOOKUP : Byte := 0x10
def OP_FUNCTION_NAME : Byte := 0x11
def OP_CODE_OF : Byte := 0x12
def OP_RESPONSE_OF : Byte := 0x13
def OP_FSM_RESET : Byte := 0x20
def OP_FSM_GO : Byte := 0x21
def OP_FSM_RESULT : Byte := 0x22
def OP_FSM_READ : Byte := 0x23
def OP_FILTER_SERIAL : Byte := 0x30
def OP_TABLE_RESET : Byte := 0x31

end Sys2Proof.Machine
end

