-- ==== Sys2Proof/WellFormed.lean ====
section
/-! DEFINITION. The checks on an instruction: what a command of its format can carry, and which row a frame falls in. -/

namespace Sys2Proof

open Machine

/-- The longest read an exchange result carries: its length `L` is a 16-bit field (rules R87, R151). -/
def READ_MAX : Nat := 65535

/-- A frame's payload fits its length byte (rule R73), and the whole read fits an exchange result. -/
def WireFrame.wf (f : WireFrame) : Bool :=
  decide (f.payload.length ≤ N_MAX) && decide (9 + f.payload.length + f.tail.length ≤ READ_MAX)

/-- The named function codes of the Register family (rules R78, R79). -/
def namedRegister (p : Params) (fn : Byte) : Bool := decide (fn ∈ p.regNamed)

/-- The named function codes of the Read family (rules R78, R80). -/
def namedRead (p : Params) (fn : Byte) : Bool := decide (fn ∈ p.readNamed)

/-- A frame with a control code of family `F`. -/
def WireFrame.inFamily (p : Params) (F : Family) (f : WireFrame) : Bool :=
  f.wf && decide (familyOf p f.ctrl = F)

/-- A command's bytes are one of the illegal ones exactly when they do not have the form of any row of rule R87:
an opcode of no row (rule R89), or a length that does not match the format (rule R86). -/
def legalForm : List Byte → Bool
  | [] => false
  | op :: args =>
    if op = OP_ENCODE then
      match args with
      | _ :: _ :: _ :: _ :: n :: payload => payload.length == n.toNat
      | _ => false
    else if op = OP_CHECKSUM ∨ op = OP_DECODE ∨ op = OP_VERIFY then
      match args with
      | hi :: lo :: data => data.length == (be16 hi lo).toNat
      | _ => false
    else if op = OP_LOOKUP ∨ op = OP_CODE_OF ∨ op = OP_RESPONSE_OF ∨ op = OP_FSM_READ then args.length == 2
    else if op = OP_FUNCTION_NAME then args.length == 3
    else if op = OP_FSM_RESET ∨ op = OP_FSM_GO then args.length == 1
    else if op = OP_FSM_RESULT then
      match args with
      | _ :: _ :: hi :: lo :: data => data.length == (be16 hi lo).toNat
      | _ => false
    else if op = OP_FILTER_SERIAL then
      match args with
      | n :: data => data.length == n.toNat
      | _ => false
    else if op = OP_TABLE_RESET then args.length == 0
    else false

/-- The well-formed instructions under the parameters `p`. -/
def Instr.wf (p : Params) : Instr → Bool
  | .encode _ _ _ _ payload => decide (payload.length ≤ N_MAX)
  | .checksum data | .decode data | .verify data => decide (data.length ≤ 65535)
  | .lookup _ _ | .functionName _ _ _ | .codeOf _ _ | .responseOf _ _ => true
  | .fsmReset _ | .fsmGo _ | .fsmRead _ _ | .tableReset => true
  | .fsmResult _ _ data => decide (data.length ≤ READ_MAX)
  | .filterSerial data => decide (data.length ≤ 255)
  | .illegalCommand bytes => !legalForm bytes
  | .queryNormalInfo _ f => f.inFamily p .read && decide (f.fn = FN_QUERY_NORMAL_INFO)
  | .queryNormalInfoReply _ f => f.inFamily p .read && decide (f.fn = p.fnQueryNormalInfoReply)
  | .reRegister _ f => f.inFamily p .register && decide (f.fn = p.fnReRegister)
  | .offlineQuery _ f => f.inFamily p .register && decide (f.fn = p.fnOfflineQuery)
  | .sendRegisterAddress _ f => f.inFamily p .register && decide (f.fn = p.fnSendRegisterAddress)
  | .offlineQueryReply _ f => f.inFamily p .register && decide (f.fn = p.fnOfflineQueryReply)
  | .addressConfirm _ f => f.inFamily p .register && decide (f.fn = p.fnAddressConfirm)
  | .reRegisterReply _ f => f.inFamily p .register && decide (p.fnReRegisterReply = some f.fn)
  | .readFamilyOther _ f => f.inFamily p .read && !namedRead p f.fn
  | .registerFamilyOther _ f => f.inFamily p .register && !namedRegister p f.fn
  | .writeFamily _ f => f.inFamily p .write
  | .executeFamily _ f => f.inFamily p .execute
  | .unknownControl _ f => f.inFamily p .unknown

end Sys2Proof
end

