-- ==== Sys2Proof/Decode.lean ====
section
/-! DEFINITION. The decoder of a port's bytes (rules R70, R86, R87, R89), total, and after it the encoder, written from the same formats. -/

namespace Sys2Proof

open Machine

/-! ### The command port -/

/-- ENCODE: `src, dst, ctrl, fn, n, payload[n]` (rule R87). -/
def decodeEncode : List Byte → Option Instr
  | src :: dst :: ctrl :: fn :: n :: payload =>
    if payload.length = n.toNat then some (.encode src dst ctrl fn payload) else none
  | _ => none

/-- `L (2), data[L]` (rule R87). -/
def decodeLenData : List Byte → Option (List Byte)
  | hi :: lo :: data => if data.length = (be16 hi lo).toNat then some data else none
  | _ => none

/-- FSM_RESULT: `w, present, L (2), data[L]` (rule R87). -/
def decodeResult : List Byte → Option Instr
  | w :: present :: rest => (decodeLenData rest).map fun data => .fsmResult w present data
  | _ => none

/-- FILTER_SERIAL: `n, data[n]` (rule R87). -/
def decodeFilter : List Byte → Option Instr
  | n :: data => if data.length = n.toNat then some (.filterSerial data) else none
  | _ => none

/-- One operand byte (rule R87). -/
def decode1 (k : Byte → Instr) : List Byte → Option Instr
  | [a] => some (k a)
  | _ => none

/-- Two operand bytes (rule R87). -/
def decode2 (k : Byte → Byte → Instr) : List Byte → Option Instr
  | [a, b] => some (k a b)
  | _ => none

/-- Three operand bytes (rule R87). -/
def decode3 (k : Byte → Byte → Byte → Instr) : List Byte → Option Instr
  | [a, b, c] => some (k a b c)
  | _ => none

/-- The operands of an opcode; none for an opcode outside rule R87 or a command of the wrong length. -/
def decodeOperands (op : Byte) (args : List Byte) : Option Instr :=
  if op = OP_ENCODE then decodeEncode args
  else if op = OP_CHECKSUM then (decodeLenData args).map .checksum
  else if op = OP_DECODE then (decodeLenData args).map .decode
  else if op = OP_VERIFY then (decodeLenData args).map .verify
  else if op = OP_LOOKUP then decode2 .lookup args
  else if op = OP_FUNCTION_NAME then decode3 .functionName args
  else if op = OP_CODE_OF then decode2 .codeOf args
  else if op = OP_RESPONSE_OF then decode2 .responseOf args
  else if op = OP_FSM_RESET then decode1 .fsmReset args
  else if op = OP_FSM_GO then decode1 .fsmGo args
  else if op = OP_FSM_RESULT then decodeResult args
  else if op = OP_FSM_READ then decode2 .fsmRead args
  else if op = OP_FILTER_SERIAL then decodeFilter args
  else if op = OP_TABLE_RESET then (if args = [] then some .tableReset else none)
  else none

/-- A command's bytes; what has no format of rule R87 is rejected by name, as ILLEGAL_COMMAND (rules R86, R89). -/
def decodeCommand : List Byte → Instr
  | [] => .illegalCommand []
  | op :: args => (decodeOperands op args).getD (.illegalCommand (op :: args))

/-! ### The wire -/

/-- The frame a read starts with (rules R70, R84, R110): the frame is read at offset 0, and its payload and its two
checksum bytes must be there. DESIGN CHOICE (unsafe for `reading` alone, notes/assumptions/16.md): which row a read is does
not depend on `P_DECODE_CHECK_MAGIC`, so a read whose header or trailer DECODE refuses under it is still a frame here; the
worker's own DECODE refuses it (rules R71, R109). -/
def parseFrame : List Byte → Option WireFrame
  | h0 :: h1 :: src :: dst :: ctrl :: fn :: n :: rest =>
    match rest.drop n.toNat with
    | c1 :: c0 :: tail => some ⟨h0, h1, src, dst, ctrl, fn, rest.take n.toNat, c1, c0, tail⟩
    | _ => none
  | _ => none

/-- The row of the opcode table a frame falls in: its family, then its function code (rules R78 to R82). -/
def frameInstr (p : Params) (w : Byte) (f : WireFrame) : Instr :=
  match familyOf p f.ctrl with
  | .register =>
    if f.fn = p.fnReRegister then .reRegister w f
    else if f.fn = p.fnOfflineQuery then .offlineQuery w f
    else if f.fn = p.fnSendRegisterAddress then .sendRegisterAddress w f
    else if f.fn = p.fnOfflineQueryReply then .offlineQueryReply w f
    else if f.fn = p.fnAddressConfirm then .addressConfirm w f
    else if p.fnReRegisterReply = some f.fn then .reRegisterReply w f
    else .registerFamilyOther w f
  | .read =>
    if f.fn = FN_QUERY_NORMAL_INFO then .queryNormalInfo w f
    else if f.fn = p.fnQueryNormalInfoReply then .queryNormalInfoReply w f
    else .readFamilyOther w f
  | .write => .writeFamily w f
  | .execute => .executeFamily w f
  | .unknown => .unknownControl w f

/-- A read at worker `w`'s exchange port: none at all, a frame, or bytes that hold no whole frame, which reach the
worker as the exchange result they are (rules R151, R155, R156). The length of an exchange result is a 16-bit field,
so no more than `READ_MAX` bytes are carried (notes/assumptions/7.md). -/
def decodeRead (p : Params) (w : Byte) (bytes : List Byte) : Instr :=
  match bytes.take READ_MAX with
  | [] => .fsmResult w 0x00 []
  | b :: bs =>
    match parseFrame (b :: bs) with
    | some f => frameInstr p w f
    | none => .fsmResult w 0x01 (b :: bs)

/-- The decoder: total on any bytes of either port. -/
def decode (p : Params) (word : PortWord) : Instr :=
  match word.port with
  | none => decodeCommand word.bytes
  | some w => decodeRead p w word.bytes

/-! ### The encoder -/

/-- A frame's bytes, offset 0 first (rules R51, R70). -/
def WireFrame.bytes (f : WireFrame) : List Byte :=
  [f.hdr0, f.hdr1, f.src, f.dst, f.ctrl, f.fn, length8 f.payload.length] ++ f.payload
    ++ [f.cksumHi, f.cksumLo] ++ f.tail

/-- The port and the bytes of an instruction (rules R70, R87). -/
def encode : Instr → PortWord
  | .encode src dst ctrl fn payload =>
    ⟨none, [OP_ENCODE, src, dst, ctrl, fn, length8 payload.length] ++ payload⟩
  | .checksum data => ⟨none, [OP_CHECKSUM] ++ be16Length data.length ++ data⟩
  | .decode data => ⟨none, [OP_DECODE] ++ be16Length data.length ++ data⟩
  | .verify data => ⟨none, [OP_VERIFY] ++ be16Length data.length ++ data⟩
  | .lookup ctrl fn => ⟨none, [OP_LOOKUP, ctrl, fn]⟩
  | .functionName family fn direction => ⟨none, [OP_FUNCTION_NAME, family, fn, direction]⟩
  | .codeOf family nameId => ⟨none, [OP_CODE_OF, family, nameId]⟩
  | .responseOf family nameId => ⟨none, [OP_RESPONSE_OF, family, nameId]⟩
  | .fsmReset w => ⟨none, [OP_FSM_RESET, w]⟩
  | .fsmGo w => ⟨none, [OP_FSM_GO, w]⟩
  | .fsmResult w present data => ⟨none, [OP_FSM_RESULT, w, present] ++ be16Length data.length ++ data⟩
  | .fsmRead w reg => ⟨none, [OP_FSM_READ, w, reg]⟩
  | .filterSerial data => ⟨none, [OP_FILTER_SERIAL, length8 data.length] ++ data⟩
  | .tableReset => ⟨none, [OP_TABLE_RESET]⟩
  | .illegalCommand bytes => ⟨none, bytes⟩
  | .queryNormalInfo w f => ⟨some w, f.bytes⟩
  | .queryNormalInfoReply w f => ⟨some w, f.bytes⟩
  | .reRegister w f => ⟨some w, f.bytes⟩
  | .offlineQuery w f => ⟨some w, f.bytes⟩
  | .sendRegisterAddress w f => ⟨some w, f.bytes⟩
  | .offlineQueryReply w f => ⟨some w, f.bytes⟩
  | .addressConfirm w f => ⟨some w, f.bytes⟩
  | .reRegisterReply w f => ⟨some w, f.bytes⟩
  | .readFamilyOther w f => ⟨some w, f.bytes⟩
  | .registerFamilyOther w f => ⟨some w, f.bytes⟩
  | .writeFamily w f => ⟨some w, f.bytes⟩
  | .executeFamily w f => ⟨some w, f.bytes⟩
  | .unknownControl w f => ⟨some w, f.bytes⟩

/-! ### Words of spec/opcode_table.json -/

/-- Byte `i` of a table word, the byte at bit `8 i` (the table counts bit 0 from the first byte). -/
def tableByte (w i : Nat) : Byte := BitVec.ofNat 8 (w >>> (8 * i))

/-- How many operand bytes an opcode's shortest command has (rule R87). -/
def shortestOperands (op : Byte) : Nat :=
  if op = OP_ENCODE then 5
  else if op = OP_CHECKSUM ∨ op = OP_DECODE ∨ op = OP_VERIFY then 2
  else if op = OP_LOOKUP ∨ op = OP_CODE_OF ∨ op = OP_RESPONSE_OF ∨ op = OP_FSM_READ then 2
  else if op = OP_FUNCTION_NAME then 3
  else if op = OP_FSM_RESET ∨ op = OP_FSM_GO then 1
  else if op = OP_FSM_RESULT then 4
  else if op = OP_FILTER_SERIAL then 1
  else 0

/-- The command whose first bytes a table word gives, its other operand bytes zero. -/
def tableCommand (nbits w : Nat) : List Byte :=
  let given := (List.range (nbits / 8)).map (tableByte w)
  given ++ List.replicate (shortestOperands (tableByte w 0) + 1 - given.length) 0x00

/-- The frame a table word names: the table numbers a frame row `(ctrl << 8) | fn` (frame bytes 4 and 5). Its operand
bytes are zero and its payload empty; the header and the trailer are the fixed ones (rules R71, R72). The checksum bytes
are zero like every bit the table does not give (notes/assumptions/9.md). -/
def tableFrame (w : Nat) : WireFrame :=
  ⟨HDR0, HDR1, 0x00, 0x00, tableByte w 1, tableByte w 0, [], 0x00, 0x00, [TRL0, TRL1]⟩

/-- The port and bytes of a table word: the rows of 16 bits are the frames of the wire, every other row is a command
(rule R87), whose `match` is its first byte. -/
def tableWord (nbits w : Nat) : PortWord :=
  if nbits = 16 then ⟨some 0x00, (tableFrame w).bytes⟩ else ⟨none, tableCommand nbits w⟩

/-- What the decoder reads from a table word, under the parameters State.reset holds. -/
def decodeTableWord (nbits w : Nat) : Option Instr :=
  if nbits = 0 then none else some (decode Params.tc1 (tableWord nbits w))

end Sys2Proof
end

