-- ==== Sys2Proof/Machine/State.lean ====
section
/-! DEFINITION. The state of the block (rule R20): the workers' registers, the shared address table, the parameters of the run, and what stands at the ports. Its reset (rules R37, R250, R251). -/

namespace Sys2Proof.Machine

/-- Why the machine would stop. There is none: every command of this block ends with a result (rules R86, R220), and
no rule of the spec stops the block, so no step raises a fault. Safe: nothing can be proved of a case that cannot
arise. -/
inductive Fault where
  deriving DecidableEq, Repr

/-- Why an instruction would have no meaning. -/
inductive Refusal where
  /-- Raised by an arm of `exec` whose instruction has no meaning yet; safe. No arm raises it. -/
  | notModelled (mnemonic : String)
  deriving DecidableEq, Repr

/-- `W[w].state` (rule R22). The values 5, 6 and 7 of its three bits are never written and have no name. -/
inductive FsmState where
  | unregistered | awaitingSerial | awaitingAddressConfirm | registered | abandoned
  deriving DecidableEq, Repr

/-- `W[w].phase` (rule R23): which exchange the next FSM_GO in Unregistered starts. -/
inductive Phase where
  | reRegister | offlineQuery
  deriving DecidableEq, Repr

/-- `W[w].pend` (rule R24). -/
inductive Pend where
  | none | reRegister | offlineQuery | sendRegisterAddress
  deriving DecidableEq, Repr

/-- The registers of one worker (rules R22 to R29). -/
structure Worker where
  state        : FsmState
  phase        : Phase
  pend         : Pend
  tx           : List Byte
  raw          : List Byte
  addr         : Byte
  addrValid    : Bool
  diagReason   : Byte
  diagMask     : BitVec 5
  diagExpected : Half
  diagFound    : Half
  diagFrame    : List Byte
  diagStep     : BitVec 3
  serialText   : List Byte
  deriving DecidableEq, Repr

/-- One entry of the address table (rule R31). -/
inductive Entry where
  | free | reserved | recorded (text : List Byte)
  deriving DecidableEq, Repr

/-- The address table `TBL` (rule R31): the entries that are not `Free`, by rising address. An address that is not
listed reads as `Free`, its reset value. -/
abbrev Table := List (Nat × Entry)

/-- What the outside world does to the block: the host's commands (rule R86), the reads of a channel agent's attempts
at one exchange, oldest first (rules R152 to R156), and the reset input (rule R250). -/
inductive Input where
  | command (bytes : List Byte)
  | exchange (w : Byte) (reads : List (List Byte))
  | blockReset
  deriving DecidableEq, Repr

/-- The machine. `workers` and `table` are the spec's architectural state (rule R20); `params` is what is fixed for the
run (rules R9, R256), which no step writes. The last three fields are the model's own: `inbox` is what the outside world
will put at the ports, in the order it does (rule R67 leaves the order open, so every list is allowed); `result` is the
result byte sequence of the last command (rule R86); `reading` is how the dispatcher read the last frame that arrived
(rule R132). -/
structure State where
  params  : Params
  workers : List Worker
  table   : Table
  inbox   : List Input
  result  : List Byte
  reading : Option Reading
  deriving DecidableEq, Repr

/-- The reset values of a worker's registers (rules R22 to R29, R251). -/
def Worker.reset : Worker where
  state        := .unregistered
  phase        := .reRegister
  pend         := .none
  tx           := []
  raw          := []
  addr         := 0x00
  addrValid    := false
  diagReason   := 0x00
  diagMask     := 0
  diagExpected := 0x0000
  diagFound    := 0x0000
  diagFrame    := []
  diagStep     := 0
  serialText   := []

/-- The block of `nw` workers right after reset, under the parameters `p`, with nothing at its ports (rules R37, R250,
R251). -/
def State.resetWith (p : Params) (nw : Nat) : State where
  params  := p
  workers := List.replicate nw Worker.reset
  table   := []
  inbox   := []
  result  := []
  reading := none

/-- The machine right after reset (rule R250). DESIGN CHOICE (unsafe, notes/assumptions/2.md): the spec leaves the
parameters open, and reset does not change them; this reset is under TC1 with two workers. What is said of reset for
every choice of them is said of `State.resetWith`. -/
def State.reset : State := State.resetWith Params.tc1 2

end Sys2Proof.Machine
end

