-- ==== Sys2Proof/Machine/Flags.lean ====
section
/-! DEFINITION. The flags of the block (rule R33): the STATUS register, the check mask and its reason, and ALL_ABANDONED. -/

namespace Sys2Proof.Machine

/-- The number of a state (rule R22). -/
def FsmState.code : FsmState → BitVec 3
  | .unregistered           => 0
  | .awaitingSerial         => 1
  | .awaitingAddressConfirm => 2
  | .registered             => 3
  | .abandoned              => 4

/-- The bit of a phase (rule R23). -/
def Phase.code : Phase → BitVec 1
  | .reRegister   => 0
  | .offlineQuery => 1

/-- The number of a pending exchange (rule R24). -/
def Pend.code : Pend → BitVec 2
  | .none                => 0
  | .reRegister          => 1
  | .offlineQuery        => 2
  | .sendRegisterAddress => 3

/-- The STATUS register: bits 2..0 state, bit 3 phase, bits 5..4 pend, bit 6 addr_valid, bit 7 zero (rule R34). -/
def statusRegister (x : Worker) : Byte :=
  0#1 ++ BitVec.ofBool x.addrValid ++ x.pend.code ++ x.phase.code ++ x.state.code

/-- The failed checks of a handshake reply: bit 0 SRC, bit 1 DST, bit 2 CTRL, bit 3 CKSUM, bit 4 ACK (rule R28). -/
def checkMask (src dst ctrl cksum ack : Bool) : BitVec 5 :=
  BitVec.ofBool ack ++ BitVec.ofBool cksum ++ BitVec.ofBool ctrl ++ BitVec.ofBool dst ++ BitVec.ofBool src

/-- `REASON(m)` for a mask that is not zero: ProtocolViolation if SRC, DST, CTRL or ACK is set (rule R189). -/
def reasonOf (m : BitVec 5) : Status :=
  if m &&& 0b10111 = 0 then .checksumMismatch else .protocolViolation

/-- `ALL_ABANDONED`, the derived output: every worker is in Abandoned (rule R236). -/
def State.allAbandoned (s : State) : Bool := s.workers.all fun x => x.state = .abandoned

end Sys2Proof.Machine
end

