-- ==== Sys2Proof/Machine/Ops.lean ====
section
/-! DEFINITION. The named operations: the address table, the codec, the workers' registers, raising a status, FAIL (the block's taking of an exception, rule R227), and what arrives at the ports. -/

namespace Sys2Proof.Machine

/-! ### The address table (rules R31, R59, R190, R192, R194) -/

/-- The canonical form of a table: addresses strictly rising and at most 255, and no entry that reads as an unlisted
address does. -/
abbrev Table.wf (t : Table) : Prop :=
  (t.map Prod.fst).Pairwise (· < ·) ∧ ∀ e ∈ t, e.1 ≤ 255 ∧ e.2 ≠ .free

/-- `TBL[a]` (rule R31). -/
def Table.read : Table → Nat → Entry
  | [], _ => .free
  | (b, e) :: t, a => if a = b then e else Table.read t a

/-- `TBL[a] <- e`, keeping the canonical form: writing `Free` takes the entry out. -/
def Table.write : Table → Nat → Entry → Table
  | [], a, e => if e = .free then [] else [(a, e)]
  | (b, x) :: t, a, e =>
    if a < b then (if e = .free then (b, x) :: t else (a, e) :: (b, x) :: t)
    else if a = b then (if e = .free then t else (a, e) :: t)
    else (b, x) :: Table.write t a e

/-- `keys(TBL)`, the assigned addresses (rule R31). -/
def Table.keys (t : Table) : List Nat := t.map Prod.fst

/-- `max(keys(TBL) ∪ {1})` (rule R190). -/
def Table.maxKey (t : Table) : Nat := t.keys.foldl max ADDR_CONTROLLER.toNat

/-- `allocate_next`, one atomic read-modify-write: the address and the table after it, or Exhausted (none), which
writes nothing (rules R59, R190). -/
def Table.allocateNext (t : Table) : Option (Nat × Table) :=
  if t.maxKey + 1 > ADDR_MAX then none
  else some (t.maxKey + 1, Table.write t (t.maxKey + 1) .reserved)

/-- `record(a, text)` (rule R192). -/
def Table.record (t : Table) (a : Nat) (text : List Byte) : Table := Table.write t a (.recorded text)

/-! ### The codec (40_codec.md) -/

/-- `sum(s)`, an unbounded natural (rules R12, R104). -/
def byteSum (s : List Byte) : Nat := (s.map BitVec.toNat).sum

/-- `1 + (S XOR 0xFFFF)` before truncation (rules R103, R104, R113). -/
def wideChecksum (s : List Byte) : Nat := 1 + (byteSum s ^^^ 0xFFFF)

/-- CHECKSUM: the unmasked value modulo 2^16 (rules R103, R104). -/
def checksumOf (s : List Byte) : Half := BitVec.ofNat 16 (wideChecksum s)

/-- The bytes of a frame before its checksum (rules R70, R100). -/
def frameBody (src dst ctrl fn : Byte) (payload : List Byte) : List Byte :=
  [HDR0, HDR1, src, dst, ctrl, fn, length8 payload.length] ++ payload

/-- ENCODE (rule R100): the frame, or PayloadTooLong. It checks nothing else (rule R101). -/
def encodeFrame (src dst ctrl fn : Byte) (payload : List Byte) : Except Status (List Byte) :=
  if payload.length > N_MAX then .error .payloadTooLong
  else
    let body := frameBody src dst ctrl fn payload
    .ok (body ++ be16Bytes (checksumOf body) ++ [TRL0, TRL1])

/-- What DECODE returns (rule R108). -/
structure Frame where
  hdr0           : Byte
  hdr1           : Byte
  src            : Byte
  dst            : Byte
  ctrl           : Byte
  fn             : Byte
  n              : Byte
  payload        : List Byte
  found          : Half
  trailerPresent : Bool
  trl0           : Byte
  trl1           : Byte
  body           : List Byte
  deriving DecidableEq, Repr

/-- `s[i]` (rule R12); every use is behind a check that `i < len(s)` (rule R110). -/
def byteAt (s : List Byte) (i : Nat) : Byte := s.getD i 0x00

/-- The Frame of rule R108, for a buffer that holds its payload and its checksum bytes. -/
def frameOf (buf : List Byte) : Frame :=
  let n := (byteAt buf 6).toNat
  let trailer : Bool := decide (11 + n ≤ buf.length)
  { hdr0 := byteAt buf 0, hdr1 := byteAt buf 1, src := byteAt buf 2, dst := byteAt buf 3,
    ctrl := byteAt buf 4, fn := byteAt buf 5, n := byteAt buf 6,
    payload := (buf.drop 7).take n,
    found := be16 (byteAt buf (7 + n)) (byteAt buf (8 + n)),
    trailerPresent := trailer,
    trl0 := if trailer then byteAt buf (9 + n) else 0x00,
    trl1 := if trailer then byteAt buf (10 + n) else 0x00,
    body := buf.take (7 + n) }

/-- DECODE, with `P_DECODE_CHECK_MAGIC` as `magic` (rules R107, R109), its errors in the order of rule R225. -/
def decodeFrame (magic : Bool) (buf : List Byte) : Except Status Frame :=
  let n := (byteAt buf 6).toNat
  if buf.length < 7 then .error .malformedHeader
  else if magic = true ∧ (byteAt buf 0 ≠ HDR0 ∨ byteAt buf 1 ≠ HDR1) then .error .malformedHeader
  else if buf.length < 7 + n then .error .truncatedPayload
  else if buf.length < 9 + n then .error .truncatedPayload
  else if magic = true ∧ buf.length < 11 + n then .error .truncatedPayload
  else if magic = true ∧ (byteAt buf (9 + n) ≠ TRL0 ∨ byteAt buf (10 + n) ≠ TRL1) then .error .malformedTrailer
  else .ok (frameOf buf)

/-- What VERIFY reports (rule R112). -/
structure Verdict where
  ok       : Bool
  expected : Half
  found    : Half
  deriving DecidableEq, Repr

/-- VERIFY of a decoded frame, with `P_CKSUM_WIDE_COMPARE` as `wide` (rules R112, R113). -/
def verdictOf (wide : Bool) (f : Frame) : Verdict where
  ok := if wide then decide (wideChecksum f.body = f.found.toNat) else decide (checksumOf f.body = f.found)
  expected := checksumOf f.body
  found := f.found

/-- VERIFY (rule R112): a DECODE error ends it. -/
def verifyFrame (p : Params) (buf : List Byte) : Except Status Verdict :=
  match decodeFrame p.decodeCheckMagic buf with
  | .error e => .error e
  | .ok f => .ok (verdictOf p.cksumWideCompare f)

/-! ### The serial filter (rule R195) -/

/-- `WS`: space, tab, LF, VT, FF, CR (rule R195). -/
def isSpace (b : Byte) : Bool := decide (b ∈ [0x20#8, 0x09, 0x0A, 0x0B, 0x0C, 0x0D])

/-- FILTER_SERIAL: drop the bytes outside the charset, then the trailing white space (rule R195). -/
def filterSerial (p : Params) (bytes : List Byte) : List Byte :=
  ((bytes.filter fun b => decide (b ∈ p.serialCharset)).reverse.dropWhile isSpace).reverse

/-! ### The workers' registers -/

/-- `P_NW`, the number of workers (rules R9, R234). -/
def State.nw (s : State) : Nat := s.workers.length

/-- `W[w]`; none when `w >= P_NW` (rule R88). -/
def State.worker? (s : State) (w : Byte) : Option Worker := s.workers[w.toNat]?

/-- `W[w] <- x`. -/
def State.setWorker (s : State) (w : Byte) (x : Worker) : State :=
  { s with workers := s.workers.set w.toNat x }

/-- The frame worker `w` offers its channel agent while its exchange is pending (rules R25, R150, R258). -/
def State.offered (s : State) (w : Byte) : Option (List Byte) :=
  match s.worker? w with
  | some x => if x.pend = .none then none else some x.tx
  | none => none

/-- The Inverter Record of one worker: assigned address, raw serial bytes, and whether it is registered (rule R30). -/
def Worker.inverterRecord (x : Worker) : Byte × List Byte × Bool := (x.addr, x.raw, x.state = .registered)

/-- The end of a command: its result, a status and data (rules R86, R220). -/
def State.answer (s : State) (st : Status) (data : List Byte) : State :=
  { s with result := st.code :: data }

/-- FAIL (rule R185), the block's taking of an exception (rule R227): the diagnostic registers of the worker are
written, and a fatal failure sends it to Abandoned. -/
def Worker.fail (p : Params) (reason : Status) (mask : BitVec 5) (expected found : Half) (frame : List Byte)
    (step : BitVec 3) (fatal : Bool) (x : Worker) : Worker :=
  let y : Worker :=
    { x with
      diagReason := reason.code, diagMask := mask, diagExpected := expected, diagFound := found,
      diagFrame := frame.take p.rxBufMax, diagStep := step }
  if fatal then { y with state := .abandoned, phase := .reRegister } else y

/-- FAIL of worker `w`'s step, and the failure's status as the command's result (rules R185, R220). The registers of
the worker before the failure are `x`. -/
def State.failStep (s : State) (w : Byte) (x : Worker) (reason : Status) (mask : BitVec 5) (expected found : Half)
    (frame : List Byte) (step : BitVec 3) (fatal : Bool) : State :=
  (s.setWorker w (x.fail s.params reason mask expected found frame step fatal)).answer reason []

/-- The return from a failure: only a reset of the worker leaves Abandoned (rules R188, R229). -/
def State.resetWorker (s : State) (w : Byte) : State := s.setWorker w Worker.reset

/-- The block reset (rule R250): every worker and the table, the parameters untouched. What the outside world has yet
to put at the ports is its own. -/
def State.blockReset (s : State) : State :=
  { s with
    workers := s.workers.map fun _ => Worker.reset, table := [], result := [], reading := none }

/-- `emit tx` with a request of the FSM: source the controller, destination broadcast, the Register control code (rules
R150, R172, R173, R179, R182). ENCODE's error, if any, is the command's. -/
def Worker.emit (p : Params) (fn : Byte) (payload : List Byte) (pend : Pend) (x : Worker) : Except Status Worker :=
  match encodeFrame ADDR_CONTROLLER ADDR_BROADCAST p.ctrlRegister fn payload with
  | .ok tx => .ok { x with tx := tx, pend := pend }
  | .error e => .error e

/-! ### What arrives at the ports -/

/-- The channel agent's exchange loop: the first non-empty read of at most `maxAttempts` attempts, or none, which the
exchange port carries as the empty sequence (rules R151, R152, R154, R155). -/
def firstRead (maxAttempts : Nat) (reads : List (List Byte)) : List Byte :=
  ((reads.take maxAttempts).find? fun r => !r.isEmpty).getD []

/-- How many attempts the channel agent makes at one exchange: it stops at its first read that is not empty, and after
`P_MAX_ATTEMPTS` in any case (rules R152, R154). -/
def attemptsMade : Nat → List (List Byte) → Nat
  | 0, _ => 0
  | _ + 1, [] => 0
  | n + 1, r :: reads => if r.isEmpty then 1 + attemptsMade n reads else 1

/-- The time one exchange takes: each attempt waits `settle_delay` once (rules R152, R160; the write times of rule R264
left out). It is the channel agent's; the block counts no time (rule R233). -/
def exchangeTime (p : Params) (reads : List (List Byte)) : Nat := attemptsMade p.maxAttempts reads * p.settleDelay

/-- The word an input puts at a port; the reset input puts none. -/
def portWord (p : Params) : Input → Option PortWord
  | .command bytes => some ⟨none, bytes⟩
  | .exchange w reads => some ⟨some w, firstRead p.maxAttempts reads⟩
  | .blockReset => none

/-- The instruction at the ports, if the next input is one: what a step decodes and runs. -/
def State.nextInstr (s : State) : Option Instr :=
  match s.inbox with
  | [] => none
  | i :: _ =>
    match portWord s.params i with
    | some word => some (decode s.params word)
    | none => none

/-- The input that puts a word at its port. -/
def inputOf (word : PortWord) : Input :=
  match word.port with
  | none => .command word.bytes
  | some w => .exchange w [word.bytes]

end Sys2Proof.Machine
end

