-- ==== Sys2Proof/Machine/Codec.lean ====
section
/-! DEFINITION. The frame codec's commands: ENCODE, CHECKSUM, DECODE, VERIFY (40_codec.md). They write nothing but their result. -/

namespace Sys2Proof.Machine

/-- ENCODE (rule R100). -/
def execEncode (src dst ctrl fn : Byte) (payload : List Byte) (s : State) : Host.Outcome State Fault Refusal :=
  match encodeFrame src dst ctrl fn payload with
  | .ok frame => .next (s.answer .ok (be16Length frame.length ++ frame))
  | .error e => .next (s.answer e [])

/-- CHECKSUM (rule R103). -/
def execChecksum (data : List Byte) (s : State) : Host.Outcome State Fault Refusal :=
  .next (s.answer .ok (be16Bytes (checksumOf data)))

/-- The result data of DECODE (rules R87, R108). -/
def Frame.data (f : Frame) : List Byte :=
  [f.src, f.dst, f.ctrl, f.fn, f.n] ++ f.payload ++ be16Bytes f.found
    ++ [f.hdr0, f.hdr1, boolByte f.trailerPresent, f.trl0, f.trl1]

/-- DECODE (rule R107). -/
def execDecode (data : List Byte) (s : State) : Host.Outcome State Fault Refusal :=
  match decodeFrame s.params.decodeCheckMagic data with
  | .ok f => .next (s.answer .ok f.data)
  | .error e => .next (s.answer e [])

/-- The result data of VERIFY (rule R112). -/
def Verdict.data (v : Verdict) : List Byte :=
  [boolByte v.ok] ++ be16Bytes v.expected ++ be16Bytes v.found

/-- VERIFY (rules R112, R114): both values under ChecksumMismatch too. -/
def execVerify (data : List Byte) (s : State) : Host.Outcome State Fault Refusal :=
  match verifyFrame s.params data with
  | .ok v => .next (s.answer (if v.ok then .ok else .checksumMismatch) v.data)
  | .error e => .next (s.answer e [])

end Sys2Proof.Machine
end

