-- ==== Sys2Proof/Machine/Registry.lean ====
section
/-! DEFINITION. The opcode dispatcher's commands: LOOKUP, FUNCTION_NAME, CODE_OF, RESPONSE_OF (41_registry.md), and the illegal commands (rule R89). They write nothing but their result (rule R139). -/

namespace Sys2Proof.Machine

/-- The result data of a classification: family, direction, name id (rules R87, R132). -/
def Reading.data (r : Reading) : List Byte := [r.family.code, directionByte r.direction, r.nameId]

/-- LOOKUP (rules R132 to R134). -/
def execLookup (ctrl fn : Byte) (s : State) : Host.Outcome State Fault Refusal :=
  .next (s.answer .ok (lookupReading s.params ctrl fn).data)

/-- FUNCTION_NAME's answer: absent for a family without a table and for the wrong direction (rule R135). -/
def functionName (p : Params) (F : Family) (fn : Byte) (d : Direction) : Byte :=
  match threshold p F with
  | some t => if directionOf t fn = d then nameOf (nameTable p F) fn else ID_ABSENT
  | none => ID_ABSENT

/-- FUNCTION_NAME (rule R135). -/
def execFunctionName (family fn direction : Byte) (s : State) : Host.Outcome State Fault Refusal :=
  match familyOperand family, directionOperand direction with
  | some F, some d => .next (s.answer .ok [functionName s.params F fn d])
  | _, _ => .next (s.answer .illegalCommand [])

/-- `present` and a byte, both zero when there is none (rules R136, R137). -/
def optionData : Option Byte → List Byte
  | some b => [boolByte true, b]
  | none => [boolByte false, 0x00]

/-- CODE_OF (rule R136). -/
def execCodeOf (family nameId : Byte) (s : State) : Host.Outcome State Fault Refusal :=
  match familyOperand family with
  | some F => .next (s.answer .ok (optionData (codeOfName (nameTable s.params F) nameId)))
  | none => .next (s.answer .illegalCommand [])

/-- RESPONSE_OF (rule R137). -/
def execResponseOf (family nameId : Byte) (s : State) : Host.Outcome State Fault Refusal :=
  match familyOperand family with
  | some F => .next (s.answer .ok (optionData (responseOfName (pairTable s.params F) nameId)))
  | none => .next (s.answer .illegalCommand [])

/-- ILLEGAL_COMMAND (rules R86, R89): the result IllegalCommand, and no other effect. -/
def execIllegalCommand (_bytes : List Byte) (s : State) : Host.Outcome State Fault Refusal :=
  .next (s.answer .illegalCommand [])

end Sys2Proof.Machine
end

