-- ==== Sys2Proof/Machine/Handshake.lean ====
section
/-! DEFINITION. The registration handshake's commands: FSM_RESET, FSM_GO, FSM_RESULT, FSM_READ, FILTER_SERIAL, TABLE_RESET (43_handshake.md). -/

namespace Sys2Proof.Machine

/-! ### FSM_GO -/

/-- Take worker `w` to the registers `emit` gave, or end with ENCODE's error and nothing written (rule R220). -/
def State.emitted (s : State) (w : Byte) : Except Status Worker → State
  | .ok y => (s.setWorker w y).answer .ok []
  | .error e => s.answer e []

/-- Step 1, ReRegister (rule R172). -/
def goReRegister (w : Byte) (x : Worker) (s : State) : State :=
  s.emitted w (x.emit s.params s.params.fnReRegister [] .reRegister)

/-- Step 2, OfflineQuery (rule R173). -/
def goOfflineQuery (w : Byte) (x : Worker) (s : State) : State :=
  s.emitted w (x.emit s.params s.params.fnOfflineQuery [] .offlineQuery)

/-- The SendRegisterAddress request for address `a` (rules R179, R182). -/
def emitAddress (p : Params) (a : Byte) (x : Worker) : Except Status Worker :=
  x.emit p p.fnSendRegisterAddress (x.raw ++ [a]) .sendRegisterAddress

/-- Step 3, allocate and send the address (rules R179, R180, R181): the length check, then `allocate_next`, then the
frame. Once the length is checked ENCODE has no error to raise. -/
def goAllocate (w : Byte) (x : Worker) (s : State) : State :=
  if x.raw.length > 254 then s.failStep w x .payloadTooLong 0 0 0 [] 3 true
  else match s.table.allocateNext with
    | none => s.failStep w x .addressSpaceExhausted 0 0 0 [] 3 true
    | some (a, t) =>
      let y : Worker :=
        { x with addr := BitVec.ofNat 8 a, addrValid := true, state := .awaitingAddressConfirm }
      { s with table := t }.emitted w (emitAddress s.params y.addr y)

/-- Resend after a step 4 failure that was not fatal (rule R182). -/
def goResend (w : Byte) (x : Worker) (s : State) : State :=
  s.emitted w (emitAddress s.params x.addr x)

/-- FSM_GO's dispatch on `(W.state, W.phase)` (rule R171); nothing in a terminal state (rule R187). -/
def goStep (w : Byte) (x : Worker) (s : State) : State :=
  match x.state with
  | .unregistered =>
    match x.phase with
    | .reRegister => goReRegister w x s
    | .offlineQuery => goOfflineQuery w x s
  | .awaitingSerial => goAllocate w x s
  | .awaitingAddressConfirm => goResend w x s
  | .registered => s.answer .ok []
  | .abandoned => s.answer .ok []

/-- FSM_GO (rule R171). -/
def execFsmGo (w : Byte) (s : State) : Host.Outcome State Fault Refusal :=
  match s.worker? w with
  | none => .next (s.answer .badWorker [])
  | some x => if x.pend = .none then .next (goStep w x s) else .next (s.answer .busy [])

/-! ### FSM_RESULT -/

/-- The checks of an OfflineQuery reply (rule R177). -/
def offlineQueryChecks (p : Params) (f : Frame) (v : Verdict) : BitVec 5 :=
  checkMask (f.src ≠ ADDR_BROADCAST) (f.dst ≠ ADDR_BROADCAST) (f.ctrl ≠ p.ctrlRegister) (!v.ok) false

/-- The checks of an AddressConfirm reply to a worker that was allocated `a` (rule R183). -/
def addressConfirmChecks (p : Params) (a : Byte) (f : Frame) (v : Verdict) : BitVec 5 :=
  checkMask (f.src ≠ a) (f.dst ≠ ADDR_CONTROLLER) (f.ctrl ≠ p.ctrlRegister) (!v.ok) (f.payload.head? ≠ some p.ack)

/-- The answer to OfflineQuery (rules R176, R177, R178); `x` has nothing pending any more. -/
def answerOfflineQuery (w : Byte) (x : Worker) (r : Option (List Byte)) (s : State) : State :=
  match r with
  | none => s.failStep w { x with phase := .reRegister } .noResponse 0 0 0 [] 2 false
  | some bytes =>
    match decodeFrame s.params.decodeCheckMagic bytes with
    | .error e => s.failStep w { x with phase := .reRegister } e 0 0 0 bytes 2 false
    | .ok f =>
      let v := verdictOf s.params.cksumWideCompare f
      let m := offlineQueryChecks s.params f v
      if m = 0 then
        (s.setWorker w { x with raw := f.payload, phase := .reRegister, state := .awaitingSerial }).answer .ok []
      else s.failStep w x (reasonOf m) m v.expected v.found bytes 2 true

/-- The answer to SendRegisterAddress (rules R183, R184, R186); `x` has nothing pending any more. -/
def answerAddressConfirm (w : Byte) (x : Worker) (r : Option (List Byte)) (s : State) : State :=
  match r with
  | none => s.failStep w x .noResponse 0 0 0 [] 4 false
  | some bytes =>
    match decodeFrame s.params.decodeCheckMagic bytes with
    | .error e => s.failStep w x e 0 0 0 bytes 4 false
    | .ok f =>
      let v := verdictOf s.params.cksumWideCompare f
      let m := addressConfirmChecks s.params x.addr f v
      if m = 0 then
        let text := filterSerial s.params x.raw
        let y : Worker := { x with serialText := text, state := .registered }
        ({ s with table := s.table.record x.addr.toNat text }.setWorker w y).answer .ok []
      else s.failStep w x (reasonOf m) m v.expected v.found bytes 4 true

/-- The answer of worker `w`'s exchange (rule R174): BadWorker and NotPending change no state; ReRegister's answer is
ignored, whatever it is (rule R175). -/
def deliver (w : Byte) (r : Option (List Byte)) (s : State) : State :=
  match s.worker? w with
  | none => s.answer .badWorker []
  | some x =>
    let y : Worker := { x with pend := .none }
    match x.pend with
    | .none => s.answer .notPending []
    | .reRegister => (s.setWorker w { y with phase := .offlineQuery }).answer .ok []
    | .offlineQuery => answerOfflineQuery w y r s
    | .sendRegisterAddress => answerAddressConfirm w y r s

/-- An exchange result as FSM_RESULT carries it (rules R88, R151): a `present` outside its domain, or bytes where none
is said, has no meaning; `present = 1` with no bytes is none. -/
def exchangeResult (present : Byte) (data : List Byte) : Option (Option (List Byte)) :=
  if present = 0x00 then (if data = [] then some none else none)
  else if present = 0x01 then (if data = [] then some none else some (some data))
  else none

/-- FSM_RESULT (rule R174), its statuses in the order of rule R225. -/
def execFsmResult (w present : Byte) (data : List Byte) (s : State) : Host.Outcome State Fault Refusal :=
  match s.worker? w, exchangeResult present data with
  | none, _ => .next (s.answer .badWorker [])
  | some _, none => .next (s.answer .illegalCommand [])
  | some _, some r => .next (deliver w r s)

/-! ### Reset, readback, the filter and the table -/

/-- FSM_RESET (rule R188). -/
def execFsmReset (w : Byte) (s : State) : Host.Outcome State Fault Refusal :=
  match s.worker? w with
  | none => .next (s.answer .badWorker [])
  | some _ => .next ((s.resetWorker w).answer .ok [])

/-- `value(W, reg)`, the readback map of rule R34; none for a register number it does not list. `addr` reads as zero
while it is not valid (rule R27). -/
def readback (x : Worker) (reg : Byte) : Option (List Byte) :=
  if reg = 0x00 then some [statusRegister x]
  else if reg = 0x01 then some [if x.addrValid then x.addr else 0x00]
  else if reg = 0x02 then some [x.diagReason]
  else if reg = 0x03 then some [x.diagMask.setWidth 8]
  else if reg = 0x04 then some (be16Bytes x.diagExpected)
  else if reg = 0x05 then some (be16Bytes x.diagFound)
  else if reg = 0x06 then some [x.diagStep.setWidth 8]
  else if reg = 0x07 then some (be16Length x.diagFrame.length ++ x.diagFrame)
  else if reg = 0x08 then some (length8 x.raw.length :: x.raw)
  else if reg = 0x09 then some (length8 x.serialText.length :: x.serialText)
  else if reg = 0x0A then some (be16Length x.tx.length ++ x.tx)
  else none

/-- FSM_READ (rule R197). -/
def execFsmRead (w reg : Byte) (s : State) : Host.Outcome State Fault Refusal :=
  match s.worker? w with
  | none => .next (s.answer .badWorker [])
  | some x =>
    match readback x reg with
    | none => .next (s.answer .illegalCommand [])
    | some data => .next (s.answer .ok data)

/-- FILTER_SERIAL (rule R195). -/
def execFilterSerial (data : List Byte) (s : State) : Host.Outcome State Fault Refusal :=
  .next (s.answer .ok (length8 (filterSerial s.params data).length :: filterSerial s.params data))

/-- TABLE_RESET (rule R194). -/
def execTableReset (s : State) : Host.Outcome State Fault Refusal :=
  .next ({ s with table := [] }.answer .ok [])

end Sys2Proof.Machine
end

