-- ==== Sys2Proof/Machine/Wire.lean ====
section
/-! DEFINITION. The frames of the wire (rules R78 to R82): a frame arriving at a worker's exchange port. -/

namespace Sys2Proof.Machine

/-- A frame at worker `w`'s exchange port. The dispatcher reads it as rule R132 classifies a received frame, never as
an error (rules R90, R133, R134), and the worker takes it as its exchange's answer, which is the raw bytes and not the
frame's code (rules R151, R156, R174, R200). A header or trailer that DECODE refuses under `P_DECODE_CHECK_MAGIC` does not
keep the dispatcher from reading the frame (DESIGN CHOICE, notes/assumptions/16.md). -/
def receive (w : Byte) (f : WireFrame) (s : State) : State :=
  deliver w (some f.bytes) { s with reading := some (lookupReading s.params f.ctrl f.fn) }

/-- QueryNormalInfo (rule R80). -/
def execQueryNormalInfo (w : Byte) (f : WireFrame) (s : State) : Host.Outcome State Fault Refusal :=
  .next (receive w f s)

/-- QueryNormalInfoReply (rule R80). -/
def execQueryNormalInfoReply (w : Byte) (f : WireFrame) (s : State) : Host.Outcome State Fault Refusal :=
  .next (receive w f s)

/-- ReRegister (rule R172): the block sends it at step 1; one that comes back is an answer like any. -/
def execReRegister (w : Byte) (f : WireFrame) (s : State) : Host.Outcome State Fault Refusal :=
  .next (receive w f s)

/-- OfflineQuery (rule R173): the block sends it at step 2; one that comes back is an answer like any. -/
def execOfflineQuery (w : Byte) (f : WireFrame) (s : State) : Host.Outcome State Fault Refusal :=
  .next (receive w f s)

/-- SendRegisterAddress (rule R179): the block sends it at step 3; one that comes back is an answer like any. -/
def execSendRegisterAddress (w : Byte) (f : WireFrame) (s : State) : Host.Outcome State Fault Refusal :=
  .next (receive w f s)

/-- OfflineQueryReply (rules R176, R177). -/
def execOfflineQueryReply (w : Byte) (f : WireFrame) (s : State) : Host.Outcome State Fault Refusal :=
  .next (receive w f s)

/-- AddressConfirm (rules R183, R184). -/
def execAddressConfirm (w : Byte) (f : WireFrame) (s : State) : Host.Outcome State Fault Refusal :=
  .next (receive w f s)

/-- ReRegisterReply (rule R175). -/
def execReRegisterReply (w : Byte) (f : WireFrame) (s : State) : Host.Outcome State Fault Refusal :=
  .next (receive w f s)

/-- Any other Read-family frame (rule R133). -/
def execReadFamilyOther (w : Byte) (f : WireFrame) (s : State) : Host.Outcome State Fault Refusal :=
  .next (receive w f s)

/-- Any other Register-family frame (rule R133). -/
def execRegisterFamilyOther (w : Byte) (f : WireFrame) (s : State) : Host.Outcome State Fault Refusal :=
  .next (receive w f s)

/-- A Write-family frame (rules R81, R134). -/
def execWriteFamily (w : Byte) (f : WireFrame) (s : State) : Host.Outcome State Fault Refusal :=
  .next (receive w f s)

/-- An Execute-family frame (rules R81, R134). -/
def execExecuteFamily (w : Byte) (f : WireFrame) (s : State) : Host.Outcome State Fault Refusal :=
  .next (receive w f s)

/-- A frame of an unknown control code (rules R82, R134). -/
def execUnknownControl (w : Byte) (f : WireFrame) (s : State) : Host.Outcome State Fault Refusal :=
  .next (receive w f s)

end Sys2Proof.Machine
end

