-- ==== Sys2Proof/Machine/Dispatch.lean ====
section
/-! DEFINITION. The meaning of every instruction, one arm each. -/

namespace Sys2Proof.Machine

def exec (i : Instr) (s : State) : Host.Outcome State Fault Refusal :=
  match i with
  | .encode src dst ctrl fn payload => Sys2Proof.Machine.execEncode src dst ctrl fn payload s
  | .checksum data => Sys2Proof.Machine.execChecksum data s
  | .decode data => Sys2Proof.Machine.execDecode data s
  | .verify data => Sys2Proof.Machine.execVerify data s
  | .lookup ctrl fn => Sys2Proof.Machine.execLookup ctrl fn s
  | .functionName family fn direction => Sys2Proof.Machine.execFunctionName family fn direction s
  | .codeOf family nameId => Sys2Proof.Machine.execCodeOf family nameId s
  | .responseOf family nameId => Sys2Proof.Machine.execResponseOf family nameId s
  | .fsmReset w => Sys2Proof.Machine.execFsmReset w s
  | .fsmGo w => Sys2Proof.Machine.execFsmGo w s
  | .fsmResult w present data => Sys2Proof.Machine.execFsmResult w present data s
  | .fsmRead w reg => Sys2Proof.Machine.execFsmRead w reg s
  | .filterSerial data => Sys2Proof.Machine.execFilterSerial data s
  | .tableReset => Sys2Proof.Machine.execTableReset s
  | .illegalCommand bytes => Sys2Proof.Machine.execIllegalCommand bytes s
  | .queryNormalInfo w f => Sys2Proof.Machine.execQueryNormalInfo w f s
  | .queryNormalInfoReply w f => Sys2Proof.Machine.execQueryNormalInfoReply w f s
  | .reRegister w f => Sys2Proof.Machine.execReRegister w f s
  | .offlineQuery w f => Sys2Proof.Machine.execOfflineQuery w f s
  | .sendRegisterAddress w f => Sys2Proof.Machine.execSendRegisterAddress w f s
  | .offlineQueryReply w f => Sys2Proof.Machine.execOfflineQueryReply w f s
  | .addressConfirm w f => Sys2Proof.Machine.execAddressConfirm w f s
  | .reRegisterReply w f => Sys2Proof.Machine.execReRegisterReply w f s
  | .readFamilyOther w f => Sys2Proof.Machine.execReadFamilyOther w f s
  | .registerFamilyOther w f => Sys2Proof.Machine.execRegisterFamilyOther w f s
  | .writeFamily w f => Sys2Proof.Machine.execWriteFamily w f s
  | .executeFamily w f => Sys2Proof.Machine.execExecuteFamily w f s
  | .unknownControl w f => Sys2Proof.Machine.execUnknownControl w f s

end Sys2Proof.Machine
end

