-- ==== Sys2Proof/Machine/Step.lean ====
section
/-! DEFINITION. One step of the block: the next input at its ports, one atomic command (rules R14, R86). -/

namespace Sys2Proof.Machine

/-- One step. With nothing at its ports the block waits (rule R251). The reset input resets it between commands (rule
R250). Every other input is a word at a port, decoded and run as one atomic command (rule R14). -/
def step (s : State) : Host.Outcome State Fault Refusal :=
  match s.inbox with
  | [] => .next s
  | i :: rest =>
    match portWord s.params i with
    | none => .next ({ s with inbox := rest }.blockReset)
    | some word => exec (decode s.params word) { s with inbox := rest }

/-- `s` with a table word's instruction as the next input at its port, so that the next step runs it. -/
def State.withFetchWord (s : State) (nbits w : Nat) : State :=
  { s with inbox := inputOf (tableWord nbits w) :: s.inbox }

end Sys2Proof.Machine
end

