-- ==== Sys2Proof/Machine/Run.lean ====
section
/-! DEFINITION. The machine with its parameters as arguments of the whole run (rules R9, R20, R256): the block's own state, and one machine for each choice of the parameters and of the number of workers. -/

namespace Sys2Proof.Machine

/-- The state of the block without the parameters of the run (rule R20): the workers, the table, and what stands at the
ports (notes/assumptions/1.md). -/
structure Block where
  workers : List Worker
  table   : Table
  inbox   : List Input
  result  : List Byte
  reading : Option Reading
  deriving DecidableEq, Repr

/-- What a state holds beside the parameters. -/
def State.block (s : State) : Block where
  workers := s.workers
  table   := s.table
  inbox   := s.inbox
  result  := s.result
  reading := s.reading

/-- The block under the parameters `p`. -/
def Block.under (b : Block) (p : Params) : State where
  params  := p
  workers := b.workers
  table   := b.table
  inbox   := b.inbox
  result  := b.result
  reading := b.reading

/-- One step under the parameters `p`, an argument that no step writes (rule R256). -/
def stepUnder (p : Params) (b : Block) : Host.Outcome Block Fault Refusal :=
  match step (b.under p) with
  | .next s    => .next s.block
  | .fault e   => .fault e
  | .refused r => .refused r

/-- The machine of one run, its parameters and its number of workers fixed before reset (rules R9, R253, R256). -/
def machineUnder (p : Params) (nw : Nat) : Host.Core where
  State   := Block
  Fault   := Fault
  Refusal := Refusal
  step    := stepUnder p
  reset   := (State.resetWith p nw).block

end Sys2Proof.Machine
end

