-- ==== Sys2Proof/Safety.lean ====
section
/-! DEFINITION. What counts as a launch, a run's end, a well-formed state and a session's table (rules R32, R193, R253, R260, R262). -/

namespace Sys2Proof

open Machine

/-! ### Who an instruction is for -/

/-- The worker an instruction names or a frame arrives at (rules R88, R150); the codec, the registry, the filter,
TABLE_RESET and an illegal command are for none. -/
def Instr.worker? : Instr → Option Byte
  | .fsmReset w | .fsmGo w | .fsmResult w _ _ | .fsmRead w _ => some w
  | .queryNormalInfo w _ | .queryNormalInfoReply w _ | .reRegister w _ | .offlineQuery w _
  | .sendRegisterAddress w _ | .offlineQueryReply w _ | .addressConfirm w _ | .reRegisterReply w _
  | .readFamilyOther w _ | .registerFamilyOther w _ | .writeFamily w _ | .executeFamily w _
  | .unknownControl w _ => some w
  | .encode _ _ _ _ _ | .checksum _ | .decode _ | .verify _ | .lookup _ _ | .functionName _ _ _ | .codeOf _ _
  | .responseOf _ _ | .filterSerial _ | .tableReset | .illegalCommand _ => none

/-- The worker whose exchange an instruction answers (rules R150, R174): FSM_RESULT, and a frame at an exchange port. -/
def Instr.answers? : Instr → Option Byte
  | .fsmResult w _ _ => some w
  | .queryNormalInfo w _ | .queryNormalInfoReply w _ | .reRegister w _ | .offlineQuery w _
  | .sendRegisterAddress w _ | .offlineQueryReply w _ | .addressConfirm w _ | .reRegisterReply w _
  | .readFamilyOther w _ | .registerFamilyOther w _ | .writeFamily w _ | .executeFamily w _
  | .unknownControl w _ => some w
  | .encode _ _ _ _ _ | .checksum _ | .decode _ | .verify _ | .lookup _ _ | .functionName _ _ _ | .codeOf _ _
  | .responseOf _ _ | .filterSerial _ | .tableReset | .illegalCommand _ | .fsmReset _ | .fsmGo _ | .fsmRead _ _ => none

/-- The commands that read and write nothing but their result (rule R58), with ENCODE (rule R100). -/
def Instr.readsOnly : Instr → Bool
  | .encode _ _ _ _ _ | .checksum _ | .decode _ | .verify _ | .lookup _ _ | .functionName _ _ _ | .codeOf _ _
  | .responseOf _ _ | .filterSerial _ | .fsmRead _ _ | .illegalCommand _ => true
  | .fsmReset _ | .fsmGo _ | .fsmResult _ _ _ | .tableReset => false
  | .queryNormalInfo _ _ | .queryNormalInfoReply _ _ | .reRegister _ _ | .offlineQuery _ _
  | .sendRegisterAddress _ _ | .offlineQueryReply _ _ | .addressConfirm _ _ | .reRegisterReply _ _
  | .readFamilyOther _ _ | .registerFamilyOther _ _ | .writeFamily _ _ | .executeFamily _ _
  | .unknownControl _ _ => false

namespace Machine

/-! ### Launch and end of a run -/

/-- The workers whose channel agent already holds an answer to deliver: one that stands in the queue before any FSM_GO of
its worker, so that no exchange of the run offered it (rules R159, R253, R261; DEDUCED, notes/assumptions/14.md). `gone` is
the workers that had their FSM_GO. -/
def answersHeld (p : Params) : List Byte → List Input → List Byte
  | _, [] => []
  | gone, i :: rest =>
    match portWord p i with
    | none => answersHeld p gone rest
    | some word =>
      match decode p word with
      | .fsmGo w => answersHeld p (w :: gone) rest
      | instr =>
        match instr.answers? with
        | some w => if w ∈ gone then answersHeld p gone rest else w :: answersHeld p gone rest
        | none => answersHeld p gone rest

/-- `CleanLaunch` (rule R253): every register at its reset value (so no exchange is pending), every table entry `Free`,
and no channel agent holding an answer to deliver. The commands of the host and the answers to the run's own exchanges may
stand at the ports. -/
abbrev State.CleanLaunch (s : State) : Prop :=
  (∀ x ∈ s.workers, x = Worker.reset) ∧ s.table = [] ∧ answersHeld s.params [] s.inbox = []

/-- A worker's run is over (rule R262). -/
abbrev Worker.RunOver (x : Worker) : Prop := (x.state = .registered ∨ x.state = .abandoned) ∧ x.pend = .none

/-- The block's run is over (rule R262). -/
abbrev State.RunOver (s : State) : Prop := ∀ x ∈ s.workers, x.RunOver

/-! ### Well-formed states: what every step keeps, whatever arrives at the ports -/

/-- The pending exchange belongs to the state that offers it (rules R23, R24, R170). -/
abbrev Worker.PendMatches (x : Worker) : Prop :=
  (x.state ≠ .unregistered → x.phase = .reRegister) ∧
  (x.pend = .reRegister → x.state = .unregistered ∧ x.phase = .reRegister) ∧
  (x.pend = .offlineQuery → x.state = .unregistered ∧ x.phase = .offlineQuery) ∧
  (x.pend = .sendRegisterAddress → x.state = .awaitingAddressConfirm)

/-- The address registers (rules R27, R32): an allocated address is assignable, and the reset value stands until then. -/
abbrev Worker.AddrMatches (x : Worker) : Prop :=
  (x.addrValid = true → ADDR_MIN ≤ x.addr.toNat ∧ x.addr.toNat ≤ ADDR_MAX) ∧
  (x.addrValid = false → x.addr = 0x00) ∧
  (x.state = .unregistered ∨ x.state = .awaitingSerial → x.addrValid = false) ∧
  (x.state = .awaitingAddressConfirm ∨ x.state = .registered → x.addrValid = true)

/-- The lengths of the byte-sequence registers (rules R25, R26, R28, R29), and the serial that leaves room for the
address byte from step 3 on (rule R181). -/
abbrev Worker.LengthsFit (p : Params) (x : Worker) : Prop :=
  x.tx.length ≤ 266 ∧ x.raw.length ≤ 255 ∧ x.serialText.length ≤ 255 ∧ x.diagFrame.length ≤ p.rxBufMax ∧
  (x.state = .awaitingAddressConfirm ∨ x.state = .registered → x.raw.length ≤ 254)

/-- The diagnostic registers hold a failure's step and status, or the reset values (rules R28, R221). -/
abbrev Worker.DiagMatches (x : Worker) : Prop :=
  (x.diagReason = 0x00 ∧ x.diagMask = 0 ∧ x.diagExpected = 0 ∧ x.diagFound = 0 ∧ x.diagFrame = [] ∧
    x.diagStep = 0) ∨
  (x.diagReason ≠ 0x00 ∧ x.diagReason ≤ 0x0C#8 ∧ (x.diagStep = 2 ∨ x.diagStep = 3 ∨ x.diagStep = 4))

/-- `tx` is the frame of the pending exchange, and in AwaitingAddressConfirm it is the SendRegisterAddress frame
whether or not an exchange is pending (rules R25, R172, R173, R179, R182). -/
abbrev Worker.TxMatches (p : Params) (x : Worker) : Prop :=
  (x.pend = .reRegister →
    encodeFrame ADDR_CONTROLLER ADDR_BROADCAST p.ctrlRegister p.fnReRegister [] = .ok x.tx) ∧
  (x.pend = .offlineQuery →
    encodeFrame ADDR_CONTROLLER ADDR_BROADCAST p.ctrlRegister p.fnOfflineQuery [] = .ok x.tx) ∧
  (x.state = .awaitingAddressConfirm →
    encodeFrame ADDR_CONTROLLER ADDR_BROADCAST p.ctrlRegister p.fnSendRegisterAddress (x.raw ++ [x.addr]) = .ok x.tx)

/-- The serial text of a registered worker is its filtered raw serial (rules R29, R184). -/
abbrev Worker.TextMatches (p : Params) (x : Worker) : Prop :=
  x.state = .registered → x.serialText = filterSerial p x.raw

/-- What holds of one worker's registers in every state that a run reaches. -/
abbrev Worker.Inv (p : Params) (x : Worker) : Prop :=
  x.PendMatches ∧ x.AddrMatches ∧ x.LengthsFit p ∧ x.DiagMatches ∧ x.TxMatches p ∧ x.TextMatches p

/-- The text of a table entry is at most 255 bytes (rule R31). -/
abbrev Entry.Fits (e : Entry) : Prop :=
  match e with
  | .recorded text => text.length ≤ 255
  | _ => True

/-- The table is canonical and its keys lie in `ADDR_MIN..ADDR_MAX` (rule R32, its first clause). -/
abbrev Table.Inv (t : Table) : Prop :=
  t.wf ∧ ∀ e ∈ t, ADDR_MIN ≤ e.1 ∧ e.1 ≤ ADDR_MAX ∧ e.2.Fits

/-- The invariant every step keeps, whatever the outside world does. -/
abbrev State.Inv (s : State) : Prop :=
  s.params.Valid ∧ 0 < s.nw ∧ (∀ x ∈ s.workers, x.Inv s.params) ∧ s.table.Inv

/-! ### A session: no TABLE_RESET while a worker holds an address (rule R260) -/

/-- Rule R32 for a table that started empty: `keys(TBL) = {2, 3, ..., k}`. -/
abbrev Table.Contiguous (t : Table) : Prop := t.keys = List.range' ADDR_MIN t.length

/-- Every address a worker holds is in the table: Reserved until it is confirmed, then Recorded with the worker's
serial text (rules R179, R184, R193). -/
abbrev State.AddressesHeld (s : State) : Prop :=
  ∀ x ∈ s.workers,
    (x.addrValid = true → s.table.read x.addr.toNat ≠ .free) ∧
    (x.state = .awaitingAddressConfirm → s.table.read x.addr.toNat = .reserved) ∧
    (x.state = .registered → s.table.read x.addr.toNat = .recorded x.serialText)

/-- No two workers hold one address (rules R59, R190, R257). -/
abbrev State.AddressesDistinct (s : State) : Prop :=
  s.workers.Pairwise fun x y => x.addrValid = true → y.addrValid = true → x.addr ≠ y.addr

/-- The invariant of a session (rules R32, R193, R260). -/
abbrev State.Session (s : State) : Prop :=
  s.Inv ∧ s.table.Contiguous ∧ s.AddressesHeld ∧ s.AddressesDistinct

/-- The hazard of rule R260: the next instruction is TABLE_RESET while a worker holds an address. -/
abbrev State.TableResetHazard (s : State) : Prop :=
  s.nextInstr = some .tableReset ∧ ∃ x ∈ s.workers, x.addrValid = true

end Machine

end Sys2Proof
end

