-- ==== Sys2Proof/Certificates/Slice0/Obligations.lean ====
section
/-! DEFINITION. The statements for the provers, from the numbered rules of the spec; the words they are said in come first. -/

open Sys2Proof Sys2Proof.Machine

namespace Sys2Proof.Claims

/-! ### The spec's values, written out again for the statements -/

/-- The 16-bit two's complement of a sum of bytes, as a number (rule R105). -/
def negSum (bs : List Byte) : Nat := (65536 - byteSum bs % 65536) % 65536

/-- A number below 2^16 as two bytes, high byte first (rule R50). -/
def twoBytes (n : Nat) : List Byte := [BitVec.ofNat 8 (n / 256), BitVec.ofNat 8 n]

/-- The number two bytes spell, high byte first (rule R12). -/
def twoByteValue (a b : Byte) : Nat := a.toNat * 256 + b.toNat

/-- The frame of rule R70 with a checksum that makes its body sum to zero modulo 2^16 (rules R74, R105, R118). -/
def spelledFrame (src dst ctrl fn : Byte) (payload : List Byte) : List Byte :=
  let body := [0xA5, 0xA5, src, dst, ctrl, fn, BitVec.ofNat 8 payload.length] ++ payload
  body ++ twoBytes (negSum body) ++ [0x0A, 0x0D]

/-- A request of the registration FSM: from the controller, to broadcast (rules R172, R173, R179, R182). -/
def requestFrame (p : Params) (fn : Byte) (payload : List Byte) : List Byte :=
  spelledFrame 0x01 0x00 p.ctrlRegister fn payload

/-- The status DECODE raises on a buffer, if any, read off the buffer's own bytes (rule R107). -/
def decodeError (magic : Bool) : List Byte → Option Byte
  | h0 :: h1 :: _ :: _ :: _ :: _ :: n :: rest =>
    if magic && !(h0 == 0xA5 && h1 == 0xA5) then some 0x01
    else match rest.drop n.toNat with
      | _ :: _ :: tail =>
        if magic then
          match tail with
          | t0 :: t1 :: _ => if t0 = 0x0A ∧ t1 = 0x0D then none else some 0x0C
          | _ => some 0x02
        else none
      | _ => some 0x02
  | _ => some 0x01

/-- The bytes of a frame its checksum covers, offsets 0 to 6+N (rule R74). -/
def covered (f : WireFrame) : List Byte := f.bytes.take (7 + f.payload.length)

/-- A frame that DECODE takes (rules R107, R109). -/
abbrev Decodes (p : Params) (f : WireFrame) : Prop :=
  f.payload.length ≤ 255 ∧
  (p.decodeCheckMagic = true → f.hdr0 = 0xA5 ∧ f.hdr1 = 0xA5 ∧ f.tail.take 2 = [0x0A, 0x0D])

/-- DECODE's result data for a frame (rule R108). -/
def frameData (f : WireFrame) : List Byte :=
  [f.src, f.dst, f.ctrl, f.fn, BitVec.ofNat 8 f.payload.length] ++ f.payload
    ++ [f.cksumHi, f.cksumLo, f.hdr0, f.hdr1]
    ++ (match f.tail with
        | t0 :: t1 :: _ => [0x01, t0, t1]
        | _ => [0x00, 0x00, 0x00])

/-- The checksum of a frame is the computed one (rules R112, R113). -/
def sumGood (p : Params) (f : WireFrame) : Bool :=
  let found := twoByteValue f.cksumHi f.cksumLo
  if p.cksumWideCompare then decide (byteSum (covered f) < 65536 ∧ found + byteSum (covered f) = 65536)
  else decide (found = negSum (covered f))

/-- A five-bit check mask from its bits, SRC first (rule R28). -/
def maskOf (src dst ctrl cksum ack : Bool) : BitVec 5 :=
  BitVec.ofNat 5 (src.toNat + 2 * dst.toNat + 4 * ctrl.toNat + 8 * cksum.toNat + 16 * ack.toNat)

/-- The failed checks of a reply to OfflineQuery (rule R177). -/
def mask2 (p : Params) (f : WireFrame) : BitVec 5 :=
  maskOf (f.src != 0x00) (f.dst != 0x00) (f.ctrl != p.ctrlRegister) (!sumGood p f) false

/-- The failed checks of a reply to SendRegisterAddress by a worker at address `a` (rule R183). -/
def mask4 (p : Params) (a : Byte) (f : WireFrame) : BitVec 5 :=
  maskOf (f.src != a) (f.dst != 0x01) (f.ctrl != p.ctrlRegister) (!sumGood p f) (f.payload.head? != some p.ack)

/-- ChecksumMismatch when the checksum alone failed, else ProtocolViolation (rule R189). -/
def reasonByte (m : BitVec 5) : Byte := if m = 0b01000 then 0x03 else 0x04

/-- A worker after a failed step that was not fatal, its diagnostic registers written (rules R178, R185, R186). -/
def failedWith (p : Params) (reason : Byte) (bytes : List Byte) (step : BitVec 3) (x : Worker) : Worker :=
  { x with
    diagReason := reason, diagMask := 0, diagExpected := 0, diagFound := 0,
    diagFrame := bytes.take p.rxBufMax, diagStep := step }

/-- A worker after a reply that failed the checks `m` (rules R177, R183, R185). -/
def rejected (p : Params) (f : WireFrame) (m : BitVec 5) (step : BitVec 3) (x : Worker) : Worker :=
  { x with
    pend := .none, state := .abandoned, phase := .reRegister,
    diagReason := reasonByte m, diagMask := m, diagExpected := BitVec.ofNat 16 (negSum (covered f)),
    diagFound := BitVec.ofNat 16 (twoByteValue f.cksumHi f.cksumLo), diagFrame := f.bytes.take p.rxBufMax,
    diagStep := step }

/-- `m` is `max(keys(TBL) ∪ {1})` (rule R190). -/
abbrev IsMaxKey (t : Table) (m : Nat) : Prop :=
  (m = 1 ∨ t.read m ≠ .free) ∧ 1 ≤ m ∧ ∀ a, t.read a ≠ .free → a ≤ m

/-- The bytes that count as white space (rule R195). -/
def whiteSpace : List Byte := [0x20, 0x09, 0x0A, 0x0B, 0x0C, 0x0D]

/-- The thirteen kinds of frame of the opcode table. -/
def wireKinds : List (Byte → WireFrame → Instr) :=
  [.queryNormalInfo, .queryNormalInfoReply, .reRegister, .offlineQuery, .sendRegisterAddress, .offlineQueryReply,
   .addressConfirm, .reRegisterReply, .readFamilyOther, .registerFamilyOther, .writeFamily, .executeFamily,
   .unknownControl]

/-- The kinds of the Register family. -/
def registerKinds : List (Byte → WireFrame → Instr) :=
  [.reRegister, .offlineQuery, .sendRegisterAddress, .offlineQueryReply, .addressConfirm, .reRegisterReply,
   .registerFamilyOther]

/-- The kinds of the other families. -/
def otherKinds : List (Byte → WireFrame → Instr) :=
  [.queryNormalInfo, .queryNormalInfoReply, .readFamilyOther, .writeFamily, .executeFamily, .unknownControl]

/-- A frame at worker `w`'s exchange port is read as `rd` and taken exactly as FSM_RESULT takes its bytes. -/
abbrev ReadAndDelivered (i : Instr) (s : State) (w : Byte) (f : WireFrame) (rd : Reading) : Prop :=
  ∃ t, exec i s = .next t ∧ t.reading = some rd ∧
    exec (.fsmResult w 0x01 f.bytes) { s with reading := some rd } = .next t

/-- The name id an extra entry gives a code, `0x00` when none does (rules R78, R131). -/
def extraName (es : List Extra) (fn : Byte) : Byte := ((es.find? fun e => e.code == fn).map (·.nameId)).getD 0x00

/-- Run instructions one after another, stopping at the first that does not answer a next state. -/
def runInstrs : List Instr → State → Host.Outcome State Fault Refusal
  | [], s => .next s
  | i :: is, s =>
    match exec i s with
    | .next t => runInstrs is t
    | .fault e => .fault e
    | .refused e => .refused e

/-- A worker that stands where `x` stood, but for its diagnostics and the frame it built last (rules R178, R186). -/
abbrev startedOver (x y : Worker) : Prop :=
  y.state = x.state ∧ y.phase = x.phase ∧ y.pend = x.pend ∧ y.raw = x.raw ∧ y.addr = x.addr ∧
  y.addrValid = x.addrValid ∧ y.serialText = x.serialText

/-- The diagnostic registers of a worker (rule R28). -/
def diagnostics (x : Worker) : Byte × BitVec 5 × Half × Half × List Byte × BitVec 3 :=
  (x.diagReason, x.diagMask, x.diagExpected, x.diagFound, x.diagFrame, x.diagStep)

end Sys2Proof.Claims

open Sys2Proof.Claims

/-! ### Steps, encoding and the command port -/

/-- A step runs the instruction its next input decodes to (rules R14, R86), after taking that input from the port; with
nothing at its ports the block waits (rule R251), and the reset input resets it (rule R250). The queue of inputs is the
model's own (notes/assumptions/1.md). -/
def Obligations.StepRunsDecodedInstruction : Prop :=
  ∀ (s : State) (rest : List Input),
    (s.inbox = [] → step s = .next s) ∧
    (s.inbox = .blockReset :: rest → step s = .next ({ s with inbox := rest }.blockReset)) ∧
    (∀ bytes, s.inbox = .command bytes :: rest →
      step s = exec (decode s.params ⟨none, bytes⟩) { s with inbox := rest }) ∧
    (∀ w reads, s.inbox = .exchange w reads :: rest →
      step s = exec (decode s.params ⟨some w, firstRead s.params.maxAttempts reads⟩) { s with inbox := rest })

/-- Words written out from the formats of rules R70 and R87 decode to the instruction they stand for, under TC1. The
last word's row is rule R78's AddressConfirm; that a frame at an exchange port is a row of the opcode table is the
model's reading (notes/assumptions/6.md). -/
def Obligations.WrittenWordsDecode : Prop :=
  decode .tc1 ⟨none, [0x01, 0x01, 0x05, 0x31, 0x42, 0x02, 0x10, 0x20]⟩ = .encode 0x01 0x05 0x31 0x42 [0x10, 0x20] ∧
  decode .tc1 ⟨none, [0x04, 0x00, 0x02, 0xA5, 0xA4]⟩ = .verify [0xA5, 0xA4] ∧
  decode .tc1 ⟨none, [0x11, 0x01, 0x42, 0x00]⟩ = .functionName 0x01 0x42 0x00 ∧
  decode .tc1 ⟨none, [0x22, 0x07, 0x01, 0x00, 0x01, 0xAA]⟩ = .fsmResult 0x07 0x01 [0xAA] ∧
  decode .tc1 ⟨none, [0x21, 0x00, 0x00]⟩ = .illegalCommand [0x21, 0x00, 0x00] ∧
  decode .tc1 ⟨some 0x00, [0xA5, 0xA5, 0x02, 0x01, 0x30, 0xBE, 0x01, 0x06, 0xFD, 0xBE, 0x0A, 0x0D]⟩ =
    .addressConfirm 0x00 ⟨0xA5, 0xA5, 0x02, 0x01, 0x30, 0xBE, [0x06], 0xFD, 0xBE, [0x0A, 0x0D]⟩

/-- Decode and encode agree: the bytes of a well-formed instruction decode to it, with every operand (rules R70, R87).
Which row a frame at an exchange port is, whatever `P_DECODE_CHECK_MAGIC` is, is the model's (notes/assumptions/6.md,
notes/assumptions/16.md). -/
def Obligations.DecodeOfEncode : Prop :=
  ∀ (p : Params) (i : Instr), p.Valid → i.wf p = true → decode p (encode i) = i

/-- The bytes of a well-formed instruction at its port run it: the step is its meaning (rules R14, R86, R150).
Which row a frame at an exchange port is, whatever `P_DECODE_CHECK_MAGIC` is, is the model's (notes/assumptions/6.md,
notes/assumptions/16.md), as is the queue of inputs (notes/assumptions/1.md). -/
def Obligations.EncodedInstructionRuns : Prop :=
  ∀ (s : State) (i : Instr) (rest : List Input), s.params.Valid → i.wf s.params = true →
    s.inbox = inputOf (encode i) :: rest → step s = exec i { s with inbox := rest }

/-- Every byte sequence at the command port is the encoding of the one command it decodes to, so no two byte sequences
are one command (rules R86, R87). That every byte sequence of no format, one of no bytes among them, is the one row
ILLEGAL_COMMAND is the model's reading (notes/assumptions/13.md). -/
def Obligations.CommandBytesReencode : Prop :=
  ∀ (p : Params) (bytes : List Byte),
    encode (decode p ⟨none, bytes⟩) = ⟨none, bytes⟩ ∧ (decode p ⟨none, bytes⟩).wf p = true

/-- Every read at an exchange port decodes to a well-formed instruction: the frame whose bytes it is, or, when it holds
no whole frame, the exchange result it is (rules R151, R155, R156). A read longer than an exchange result can carry is the
model's cut (notes/assumptions/7.md). That a frame at an exchange port is a row of the opcode table is the model's reading
(notes/assumptions/6.md), and that it is one whatever `P_DECODE_CHECK_MAGIC` is, the model's choice
(notes/assumptions/16.md). -/
def Obligations.ReadReencodes : Prop :=
  ∀ (p : Params) (w : Byte) (bytes : List Byte), bytes.length ≤ 65535 →
    (decode p ⟨some w, bytes⟩).wf p = true ∧
    (bytes = [] → decode p ⟨some w, bytes⟩ = .fsmResult w 0x00 []) ∧
    (bytes ≠ [] → decode p ⟨some w, bytes⟩ = .fsmResult w 0x01 bytes ∧ decodeError false bytes ≠ none ∨
      encode (decode p ⟨some w, bytes⟩) = ⟨some w, bytes⟩ ∧ decodeError false bytes = none)

/-- Rules R86 and R89: a command with an opcode outside the table, or of a length its format does not have, is answered
IllegalCommand and has no other effect; a command of a format of rule R87 is no illegal command. That the row
ILLEGAL_COMMAND stands for wrong lengths too, and that a command of no bytes is one, is the model's reading of rule R86
(notes/assumptions/13.md). -/
def Obligations.IllegalCommandsAreAnswered : Prop :=
  ∀ (s : State) (op : Byte) (args bytes : List Byte),
    ((op = 0x00 ∨ (0x05#8 ≤ op ∧ op ≤ 0x0F#8) ∨ (0x14#8 ≤ op ∧ op ≤ 0x1F#8) ∨ (0x24#8 ≤ op ∧ op ≤ 0x2F#8) ∨
        0x32#8 ≤ op) →
      decode s.params ⟨none, op :: args⟩ = .illegalCommand (op :: args)) ∧
    (legalForm bytes = false → decode s.params ⟨none, bytes⟩ = .illegalCommand bytes) ∧
    (legalForm bytes = true → ∀ b, decode s.params ⟨none, bytes⟩ ≠ .illegalCommand b) ∧
    exec (.illegalCommand bytes) s = .next { s with result := [0x08] }

/-- Every instruction answers: a next state, whose result is a status of rule R221 and its data (rules R86, R220,
R221). No instruction stops the block. That a frame at an exchange port is an instruction, which acts as the answer it
carries, is the model's reading (notes/assumptions/6.md). -/
def Obligations.EveryInstructionAnswers : Prop :=
  ∀ (i : Instr) (s : State), ∃ t st data, exec i s = .next t ∧ t.result = st :: data ∧ st ≤ 0x0C#8

/-- A repeated read: the commands that write nothing answer a result that depends on nothing they change, and leave the
rest of the state as it was (rules R58, R100, R139). -/
def Obligations.ReadingCommandsWriteNothing : Prop :=
  ∀ (i : Instr) (s : State), i.readsOnly = true →
    ∃ r, exec i s = .next { s with result := r } ∧ exec i { s with result := r } = .next { s with result := r }

/-! ### The codec -/

/-- CHECKSUM answers the 16-bit truncation of `1 + (S XOR 0xFFFF)` (rules R103, R104), which is the two's complement of
the sum (rule R105, marked derived in the spec). -/
def Obligations.ChecksumIsNegatedSum : Prop :=
  ∀ (s : State) (data : List Byte),
    exec (.checksum data) s =
      .next { s with result := 0x00 :: twoBytes ((1 + (byteSum data ^^^ 0xFFFF)) % 65536) } ∧
    (1 + (byteSum data ^^^ 0xFFFF)) % 65536 = negSum data ∧
    (data.length ≤ 65535 → decode s.params ⟨none, 0x02 :: twoBytes data.length ++ data⟩ = .checksum data)

/-- Rule R100: ENCODE's frame, and PayloadTooLong. The frame's checksum is CHECKSUM's, as ChecksumIsNegatedSum says it. -/
def Obligations.EncodeBuildsFrame : Prop :=
  ∀ (s : State) (src dst ctrl fn : Byte) (payload : List Byte),
    (payload.length ≤ 255 → exec (.encode src dst ctrl fn payload) s =
      .next { s with result := 0x00 :: twoBytes (11 + payload.length) ++ spelledFrame src dst ctrl fn payload } ∧
      decode s.params ⟨none, [0x01, src, dst, ctrl, fn, BitVec.ofNat 8 payload.length] ++ payload⟩ =
        .encode src dst ctrl fn payload) ∧
    (255 < payload.length → exec (.encode src dst ctrl fn payload) s = .next { s with result := [0x07] })

/-- Rules R108 and R111: DECODE of a buffer that starts with a frame answers that frame's fields, whatever its checksum
and whatever follows it. -/
def Obligations.DecodeAnswersFields : Prop :=
  ∀ (s : State) (f : WireFrame), Decodes s.params f →
    exec (.decode f.bytes) s = .next { s with result := 0x00 :: frameData f }

/-- Rules R107 and R109, with the order of rule R225: DECODE answers the first error that applies, with no data, and
without one the fields of the frame the buffer starts with. -/
def Obligations.DecodeReportsFirstError : Prop :=
  ∀ (s : State) (buf : List Byte),
    (∀ e, decodeError s.params.decodeCheckMagic buf = some e →
      exec (.decode buf) s = .next { s with result := [e] }) ∧
    (decodeError s.params.decodeCheckMagic buf = none → ∃ f, Decodes s.params f ∧ f.bytes = buf ∧
      exec (.decode buf) s = .next { s with result := 0x00 :: frameData f }) ∧
    (buf.length ≤ 65535 → decode s.params ⟨none, 0x03 :: twoBytes buf.length ++ buf⟩ = .decode buf)

/-- Rules R112 and R114: VERIFY answers `ok`, `expected` and `found` under both statuses; a DECODE error ends it with that
status and no data. -/
def Obligations.VerifyReportsBothValues : Prop :=
  ∀ (s : State),
    (∀ f, Decodes s.params f → exec (.verify f.bytes) s = .next { s with
      result := (if sumGood s.params f then [0x00, 0x01] else [0x03, 0x00])
        ++ twoBytes (negSum (covered f)) ++ [f.cksumHi, f.cksumLo] }) ∧
    (∀ buf e, decodeError s.params.decodeCheckMagic buf = some e →
      exec (.verify buf) s = .next { s with result := [e] }) ∧
    (∀ buf : List Byte, buf.length ≤ 65535 →
      decode s.params ⟨none, 0x04 :: twoBytes buf.length ++ buf⟩ = .verify buf)

/-- Rule R115 (marked derived in the spec): the round trip of the codec, for every setting of the parameters that
compares the checksum modulo 2^16, and for the wide comparison when the body's sum is below 2^16. -/
def Obligations.CodecRoundTrip : Prop :=
  ∀ (s : State) (src dst ctrl fn : Byte) (payload : List Byte), payload.length ≤ 255 →
    ∃ frame c1 c0, exec (.encode src dst ctrl fn payload) s =
        .next { s with result := 0x00 :: twoBytes (11 + payload.length) ++ frame } ∧
      exec (.decode frame) s = .next { s with
        result := [0x00, src, dst, ctrl, fn, BitVec.ofNat 8 payload.length] ++ payload
          ++ [c1, c0, 0xA5, 0xA5, 0x01, 0x0A, 0x0D] } ∧
      ((s.params.cksumWideCompare = true → byteSum (frame.take (7 + payload.length)) < 65536) →
        exec (.verify frame) s = .next { s with result := [0x00, 0x01, c1, c0, c1, c0] })

/-- Rule R116 (marked derived in the spec): a change of one byte the checksum covers, other than the length byte, or of
one checksum byte, is always detected; a change of a byte after the checksum never is. With the header and trailer
unchecked. Nothing is said of a change of the length byte (rule R117). -/
def Obligations.SingleByteCorruptionDetected : Prop :=
  ∀ (s : State) (f : WireFrame) (i : Nat) (b : Byte), s.params.decodeCheckMagic = false → f.payload.length ≤ 255 →
    sumGood s.params f = true → (∃ c, f.bytes[i]? = some c ∧ c ≠ b) →
    (i ≤ 8 + f.payload.length → i ≠ 6 →
      ∃ v, exec (.verify (f.bytes.set i b)) s = .next { s with result := [0x03, 0x00] ++ v } ∧ v.length = 4) ∧
    (9 + f.payload.length ≤ i →
      ∃ v, exec (.verify (f.bytes.set i b)) s = .next { s with result := [0x00, 0x01] ++ v } ∧ v.length = 4)

/-! ### The registry -/

/-- Rules R130, R132 and R133 for a family with a table: the family, the direction by its threshold, and the name id of
the table's entry, absent when there is none. LOOKUP's encoding is its two operands. -/
def Obligations.LookupClassifies : Prop :=
  ∀ (s : State) (fn : Byte), s.params.Valid →
    (∀ ctrl, decode s.params ⟨none, [0x10, ctrl, fn]⟩ = .lookup ctrl fn) ∧
    (∃ id, exec (.lookup s.params.ctrlRegister fn) s =
        .next { s with result := [0x00, 0x00, if fn < s.params.tReg then 0x00 else 0x01, id] } ∧
      (∀ n, (fn, n) ∈ nameTable s.params .register → id = n) ∧
      ((∀ n, (fn, n) ∉ nameTable s.params .register) → id = 0x00)) ∧
    (∃ id, exec (.lookup 0x31 fn) s =
        .next { s with result := [0x00, 0x01, if fn < s.params.tRead then 0x00 else 0x01, id] } ∧
      (∀ n, (fn, n) ∈ nameTable s.params .read → id = n) ∧
      ((∀ n, (fn, n) ∉ nameTable s.params .read) → id = 0x00))

/-- Rules R81, R82 and R134: the unsupported marker, never an error. -/
def Obligations.LookupUnsupportedMarker : Prop :=
  ∀ (s : State) (ctrl fn : Byte), s.params.Valid → ctrl ≠ s.params.ctrlRegister → ctrl ≠ 0x31 →
    exec (.lookup ctrl fn) s = .next { s with
      result := [0x00,
        if ctrl = s.params.ctrlWrite then 0x02 else if ctrl = s.params.ctrlExecute then 0x03 else 0xFF,
        0xFF, 0x00] }

/-- Rule R135: FUNCTION_NAME. -/
def Obligations.FunctionNameAnswers : Prop :=
  ∀ (s : State) (family fn dir : Byte), s.params.Valid →
    decode s.params ⟨none, [0x11, family, fn, dir]⟩ = .functionName family fn dir ∧
    (family ∉ [0x00, 0x01, 0x02, 0x03, 0xFF] ∨ dir ∉ [0x00, 0x01] →
      exec (.functionName family fn dir) s = .next { s with result := [0x08] }) ∧
    (family ∈ [0x02, 0x03, 0xFF] → dir ∈ [0x00, 0x01] →
      exec (.functionName family fn dir) s = .next { s with result := [0x00, 0x00] }) ∧
    (∀ F T ctrl, (family = 0x00 ∧ F = Family.register ∧ T = s.params.tReg ∧ ctrl = s.params.ctrlRegister) ∨
        (family = 0x01 ∧ F = Family.read ∧ T = s.params.tRead ∧ ctrl = 0x31) → dir ∈ [0x00, 0x01] →
      ∃ id, exec (.functionName family fn dir) s = .next { s with result := [0x00, id] } ∧
        (dir = (if fn < T then 0x00 else 0x01) →
          exec (.lookup ctrl fn) s = .next { s with result := [0x00, family, dir, id] }) ∧
        (dir ≠ (if fn < T then 0x00 else 0x01) → id = 0x00))

/-- Rule R136: CODE_OF is the reverse of the table. -/
def Obligations.CodeOfReversesTable : Prop :=
  ∀ (s : State) (family id : Byte), s.params.Valid →
    decode s.params ⟨none, [0x12, family, id]⟩ = .codeOf family id ∧
    (family ∉ [0x00, 0x01, 0x02, 0x03, 0xFF] →
      exec (.codeOf family id) s = .next { s with result := [0x08] }) ∧
    (family ∈ [0x02, 0x03, 0xFF] ∨ id = 0x00 ∧ family ∈ [0x00, 0x01] →
      exec (.codeOf family id) s = .next { s with result := [0x00, 0x00, 0x00] }) ∧
    (∀ F, (family = 0x00 ∧ F = Family.register) ∨ (family = 0x01 ∧ F = Family.read) →
      (∀ c, (c, id) ∈ nameTable s.params F → exec (.codeOf family id) s = .next { s with result := [0x00, 0x01, c] }) ∧
      ((∀ c, (c, id) ∉ nameTable s.params F) →
        exec (.codeOf family id) s = .next { s with result := [0x00, 0x00, 0x00] }))

/-- Rule R137: RESPONSE_OF is the fixed table; an id the table does not pair, a response id among them, gives absent. -/
def Obligations.ResponseOfIsFixedTable : Prop :=
  ∀ (s : State) (family id : Byte), s.params.Valid →
    decode s.params ⟨none, [0x13, family, id]⟩ = .responseOf family id ∧
    (family ∉ [0x00, 0x01, 0x02, 0x03, 0xFF] →
      exec (.responseOf family id) s = .next { s with result := [0x08] }) ∧
    (family ∈ [0x02, 0x03, 0xFF] ∨ 0x80#8 ≤ id ∧ family ∈ [0x00, 0x01] →
      exec (.responseOf family id) s = .next { s with result := [0x00, 0x00, 0x00] }) ∧
    (family = 0x00 ∧ id ∉ [0x01, 0x02, 0x03] ∧ (∀ e ∈ s.params.regExtra, e.nameId = id → e.response = none) ∨
      family = 0x01 ∧ id ≠ 0x11 ∧ (∀ e ∈ s.params.readExtra, e.nameId = id → e.response = none) →
      exec (.responseOf family id) s = .next { s with result := [0x00, 0x00, 0x00] }) ∧
    exec (.responseOf 0x00 0x01) s = .next { s with
      result := if s.params.fnReRegisterReply.isSome then [0x00, 0x01, 0x83] else [0x00, 0x00, 0x00] } ∧
    exec (.responseOf 0x00 0x02) s = .next { s with result := [0x00, 0x01, 0x81] } ∧
    exec (.responseOf 0x00 0x03) s = .next { s with result := [0x00, 0x01, 0x82] } ∧
    exec (.responseOf 0x01 0x11) s = .next { s with result := [0x00, 0x01, 0x91] } ∧
    (∀ e ∈ s.params.regExtra, ∀ r, e.response = some r →
      exec (.responseOf 0x00 e.nameId) s = .next { s with result := [0x00, 0x01, r] }) ∧
    (∀ e ∈ s.params.readExtra, ∀ r, e.response = some r →
      exec (.responseOf 0x01 e.nameId) s = .next { s with result := [0x00, 0x01, r] })

/-! ### FSM_GO -/

/-- Rules R172 and R173: the two requests that leave Unregistered. -/
def Obligations.GoSendsFirstRequests : Prop :=
  ∀ (s : State) (w : Byte) (x : Worker), s.workers[w.toNat]? = some x → x.state = .unregistered → x.pend = .none →
    (x.phase = .reRegister → exec (.fsmGo w) s = .next { s with
      workers := s.workers.set w.toNat
        { x with tx := requestFrame s.params s.params.fnReRegister [], pend := .reRegister },
      result := [0x00] }) ∧
    (x.phase = .offlineQuery → exec (.fsmGo w) s = .next { s with
      workers := s.workers.set w.toNat
        { x with tx := requestFrame s.params s.params.fnOfflineQuery [], pend := .offlineQuery },
      result := [0x00] })

/-- Rules R179 and R190: step 3 allocates the address after the largest and sends it. -/
def Obligations.GoAllocatesNextAddress : Prop :=
  ∀ (s : State) (w : Byte) (x : Worker) (m : Nat), s.workers[w.toNat]? = some x → x.state = .awaitingSerial →
    x.pend = .none → x.raw.length ≤ 254 → s.table.wf → IsMaxKey s.table m → m + 1 ≤ 253 →
    ∃ tbl, exec (.fsmGo w) s = .next { s with
        workers := s.workers.set w.toNat
          { x with
            addr := BitVec.ofNat 8 (m + 1), addrValid := true, state := .awaitingAddressConfirm,
            pend := .sendRegisterAddress,
            tx := requestFrame s.params s.params.fnSendRegisterAddress (x.raw ++ [BitVec.ofNat 8 (m + 1)]) },
        table := tbl, result := [0x00] } ∧
      tbl.wf ∧ ∀ a, tbl.read a = if a = m + 1 then .reserved else s.table.read a

/-- Rules R180, R181 and R185: the two failures of step 3 abandon the worker, emit nothing and leave the table alone. -/
def Obligations.GoAbandonsWithoutAddress : Prop :=
  ∀ (s : State) (w : Byte) (x : Worker), s.workers[w.toNat]? = some x → x.state = .awaitingSerial → x.pend = .none →
    (254 < x.raw.length → exec (.fsmGo w) s = .next { s with
      workers := s.workers.set w.toNat
        { failedWith s.params 0x07 [] 3 x with state := .abandoned, phase := .reRegister },
      result := [0x07] }) ∧
    (x.raw.length ≤ 254 → s.table.wf → (∃ m, IsMaxKey s.table m ∧ 253 ≤ m) → exec (.fsmGo w) s = .next { s with
      workers := s.workers.set w.toNat
        { failedWith s.params 0x05 [] 3 x with state := .abandoned, phase := .reRegister },
      result := [0x05] })

/-- Rule R182: the resent frame is byte for byte the one step 3 built, and nothing else but `pend` changes. -/
def Obligations.GoResendsSameFrame : Prop :=
  ∀ (s : State) (w : Byte) (x : Worker), s.workers[w.toNat]? = some x → x.state = .awaitingAddressConfirm →
    x.pend = .none → x.Inv s.params →
    x.tx = requestFrame s.params s.params.fnSendRegisterAddress (x.raw ++ [x.addr]) ∧
    exec (.fsmGo w) s = .next { s with
      workers := s.workers.set w.toNat { x with pend := .sendRegisterAddress }, result := [0x00] }

/-- Rules R171, R187 and R229: FSM_GO's encoding; while an exchange is pending it is Busy, and in a terminal state it does
nothing. -/
def Obligations.GoBusyOrTerminal : Prop :=
  ∀ (s : State) (w : Byte) (x : Worker), s.workers[w.toNat]? = some x →
    decode s.params ⟨none, [0x21, w]⟩ = .fsmGo w ∧
    (x.pend ≠ .none → exec (.fsmGo w) s = .next { s with result := [0x0A] }) ∧
    (x.pend = .none → x.state = .registered ∨ x.state = .abandoned →
      exec (.fsmGo w) s = .next { s with result := [0x00] })

/-! ### FSM_RESULT and the frames of the wire -/

/-- Rule R175: whatever answers ReRegister is ignored. -/
def Obligations.ReRegisterAnswerIgnored : Prop :=
  ∀ (s : State) (w : Byte) (x : Worker), s.workers[w.toNat]? = some x → x.pend = .reRegister →
    ∀ present data, (present = 0x00 ∧ data = []) ∨ present = 0x01 →
      exec (.fsmResult w present data) s = .next { s with
        workers := s.workers.set w.toNat { x with pend := .none, phase := .offlineQuery }, result := [0x00] }

/-- Rules R176 and R200: an OfflineQuery reply that passes every check gives the raw serial, whatever its function code
and its trailer. -/
def Obligations.OfflineQueryAccepted : Prop :=
  ∀ (s : State) (w : Byte) (x : Worker) (f : WireFrame), s.workers[w.toNat]? = some x → x.pend = .offlineQuery →
    Decodes s.params f → mask2 s.params f = 0 →
    exec (.fsmResult w 0x01 f.bytes) s = .next { s with
      workers := s.workers.set w.toNat
        { x with pend := .none, raw := f.payload, phase := .reRegister, state := .awaitingSerial },
      result := [0x00] }

/-- Rules R177, R185 and R189: an OfflineQuery reply that fails a check abandons the worker; every failed check is
recorded. -/
def Obligations.OfflineQueryRejected : Prop :=
  ∀ (s : State) (w : Byte) (x : Worker) (f : WireFrame), s.workers[w.toNat]? = some x → x.pend = .offlineQuery →
    Decodes s.params f → mask2 s.params f ≠ 0 →
    exec (.fsmResult w 0x01 f.bytes) s = .next { s with
      workers := s.workers.set w.toNat (rejected s.params f (mask2 s.params f) 2 x),
      result := [reasonByte (mask2 s.params f)] }

/-- Rules R178 and R186: an exchange without a usable answer is not fatal; step 2 starts over, step 4 stays. -/
def Obligations.NoUsableAnswerIsNotFatal : Prop :=
  ∀ (s : State) (w : Byte) (x : Worker) (present : Byte) (data : List Byte) (e : Byte),
    s.workers[w.toNat]? = some x →
    (data = [] ∧ (present = 0x00 ∨ present = 0x01) ∧ e = 0x06) ∨
      (data ≠ [] ∧ present = 0x01 ∧ decodeError s.params.decodeCheckMagic data = some e) →
    (x.pend = .offlineQuery → exec (.fsmResult w present data) s = .next { s with
      workers := s.workers.set w.toNat
        { failedWith s.params e data 2 x with pend := .none, phase := .reRegister },
      result := [e] }) ∧
    (x.pend = .sendRegisterAddress → exec (.fsmResult w present data) s = .next { s with
      workers := s.workers.set w.toNat { failedWith s.params e data 4 x with pend := .none },
      result := [e] })

/-- Rules R184, R192 and R200: an AddressConfirm that passes every check registers the worker and records its filtered
serial at its address, and nothing else in the table. -/
def Obligations.AddressConfirmAccepted : Prop :=
  ∀ (s : State) (w : Byte) (x : Worker) (f : WireFrame), s.workers[w.toNat]? = some x →
    x.pend = .sendRegisterAddress → Decodes s.params f → mask4 s.params x.addr f = 0 → s.table.wf →
    ∃ tbl, exec (.fsmResult w 0x01 f.bytes) s = .next { s with
        workers := s.workers.set w.toNat
          { x with pend := .none, serialText := filterSerial s.params x.raw, state := .registered },
        table := tbl, result := [0x00] } ∧
      tbl.wf ∧
      ∀ a, tbl.read a = if a = x.addr.toNat then .recorded (filterSerial s.params x.raw) else s.table.read a

/-- Rules R183, R185 and R189: an AddressConfirm that fails a check abandons the worker and leaves the table alone. -/
def Obligations.AddressConfirmRejected : Prop :=
  ∀ (s : State) (w : Byte) (x : Worker) (f : WireFrame), s.workers[w.toNat]? = some x →
    x.pend = .sendRegisterAddress → Decodes s.params f → mask4 s.params x.addr f ≠ 0 →
    exec (.fsmResult w 0x01 f.bytes) s = .next { s with
      workers := s.workers.set w.toNat (rejected s.params f (mask4 s.params x.addr f) 4 x),
      result := [reasonByte (mask4 s.params x.addr f)] }

/-- Rules R88, R151, R174, R197 and R225: the command-level statuses and their order, each with no other effect. -/
def Obligations.CommandStatusesInOrder : Prop :=
  ∀ (s : State) (w present reg : Byte) (data : List Byte),
    (s.nw ≤ w.toNat →
      exec (.fsmReset w) s = .next { s with result := [0x09] } ∧
      exec (.fsmGo w) s = .next { s with result := [0x09] } ∧
      exec (.fsmResult w present data) s = .next { s with result := [0x09] } ∧
      exec (.fsmRead w reg) s = .next { s with result := [0x09] }) ∧
    (w.toNat < s.nw →
      (present ∉ [0x00, 0x01] ∨ (present = 0x00 ∧ data ≠ []) →
        exec (.fsmResult w present data) s = .next { s with result := [0x08] }) ∧
      (0x0A#8 < reg → exec (.fsmRead w reg) s = .next { s with result := [0x08] }) ∧
      ((present = 0x00 ∧ data = []) ∨ present = 0x01 → (s.worker? w).map (·.pend) = some .none →
        exec (.fsmResult w present data) s = .next { s with result := [0x0B] }))

/-- The rows of the opcode table's frames: each is read as its family, direction and name id (rules R78 to R82, R132 to
R134), and taken as FSM_RESULT takes its bytes (rules R151, R174). That a frame at an exchange port is read by the
dispatcher, whatever DECODE says of its header and trailer, is the model's reading of rule R132 (notes/assumptions/6.md,
notes/assumptions/16.md). -/
def Obligations.FramesAreReadAndDelivered : Prop :=
  ∀ (s : State) (w : Byte) (f : WireFrame), s.params.Valid →
    (Instr.wf s.params (.queryNormalInfo w f) = true →
      ReadAndDelivered (.queryNormalInfo w f) s w f ⟨.read, some .request, 0x11⟩) ∧
    (Instr.wf s.params (.queryNormalInfoReply w f) = true →
      ReadAndDelivered (.queryNormalInfoReply w f) s w f ⟨.read, some .response, 0x91⟩) ∧
    (Instr.wf s.params (.reRegister w f) = true →
      ReadAndDelivered (.reRegister w f) s w f ⟨.register, some .request, 0x01⟩) ∧
    (Instr.wf s.params (.offlineQuery w f) = true →
      ReadAndDelivered (.offlineQuery w f) s w f ⟨.register, some .request, 0x02⟩) ∧
    (Instr.wf s.params (.sendRegisterAddress w f) = true →
      ReadAndDelivered (.sendRegisterAddress w f) s w f ⟨.register, some .request, 0x03⟩) ∧
    (Instr.wf s.params (.offlineQueryReply w f) = true →
      ReadAndDelivered (.offlineQueryReply w f) s w f ⟨.register, some .response, 0x81⟩) ∧
    (Instr.wf s.params (.addressConfirm w f) = true →
      ReadAndDelivered (.addressConfirm w f) s w f ⟨.register, some .response, 0x82⟩) ∧
    (Instr.wf s.params (.reRegisterReply w f) = true →
      ReadAndDelivered (.reRegisterReply w f) s w f ⟨.register, some .response, 0x83⟩) ∧
    (Instr.wf s.params (.readFamilyOther w f) = true →
      ReadAndDelivered (.readFamilyOther w f) s w f
        ⟨.read, some (if f.fn < s.params.tRead then .request else .response), extraName s.params.readExtra f.fn⟩) ∧
    (Instr.wf s.params (.registerFamilyOther w f) = true →
      ReadAndDelivered (.registerFamilyOther w f) s w f
        ⟨.register, some (if f.fn < s.params.tReg then .request else .response), extraName s.params.regExtra f.fn⟩) ∧
    (Instr.wf s.params (.writeFamily w f) = true →
      ReadAndDelivered (.writeFamily w f) s w f ⟨.write, none, 0x00⟩) ∧
    (Instr.wf s.params (.executeFamily w f) = true →
      ReadAndDelivered (.executeFamily w f) s w f ⟨.execute, none, 0x00⟩) ∧
    (Instr.wf s.params (.unknownControl w f) = true →
      ReadAndDelivered (.unknownControl w f) s w f ⟨.unknown, none, 0x00⟩)

/-- Rule R175 for every kind of frame: as the answer to ReRegister it is ignored, but for the dispatcher's reading of it
(notes/assumptions/6.md), whatever DECODE says of its header and trailer (notes/assumptions/16.md). -/
def Obligations.AnyFrameAnswersReRegister : Prop :=
  ∀ k ∈ wireKinds, ∀ (s : State) (w : Byte) (x : Worker) (f : WireFrame),
    s.workers[w.toNat]? = some x → x.pend = .reRegister →
    exec (k w f) s = .next { s with
      workers := s.workers.set w.toNat { x with pend := .none, phase := .offlineQuery },
      result := [0x00], reading := some (lookupReading s.params f.ctrl f.fn) }

/-- Rule R200: a Register-family frame of any function code that passes step 2's or step 4's checks is accepted. -/
def Obligations.RegisterFramesAccepted : Prop :=
  ∀ k ∈ registerKinds, ∀ (s : State) (w : Byte) (x : Worker) (f : WireFrame),
    s.workers[w.toNat]? = some x → Decodes s.params f →
    (x.pend = .offlineQuery → mask2 s.params f = 0 → exec (k w f) s = .next { s with
      workers := s.workers.set w.toNat
        { x with pend := .none, raw := f.payload, phase := .reRegister, state := .awaitingSerial },
      result := [0x00], reading := some (lookupReading s.params f.ctrl f.fn) }) ∧
    (x.pend = .sendRegisterAddress → mask4 s.params x.addr f = 0 → s.table.wf →
      ∃ tbl, exec (k w f) s = .next { s with
        workers := s.workers.set w.toNat
          { x with pend := .none, serialText := filterSerial s.params x.raw, state := .registered },
        table := tbl, result := [0x00], reading := some (lookupReading s.params f.ctrl f.fn) } ∧
      tbl.wf ∧
      ∀ a, tbl.read a = if a = x.addr.toNat then .recorded (filterSerial s.params x.raw) else s.table.read a)

/-- Rules R177 and R183: a frame of another family as a handshake reply fails the control-code check, whatever else it
holds, and abandons the worker with ProtocolViolation. -/
def Obligations.OtherFamiliesRejected : Prop :=
  ∀ k ∈ otherKinds, ∀ (s : State) (w : Byte) (x : Worker) (f : WireFrame), s.params.Valid →
    s.workers[w.toNat]? = some x → Decodes s.params f → Instr.wf s.params (k w f) = true →
    (x.pend = .offlineQuery → (mask2 s.params f).getLsbD 2 = true ∧ exec (k w f) s = .next { s with
      workers := s.workers.set w.toNat (rejected s.params f (mask2 s.params f) 2 x),
      result := [0x04], reading := some (lookupReading s.params f.ctrl f.fn) }) ∧
    (x.pend = .sendRegisterAddress → (mask4 s.params x.addr f).getLsbD 2 = true ∧ exec (k w f) s = .next { s with
      workers := s.workers.set w.toNat (rejected s.params f (mask4 s.params x.addr f) 4 x),
      result := [0x04], reading := some (lookupReading s.params f.ctrl f.fn) })

/-- Rules R172, R173, R179: the frames FSM_GO emits are the ReRegister, OfflineQuery and SendRegisterAddress rows of
the table, from the controller to broadcast. That the decoder of an exchange port reads these frames as these rows is
the model's reading (notes/assumptions/6.md). -/
def Obligations.EmittedFramesAreRequests : Prop :=
  ∀ (s t : State) (w v : Byte) (x y : Worker), s.params.Valid → s.workers[w.toNat]? = some x → x.pend = .none →
    x.Inv s.params → exec (.fsmGo w) s = .next t → t.workers[w.toNat]? = some y → y.pend ≠ .none →
    t.offered w = some y.tx ∧
    ∃ f, f.src = 0x01 ∧ f.dst = 0x00 ∧ f.bytes = y.tx ∧
      (y.pend = .reRegister → f.payload = [] ∧ decode s.params ⟨some v, y.tx⟩ = .reRegister v f) ∧
      (y.pend = .offlineQuery → f.payload = [] ∧ decode s.params ⟨some v, y.tx⟩ = .offlineQuery v f) ∧
      (y.pend = .sendRegisterAddress →
        f.payload = x.raw ++ [y.addr] ∧ decode s.params ⟨some v, y.tx⟩ = .sendRegisterAddress v f)

/-- Rules R151, R152, R154 and R155: the answer of an exchange is the first non-empty read of its attempts, as
FSM_RESULT carries it, and none when every attempt read nothing. That the dispatcher reads a whole frame on its way is
the model's reading of rule R132 (notes/assumptions/6.md), whatever DECODE says of its header and trailer
(notes/assumptions/16.md). That a read of no whole frame is an FSM_RESULT, and that a read is carried whole up to
65535 bytes, is the model's reading (notes/assumptions/7.md), and the queue of inputs is the model's own
(notes/assumptions/1.md). -/
def Obligations.ExchangeAnswersFirstRead : Prop :=
  ∀ (s : State) (w : Byte) (before after : List (List Byte)) (rest : List Input),
    (∀ r ∈ before, r = []) →
    (s.inbox = .exchange w before :: rest →
      step s = exec (.fsmResult w 0x00 []) { s with inbox := rest }) ∧
    (∀ r, r ≠ [] → r.length ≤ 65535 → before.length < s.params.maxAttempts →
      s.inbox = .exchange w (before ++ r :: after) :: rest →
      step s = exec (.fsmResult w 0x01 r) { s with
        inbox := rest,
        reading := if decodeError false r = none then some (lookupReading s.params (r.getD 4 0x00) (r.getD 5 0x00))
          else s.reading })

/-! ### Reset, readback, the filter, the table -/

/-- Rule R188: FSM_RESET sets every register of the worker to its reset value and does not touch the table; BadWorker. -/
def Obligations.FsmResetResetsOneWorker : Prop :=
  ∀ (s : State) (w : Byte),
    decode s.params ⟨none, [0x20, w]⟩ = .fsmReset w ∧
    (s.nw ≤ w.toNat → exec (.fsmReset w) s = .next { s with result := [0x09] }) ∧
    (w.toNat < s.nw → exec (.fsmReset w) s = .next { s with
      workers := s.workers.set w.toNat
        { state := .unregistered, phase := .reRegister, pend := .none, tx := [], raw := [], addr := 0x00,
          addrValid := false, diagReason := 0x00, diagMask := 0, diagExpected := 0, diagFound := 0, diagFrame := [],
          diagStep := 0, serialText := [] },
      result := [0x00] })

/-- Rules R34 and R197: the readback map, with BadWorker and IllegalCommand. -/
def Obligations.FsmReadReadback : Prop :=
  ∀ (s : State) (w reg : Byte),
    decode s.params ⟨none, [0x23, w, reg]⟩ = .fsmRead w reg ∧
    (s.nw ≤ w.toNat → exec (.fsmRead w reg) s = .next { s with result := [0x09] }) ∧
    (w.toNat < s.nw → 0x0A#8 < reg → exec (.fsmRead w reg) s = .next { s with result := [0x08] }) ∧
    ∀ x, s.workers[w.toNat]? = some x →
    exec (.fsmRead w 0x00) s = .next { s with
      result := [0x00, BitVec.ofNat 8 (x.state.code.toNat + 8 * x.phase.code.toNat + 16 * x.pend.code.toNat
        + 64 * x.addrValid.toNat)] } ∧
    exec (.fsmRead w 0x01) s = .next { s with result := [0x00, if x.addrValid then x.addr else 0x00] } ∧
    exec (.fsmRead w 0x02) s = .next { s with result := [0x00, x.diagReason] } ∧
    exec (.fsmRead w 0x03) s = .next { s with result := [0x00, BitVec.ofNat 8 x.diagMask.toNat] } ∧
    exec (.fsmRead w 0x04) s = .next { s with result := 0x00 :: twoBytes x.diagExpected.toNat } ∧
    exec (.fsmRead w 0x05) s = .next { s with result := 0x00 :: twoBytes x.diagFound.toNat } ∧
    exec (.fsmRead w 0x06) s = .next { s with result := [0x00, BitVec.ofNat 8 x.diagStep.toNat] } ∧
    exec (.fsmRead w 0x07) s = .next { s with result := 0x00 :: twoBytes x.diagFrame.length ++ x.diagFrame } ∧
    exec (.fsmRead w 0x08) s = .next { s with result := 0x00 :: BitVec.ofNat 8 x.raw.length :: x.raw } ∧
    exec (.fsmRead w 0x09) s = .next { s with result := 0x00 :: BitVec.ofNat 8 x.serialText.length :: x.serialText } ∧
    exec (.fsmRead w 0x0A) s = .next { s with result := 0x00 :: twoBytes x.tx.length ++ x.tx }

/-- Rule R194: TABLE_RESET frees every entry and touches no worker. -/
def Obligations.TableResetFreesEveryEntry : Prop :=
  ∀ (s : State), decode s.params ⟨none, [0x31]⟩ = .tableReset ∧
    ∃ tbl, exec .tableReset s = .next { s with table := tbl, result := [0x00] } ∧
      tbl.wf ∧ ∀ a, tbl.read a = .free

/-- Rule R195: FILTER_SERIAL keeps the bytes of the charset, in order, and trims the white space at the end. -/
def Obligations.FilterSerialTrims : Prop :=
  ∀ (s : State) (data : List Byte),
    (data.length ≤ 255 →
      decode s.params ⟨none, 0x30 :: BitVec.ofNat 8 data.length :: data⟩ = .filterSerial data) ∧
    ∃ text spaces, exec (.filterSerial data) s = .next { s with result := 0x00 :: BitVec.ofNat 8 text.length :: text } ∧
    data.filter (fun b => decide (b ∈ s.params.serialCharset)) = text ++ spaces ∧
    (∀ b ∈ spaces, b ∈ whiteSpace) ∧ (∀ b, text.getLast? = some b → b ∉ whiteSpace)

/-- Rules R67 and R257: two workers that allocate one after the other get distinct, consecutive addresses, in the order
they step. -/
def Obligations.TwoWorkersGetConsecutiveAddresses : Prop :=
  ∀ (s t u : State) (v w : Byte) (x y : Worker) (m : Nat), v ≠ w →
    s.workers[v.toNat]? = some x → s.workers[w.toNat]? = some y →
    x.state = .awaitingSerial → y.state = .awaitingSerial → x.pend = .none → y.pend = .none →
    x.raw.length ≤ 254 → y.raw.length ≤ 254 → s.table.wf → IsMaxKey s.table m → m + 2 ≤ 253 →
    exec (.fsmGo v) s = .next t → exec (.fsmGo w) t = .next u →
    (u.workers[v.toNat]?).map (fun z => (z.addr, z.addrValid)) = some (BitVec.ofNat 8 (m + 1), true) ∧
    (u.workers[w.toNat]?).map (fun z => (z.addr, z.addrValid)) = some (BitVec.ofNat 8 (m + 2), true)

/-- Rule R32 (marked derived in the spec): an entry that is assigned stays assigned but for TABLE_RESET, and in a
session an entry leaves Free only as FSM_GO's allocation, which reserves it. That a frame at an exchange port is an
instruction, which acts as the answer it carries, is the model's reading (notes/assumptions/6.md). -/
def Obligations.TableEntriesStayAssigned : Prop :=
  ∀ (i : Instr) (s t : State), exec i s = .next t → s.table.wf →
    (i ≠ .tableReset → ∀ a, s.table.read a ≠ .free → t.table.read a ≠ .free) ∧
    (s.Session → ∀ a, s.table.read a = .free → t.table.read a ≠ .free →
      ∃ w, i = .fsmGo w ∧ t.table.read a = .reserved)

/-- Rule R252: the block reset is FSM_RESET of every worker followed by TABLE_RESET, for as many workers as `w` can
name. That the reset leaves the waiting inputs is the model's choice (notes/assumptions/12.md). -/
def Obligations.BlockResetIsEveryReset : Prop :=
  ∀ (s : State), s.nw ≤ 256 →
    ∃ t, runInstrs ((List.range s.nw).map (fun w => Instr.fsmReset (BitVec.ofNat 8 w)) ++ [.tableReset]) s = .next t ∧
      s.blockReset.workers = t.workers ∧ s.blockReset.table = t.table ∧
      s.blockReset.params = t.params ∧ s.blockReset.inbox = t.inbox

/-- Rules R37, R250 and R251: after reset every worker's registers read as the table of rule R251 says, whatever the
parameters, and ALL_ABANDONED is false. -/
def Obligations.ResetValues : Prop :=
  ∀ (p : Params) (nw : Nat) (w : Byte), w.toNat < nw →
    let s := State.resetWith p nw
    exec (.fsmRead w 0x00) s = .next { s with result := [0x00, 0x00] } ∧
    exec (.fsmRead w 0x01) s = .next { s with result := [0x00, 0x00] } ∧
    exec (.fsmRead w 0x02) s = .next { s with result := [0x00, 0x00] } ∧
    exec (.fsmRead w 0x03) s = .next { s with result := [0x00, 0x00] } ∧
    exec (.fsmRead w 0x04) s = .next { s with result := [0x00, 0x00, 0x00] } ∧
    exec (.fsmRead w 0x05) s = .next { s with result := [0x00, 0x00, 0x00] } ∧
    exec (.fsmRead w 0x06) s = .next { s with result := [0x00, 0x00] } ∧
    exec (.fsmRead w 0x07) s = .next { s with result := [0x00, 0x00, 0x00] } ∧
    exec (.fsmRead w 0x08) s = .next { s with result := [0x00, 0x00] } ∧
    exec (.fsmRead w 0x09) s = .next { s with result := [0x00, 0x00] } ∧
    exec (.fsmRead w 0x0A) s = .next { s with result := [0x00, 0x00, 0x00] } ∧
    (∀ a, s.table.read a = .free) ∧ s.allAbandoned = false

/-! ### The whole machine -/

/-- Rules R20, R36 and R256: no step changes the parameters or the number of workers, and the parameters act as an
argument of the whole run: a run from a state is, step for step, the run of the machine under that state's parameters.
That State holds them as well is the model's choice (notes/assumptions/2.md). -/
def Obligations.ParametersNeverChange : Prop :=
  (∀ (s t : State), step s = .next t → t.params = s.params ∧ t.nw = s.nw) ∧
  ∀ (k nw : Nat) (s t : State), Sys2Proof.core.run k s = .next t →
    (machineUnder s.params nw).run k s.block = .next t.block ∧ t = t.block.under s.params ∧ t.nw = s.nw

/-- Rule R61: an instruction for one worker leaves every other worker's registers as they were, and one that is for no
worker leaves all of them. That a frame at an exchange port is an instruction, which acts as the answer it carries, is
the model's reading (notes/assumptions/6.md). -/
def Obligations.OtherWorkersUntouched : Prop :=
  ∀ (i : Instr) (s t : State) (n : Nat), exec i s = .next t → (∀ w, i.worker? = some w → w.toNat ≠ n) →
    t.workers[n]? = s.workers[n]?

/-- Rules R61 and R62: what an instruction for worker `w` does to that worker, to the table and to its result depends
on that worker's registers, the table and the parameters alone; no other worker's registers are read. That a frame at
an exchange port is an instruction, which acts as the answer it carries, is the model's reading
(notes/assumptions/6.md). -/
def Obligations.OtherWorkersUnread : Prop :=
  ∀ (i : Instr) (s s' : State) (w : Byte), i.worker? = some w → s.params = s'.params → s.table = s'.table →
    s.workers[w.toNat]? = s'.workers[w.toNat]? →
    ∃ t t', exec i s = .next t ∧ exec i s' = .next t' ∧ t.workers[w.toNat]? = t'.workers[w.toNat]? ∧
      t.table = t'.table ∧ t.result = t'.result

/-- Rules R187 and R229: a worker in a terminal state with nothing pending keeps every register until FSM_RESET. That
a frame at an exchange port is an instruction, which acts as the answer it carries, is the model's reading
(notes/assumptions/6.md). -/
def Obligations.TerminalUntilReset : Prop :=
  ∀ (i : Instr) (s t : State) (w : Byte) (x : Worker), exec i s = .next t → s.workers[w.toNat]? = some x →
    x.RunOver → i ≠ .fsmReset w → t.workers[w.toNat]? = some x

/-- Rules R24, R25 and R258: an exchange starts only at FSM_GO and ends only at its answer or FSM_RESET, and while it
is pending its frame does not change. That a frame at an exchange port is an instruction, which acts as the answer it
carries, is the model's reading (notes/assumptions/6.md). -/
def Obligations.PendingExchangeIsStable : Prop :=
  ∀ (i : Instr) (s t : State) (w : Byte) (x y : Worker), exec i s = .next t →
    s.workers[w.toNat]? = some x → t.workers[w.toNat]? = some y →
    (x.pend = .none → y.pend ≠ .none → i = .fsmGo w) ∧
    (x.pend ≠ .none → y.pend = .none →
      i = .fsmReset w ∨ (∃ present data, i = .fsmResult w present data) ∨ ∃ k ∈ wireKinds, ∃ f, i = k w f) ∧
    (x.pend ≠ .none → y.pend ≠ .none → y = x) ∧
    (x.pend ≠ .none → i ≠ .fsmReset w → y.tx = x.tx)

/-- Rule R185: the diagnostic registers keep the most recent failure; a success does not clear them, only FSM_RESET
does. That a frame at an exchange port is an instruction, which acts as the answer it carries, is the model's reading
(notes/assumptions/6.md). -/
def Obligations.DiagnosticsKept : Prop :=
  ∀ (i : Instr) (s t : State) (w : Byte) (x y : Worker), exec i s = .next t →
    s.workers[w.toNat]? = some x → t.workers[w.toNat]? = some y → i ≠ .fsmReset w →
    (t.result.head? = some 0x00 → diagnostics y = diagnostics x) ∧
    (diagnostics y ≠ diagnostics x → t.result.head? = some y.diagReason)

/-- Rule R228 (marked derived in the spec): a command-level status changes nothing, and a failing FSM_GO or FSM_RESULT
writes no table entry. That a frame at an exchange port is an instruction, which acts as the answer it carries, is the
model's reading (notes/assumptions/6.md). -/
def Obligations.FailuresArePrecise : Prop :=
  ∀ (i : Instr) (s t : State) (st : Byte), exec i s = .next t → t.result.head? = some st →
    (st ∈ [0x08, 0x09, 0x0A, 0x0B] → t.workers = s.workers ∧ t.table = s.table) ∧
    (st ≠ 0x00 → t.table = s.table)

/-- Rule R236: ALL_ABANDONED. -/
def Obligations.AllAbandonedSignal : Prop :=
  ∀ (s : State), s.allAbandoned = true ↔ ∀ n, n < s.nw → (s.workers[n]?).map (·.state) = some .abandoned

/-- Rule R198 (marked derived in the spec): a worker fresh from reset whose exchanges receive valid answers is Registered
at the largest key's successor, with its filtered serial in the table, whatever answers ReRegister. -/
def Obligations.ValidHandshakeRegisters : Prop :=
  ∀ (s : State) (w : Byte) (m : Nat) (r1 : List Byte) (f2 f4 : WireFrame),
    s.workers[w.toNat]? = some Worker.reset → s.table.wf → IsMaxKey s.table m → m + 1 ≤ 253 →
    Decodes s.params f2 → mask2 s.params f2 = 0 → f2.payload.length ≤ 254 →
    Decodes s.params f4 → mask4 s.params (BitVec.ofNat 8 (m + 1)) f4 = 0 →
    ∃ t x, runInstrs [.fsmGo w, .fsmResult w 0x01 r1, .fsmGo w, .fsmResult w 0x01 f2.bytes, .fsmGo w,
        .fsmResult w 0x01 f4.bytes] s = .next t ∧
      t.workers[w.toNat]? = some x ∧ x.state = .registered ∧ x.RunOver ∧ x.addr = BitVec.ofNat 8 (m + 1) ∧
      x.addrValid = true ∧ x.raw = f2.payload ∧ x.serialText = filterSerial s.params f2.payload ∧
      (∀ a, t.table.read a = if a = m + 1 then .recorded (filterSerial s.params f2.payload) else s.table.read a) ∧
      ∀ n, n ≠ w.toNat → t.workers[n]? = s.workers[n]?

/-- Rules R250, R253 and R255: the reset state, under any admissible parameters and any number of workers, is a clean
launch; so is the state the block reset leaves when no agent holds an answer in the rest of the queue; and every clean
launch meets the invariant and starts a session. What it is for a channel agent to hold an answer is the model's reading
of rule R253 (notes/assumptions/14.md), and that the block reset leaves the waiting inputs is the model's choice
(notes/assumptions/12.md). -/
def Obligations.ResetStartsSession : Prop :=
  (∀ (p : Params) (nw : Nat), p.Valid → 0 < nw →
    (State.resetWith p nw).Session ∧ (State.resetWith p nw).CleanLaunch) ∧
  (∀ (s : State) (rest : List Input), s.inbox = .blockReset :: rest → answersHeld s.params [] rest = [] →
    ∃ t, step s = .next t ∧ t.inbox = rest ∧ t.CleanLaunch) ∧
  ∀ (s : State), s.params.Valid → 0 < s.nw → s.CleanLaunch → s.Session

/-- The invariant of the machine (rules R22 to R32): every step keeps it, whatever the outside world does. That a
frame at an exchange port is an instruction, which acts as the answer it carries, is the model's reading
(notes/assumptions/6.md). -/
def Obligations.StepKeepsInvariant : Prop :=
  ∀ (s t : State), s.Inv → step s = .next t → t.Inv

/-- The invariant of a session (rules R32, R190, R193, R257): the table's keys are `{2..k}`, every address a worker
holds is its own and is in the table, Reserved until confirmed and then Recorded. Every step keeps it but for the
hazard of rule R260, a TABLE_RESET while a worker holds an address. That a frame at an exchange port is an
instruction, which acts as the answer it carries, is the model's reading (notes/assumptions/6.md). -/
def Obligations.StepKeepsSession : Prop :=
  ∀ (s t : State), s.Session → ¬ s.TableResetHazard → step s = .next t → t.Session

/-! ### The time of an exchange -/

/-- Rules R160, R233 and R266: an exchange takes at most `max_attempts × settle_delay`; the handshake has no deadline, since
after any number of rounds without a usable answer a worker stands where it stood, ready to send again, and the table is
as it was; and the block counts no time, so what a step does is the same whatever the settle delay. That an attempt takes
one settle delay is the model's reading of rule R152 (notes/assumptions/15.md). -/
def Obligations.HandshakeHasNoDeadline : Prop :=
  (∀ (p : Params) (reads : List (List Byte)), exchangeTime p reads ≤ p.maxAttempts * p.settleDelay) ∧
  (∀ (s : State) (w : Byte) (x : Worker) (first : List Byte) (answers : List (List Byte)),
    s.workers[w.toNat]? = some x → x.pend = .none → x.Inv s.params →
    (∀ a ∈ answers, a ≠ [] → decodeError s.params.decodeCheckMagic a ≠ none) →
    (x.state = .unregistered → x.phase = .reRegister →
      ∃ t y, runInstrs (answers.flatMap fun a =>
          [.fsmGo w, .fsmResult w 0x01 first, .fsmGo w, .fsmResult w 0x01 a]) s = .next t ∧
        t.workers = s.workers.set w.toNat y ∧ t.table = s.table ∧ startedOver x y) ∧
    (x.state = .awaitingAddressConfirm →
      ∃ t y, runInstrs (answers.flatMap fun a => [.fsmGo w, .fsmResult w 0x01 a]) s = .next t ∧
        t.workers = s.workers.set w.toNat y ∧ t.table = s.table ∧ startedOver x y ∧ y.tx = x.tx)) ∧
  ∀ (s t : State) (delay : Nat), step s = .next t →
    step { s with params := { s.params with settleDelay := delay } } =
      .next { t with params := { t.params with settleDelay := delay } }
end

