-- ==== Sys2Proof/Laws/Word.lean ====
section
/-! SUPPORT. Byte order: the two halves of a 16-bit value, and lengths as fields. -/

namespace Sys2Proof.Machine

theorem be16_hi8_lo8 (v : Half) : be16 (hi8 v) (lo8 v) = v := by
  simp only [be16, hi8, lo8]; ext i; simp; grind

theorem be16_toNat (a b : Byte) : (be16 a b).toNat = a.toNat * 256 + b.toNat := by
  have := b.isLt
  rw [be16, BitVec.toNat_append, Nat.shiftLeft_eq]
  rw [show a.toNat * 2 ^ 8 = 2 ^ 8 * a.toNat from Nat.mul_comm _ _, ← Nat.two_pow_add_eq_or_of_lt this]
  omega

theorem hi8_eq (v : Half) : hi8 v = BitVec.ofNat 8 (v.toNat / 256) := by
  apply BitVec.eq_of_toNat_eq
  simp [hi8, BitVec.extractLsb', Nat.shiftRight_eq_div_pow]

theorem lo8_eq (v : Half) : lo8 v = BitVec.ofNat 8 v.toNat := by
  apply BitVec.eq_of_toNat_eq
  simp [lo8, BitVec.extractLsb']

theorem hi8_be16 (a b : Byte) : hi8 (be16 a b) = a := by
  apply BitVec.eq_of_toNat_eq
  have := a.isLt; have := b.isLt
  rw [hi8_eq, be16_toNat, BitVec.toNat_ofNat]; omega

theorem lo8_be16 (a b : Byte) : lo8 (be16 a b) = b := by
  apply BitVec.eq_of_toNat_eq
  have := a.isLt; have := b.isLt
  rw [lo8_eq, be16_toNat, BitVec.toNat_ofNat]; omega

theorem be16Bytes_be16 (a b : Byte) : be16Bytes (be16 a b) = [a, b] := by
  simp [be16Bytes, hi8_be16, lo8_be16]

@[simp] theorem be16Bytes_length (v : Half) : (be16Bytes v).length = 2 := rfl

@[simp] theorem be16Length_length (n : Nat) : (be16Length n).length = 2 := rfl

/-- A length that fits is read back from its field. -/
theorem be16_of_length {n : Nat} (h : n ≤ 65535) :
    (be16 (hi8 (BitVec.ofNat 16 n)) (lo8 (BitVec.ofNat 16 n))).toNat = n := by
  rw [be16_hi8_lo8, BitVec.toNat_ofNat]; omega

theorem be16Length_of_be16 {n : Nat} {hi lo : Byte} (h : n = (be16 hi lo).toNat) : be16Length n = [hi, lo] := by
  rw [be16Length, h, BitVec.ofNat_toNat, BitVec.setWidth_eq, be16Bytes_be16]

theorem length8_toNat {n : Nat} (h : n ≤ 255) : (length8 n).toNat = n := by
  rw [length8, BitVec.toNat_ofNat]; omega

theorem length8_of_toNat {n : Nat} {b : Byte} (h : n = b.toNat) : length8 n = b := by
  rw [length8, h, BitVec.ofNat_toNat, BitVec.setWidth_eq]

end Sys2Proof.Machine
end

