-- ==== Sys2Proof/Laws/Codec.lean ====
section
/-! SUPPORT. The codec: the checksum as a two's complement, what DECODE and VERIFY do with a frame, and what they refuse. -/

namespace Sys2Proof.Machine

/-! ### The checksum -/

theorem byteSum_nil : byteSum [] = 0 := rfl

theorem byteSum_cons (b : Byte) (l : List Byte) : byteSum (b :: l) = b.toNat + byteSum l := by simp [byteSum]

theorem byteSum_append (l m : List Byte) : byteSum (l ++ m) = byteSum l + byteSum m := by simp [byteSum]

theorem xor_0xFFFF_of_lt {n : Nat} (h : n < 65536) : n ^^^ 0xFFFF = 65535 - n := by
  have hx := congrArg BitVec.toNat (BitVec.xor_allOnes (x := BitVec.ofNat 16 n))
  rw [BitVec.toNat_xor, BitVec.toNat_not, BitVec.toNat_ofNat, BitVec.toNat_allOnes,
    Nat.mod_eq_of_lt (by simpa using h)] at hx
  exact hx

/-- Rule R105, said of the unmasked value. -/
theorem wideChecksum_mod (l : List Byte) : wideChecksum l % 65536 = (65536 - byteSum l % 65536) % 65536 := by
  have h : byteSum l % 65536 < 65536 := Nat.mod_lt _ (by decide)
  have hx : (byteSum l ^^^ 0xFFFF) % 65536 = 65535 - byteSum l % 65536 := by
    have := Nat.xor_mod_two_pow (a := byteSum l) (b := 0xFFFF) (n := 16)
    norm_num at this
    rw [this, xor_0xFFFF_of_lt h]
  unfold wideChecksum
  omega

theorem checksumOf_toNat (l : List Byte) : (checksumOf l).toNat = (65536 - byteSum l % 65536) % 65536 := by
  rw [checksumOf, BitVec.toNat_ofNat]
  exact wideChecksum_mod l

/-- The unmasked value is below 2^16 exactly when the sum is positive and below 2^16. -/
theorem wideChecksum_of_lt {l : List Byte} (h : byteSum l < 65536) : wideChecksum l = 65536 - byteSum l := by
  rw [wideChecksum, xor_0xFFFF_of_lt h]; omega

theorem le_wideChecksum_of_ge {l : List Byte} (h : 65536 ≤ byteSum l) : 65536 ≤ wideChecksum l := by
  have hx : (byteSum l ^^^ 0xFFFF) / 65536 = byteSum l / 65536 := by
    have := Nat.xor_div_two_pow (a := byteSum l) (b := 0xFFFF) (n := 16)
    norm_num at this
    exact this
  unfold wideChecksum
  omega

/-! ### A frame's bytes -/

theorem wireFrame_length (f : WireFrame) : f.bytes.length = 9 + f.payload.length + f.tail.length := by
  simp [WireFrame.bytes]; omega

section
variable (f : WireFrame)

@[simp] theorem byteAt_0 : byteAt f.bytes 0 = f.hdr0 := rfl
@[simp] theorem byteAt_1 : byteAt f.bytes 1 = f.hdr1 := rfl
@[simp] theorem byteAt_2 : byteAt f.bytes 2 = f.src := rfl
@[simp] theorem byteAt_3 : byteAt f.bytes 3 = f.dst := rfl
@[simp] theorem byteAt_4 : byteAt f.bytes 4 = f.ctrl := rfl
@[simp] theorem byteAt_5 : byteAt f.bytes 5 = f.fn := rfl
@[simp] theorem byteAt_6 : byteAt f.bytes 6 = length8 f.payload.length := rfl

/-- The bytes from the checksum field on. -/
theorem byteAt_after (i : Nat) :
    byteAt f.bytes (7 + f.payload.length + i) = byteAt (f.cksumHi :: f.cksumLo :: f.tail) i := by
  have h : f.bytes = ([f.hdr0, f.hdr1, f.src, f.dst, f.ctrl, f.fn, length8 f.payload.length] ++ f.payload)
      ++ (f.cksumHi :: f.cksumLo :: f.tail) := by simp [WireFrame.bytes]
  have hl : ([f.hdr0, f.hdr1, f.src, f.dst, f.ctrl, f.fn, length8 f.payload.length] ++ f.payload).length
      = 7 + f.payload.length := by simp; omega
  rw [byteAt, byteAt, h, List.getD_append_right _ _ _ _ (by omega), hl]
  congr 1; omega

theorem byteAt_cksumHi : byteAt f.bytes (7 + f.payload.length) = f.cksumHi := byteAt_after f 0
theorem byteAt_cksumLo : byteAt f.bytes (8 + f.payload.length) = f.cksumLo := by
  have := byteAt_after f 1; rwa [show 7 + f.payload.length + 1 = 8 + f.payload.length by omega] at this
theorem byteAt_trl0 : byteAt f.bytes (9 + f.payload.length) = byteAt f.tail 0 := by
  have := byteAt_after f 2; rwa [show 7 + f.payload.length + 2 = 9 + f.payload.length by omega] at this
theorem byteAt_trl1 : byteAt f.bytes (10 + f.payload.length) = byteAt f.tail 1 := by
  have := byteAt_after f 3; rwa [show 7 + f.payload.length + 3 = 10 + f.payload.length by omega] at this

theorem drop_take_payload : (f.bytes.drop 7).take f.payload.length = f.payload := by
  simp [WireFrame.bytes]

theorem take_body : f.bytes.take (7 + f.payload.length)
    = [f.hdr0, f.hdr1, f.src, f.dst, f.ctrl, f.fn, length8 f.payload.length] ++ f.payload := by
  have h : f.bytes = ([f.hdr0, f.hdr1, f.src, f.dst, f.ctrl, f.fn, length8 f.payload.length] ++ f.payload)
      ++ (f.cksumHi :: f.cksumLo :: f.tail) := by simp [WireFrame.bytes]
  rw [h, List.take_append_of_le_length (by simp; omega), List.take_of_length_le (by simp; omega)]

end

/-- What DECODE reads from a frame's bytes, in the frame's own fields. -/
theorem frameOf_bytes {f : WireFrame} (h : f.payload.length ≤ 255) : frameOf f.bytes =
    { hdr0 := f.hdr0, hdr1 := f.hdr1, src := f.src, dst := f.dst, ctrl := f.ctrl, fn := f.fn,
      n := length8 f.payload.length, payload := f.payload, found := be16 f.cksumHi f.cksumLo,
      trailerPresent := decide (2 ≤ f.tail.length),
      trl0 := if 2 ≤ f.tail.length then byteAt f.tail 0 else 0x00,
      trl1 := if 2 ≤ f.tail.length then byteAt f.tail 1 else 0x00,
      body := f.bytes.take (7 + f.payload.length) } := by
  have hl : 11 + f.payload.length ≤ f.bytes.length ↔ 2 ≤ f.tail.length := by rw [wireFrame_length]; omega
  simp only [frameOf, byteAt_0, byteAt_1, byteAt_2, byteAt_3, byteAt_4, byteAt_5, byteAt_6, length8_toNat h,
    drop_take_payload, byteAt_cksumHi, byteAt_cksumLo, byteAt_trl0, byteAt_trl1, hl]
  simp

/-- DECODE of a frame's bytes, with the header and trailer checks as `magic` says. -/
theorem decodeFrame_bytes {f : WireFrame} (h : f.payload.length ≤ 255) {magic : Bool}
    (hm : magic = true → f.hdr0 = HDR0 ∧ f.hdr1 = HDR1 ∧ f.tail.take 2 = [TRL0, TRL1]) :
    decodeFrame magic f.bytes = .ok (frameOf f.bytes) := by
  have hl := wireFrame_length f
  unfold decodeFrame
  simp only [byteAt_0, byteAt_1, byteAt_6, length8_toNat h, byteAt_trl0, byteAt_trl1]
  cases magic with
  | false =>
    simp only [Bool.false_eq_true, false_and, if_false]
    rw [if_neg (by omega), if_neg (by omega), if_neg (by omega)]
  | true =>
    obtain ⟨h0, h1, ht⟩ := hm rfl
    match hf : f.tail with
    | [] => simp [hf] at ht
    | [a] => simp [hf] at ht
    | a :: b :: l =>
      simp only [hf, List.take_succ_cons, List.take_zero, List.cons.injEq, and_true] at ht
      obtain ⟨rfl, rfl⟩ := ht
      simp only [h0, h1, byteAt, ne_eq, not_true_eq_false, or_self, and_false, if_false, true_and,
        List.getD_cons_zero, List.getD_cons_succ]
      rw [hf] at hl
      simp only [List.length_cons] at hl
      rw [if_neg (by omega), if_neg (by omega), if_neg (by omega), if_neg (by omega)]

/-- A buffer that holds a payload and its checksum bytes is a frame's bytes. -/
theorem exists_wireFrame {buf : List Byte} (h7 : 7 ≤ buf.length)
    (h9 : 9 + (byteAt buf 6).toNat ≤ buf.length) :
    ∃ f : WireFrame, f.bytes = buf ∧ f.payload.length ≤ 255 ∧ f.payload.length = (byteAt buf 6).toNat := by
  match buf, h7 with
  | h0 :: h1 :: s :: d :: c :: fn :: n :: rest, _ =>
    have hn : (byteAt (h0 :: h1 :: s :: d :: c :: fn :: n :: rest) 6).toNat = n.toNat := rfl
    rw [hn] at h9 ⊢
    simp only [List.length_cons] at h9
    have hlt := n.isLt
    match hd : rest.drop n.toNat with
    | [] => have := congrArg List.length hd; simp at this; omega
    | [_] => have := congrArg List.length hd; simp at this; omega
    | c1 :: c0 :: tail =>
      have hp : (rest.take n.toNat).length = n.toNat := by simp; omega
      refine ⟨⟨h0, h1, s, d, c, fn, rest.take n.toNat, c1, c0, tail⟩, ?_, by rw [hp]; omega, hp⟩
      have hr : rest = rest.take n.toNat ++ c1 :: c0 :: tail := by rw [← hd, List.take_append_drop]
      simp only [WireFrame.bytes, hp, length8, BitVec.ofNat_toNat, BitVec.setWidth_eq]
      conv_rhs => rw [hr]
      simp

/-- DECODE succeeds exactly on the bytes of a frame that passes the checks in force. -/
theorem decodeFrame_ok_iff {magic : Bool} {buf : List Byte} {g : Frame} :
    decodeFrame magic buf = .ok g ↔
      ∃ f : WireFrame, f.bytes = buf ∧ f.payload.length ≤ 255 ∧
        (magic = true → f.hdr0 = HDR0 ∧ f.hdr1 = HDR1 ∧ f.tail.take 2 = [TRL0, TRL1]) ∧ g = frameOf buf := by
  constructor
  · intro h
    have hg := h
    unfold decodeFrame at h
    simp only at h
    split at h
    · cases h
    · next h7 =>
      split at h
      · cases h
      · next hh =>
        split at h
        · cases h
        · split at h
          · cases h
          · next h9 =>
            split at h
            · cases h
            · next h11 =>
              split at h
              · cases h
              · next ht =>
                obtain ⟨f, hf, hp, hpn⟩ := exists_wireFrame (by omega : 7 ≤ buf.length) (by omega)
                refine ⟨f, hf, hp, ?_, by injection h with h; exact h.symm⟩
                rintro rfl
                subst hf
                have hl := wireFrame_length f
                rw [← hpn] at h11 ht
                simp only [byteAt_0, byteAt_1, byteAt_trl0, byteAt_trl1] at hh ht
                simp only [true_and, not_or, not_not] at hh ht h11
                refine ⟨hh.1, hh.2, ?_⟩
                match hf : f.tail with
                | [] => simp [hf] at hl; omega
                | [_] => simp [hf] at hl; omega
                | a :: b :: l => simp [hf, byteAt] at ht; simp [ht]
  · rintro ⟨f, rfl, hp, hm, rfl⟩
    exact decodeFrame_bytes hp hm

/-- The statuses DECODE raises (rule R107). -/
theorem decodeFrame_error {magic : Bool} {buf : List Byte} {e : Status} (h : decodeFrame magic buf = .error e) :
    e = .malformedHeader ∨ e = .truncatedPayload ∨ e = .malformedTrailer := by
  unfold decodeFrame at h
  simp only at h
  split at h
  · injection h with h; simp [← h]
  · split at h
    · injection h with h; simp [← h]
    · split at h
      · injection h with h; simp [← h]
      · split at h
        · injection h with h; simp [← h]
        · split at h
          · injection h with h; simp [← h]
          · split at h
            · injection h with h; simp [← h]
            · cases h

/-- Everything ENCODE can do (rule R100). -/
theorem encodeFrame_cases (src dst ctrl fn : Byte) (payload : List Byte) :
    (255 < payload.length ∧ encodeFrame src dst ctrl fn payload = .error .payloadTooLong) ∨
    (payload.length ≤ 255 ∧ encodeFrame src dst ctrl fn payload =
      .ok (frameBody src dst ctrl fn payload ++ be16Bytes (checksumOf (frameBody src dst ctrl fn payload))
        ++ [TRL0, TRL1])) := by
  unfold encodeFrame N_MAX
  split
  · left; exact ⟨by omega, rfl⟩
  · right; exact ⟨by omega, rfl⟩

/-- The frame ENCODE builds, as a frame of the wire. -/
def encodedFrame (src dst ctrl fn : Byte) (payload : List Byte) : WireFrame :=
  ⟨HDR0, HDR1, src, dst, ctrl, fn, payload, hi8 (checksumOf (frameBody src dst ctrl fn payload)),
    lo8 (checksumOf (frameBody src dst ctrl fn payload)), [TRL0, TRL1]⟩

theorem encodeFrame_eq_bytes {src dst ctrl fn : Byte} {payload : List Byte} (h : payload.length ≤ 255) :
    encodeFrame src dst ctrl fn payload = .ok (encodedFrame src dst ctrl fn payload).bytes := by
  rcases encodeFrame_cases src dst ctrl fn payload with ⟨h', -⟩ | ⟨-, he⟩
  · omega
  · rw [he]; simp [encodedFrame, WireFrame.bytes, frameBody, be16Bytes]

theorem encodeFrame_length {src dst ctrl fn : Byte} {payload tx : List Byte}
    (h : encodeFrame src dst ctrl fn payload = .ok tx) : tx.length = 11 + payload.length := by
  rcases encodeFrame_cases src dst ctrl fn payload with ⟨-, he⟩ | ⟨-, he⟩
  · rw [he] at h; cases h
  · rw [he] at h; injection h with h; subst h; simp [frameBody]; omega

end Sys2Proof.Machine
end

