-- ==== Sys2Proof/Laws/Decode.lean ====
section
/-! SUPPORT. The decoder: each format read back from its own bytes, and the frame a read starts with. -/

namespace Sys2Proof

open Machine

/-! ### The wire -/

theorem parseFrame_bytes {f : WireFrame} (h : f.payload.length ≤ 255) : parseFrame f.bytes = some f := by
  have hd : (f.payload ++ f.cksumHi :: f.cksumLo :: f.tail).drop f.payload.length
      = f.cksumHi :: f.cksumLo :: f.tail := by simp
  have ht : (f.payload ++ f.cksumHi :: f.cksumLo :: f.tail).take f.payload.length = f.payload := by simp
  have hb : f.bytes = f.hdr0 :: f.hdr1 :: f.src :: f.dst :: f.ctrl :: f.fn :: length8 f.payload.length ::
      (f.payload ++ f.cksumHi :: f.cksumLo :: f.tail) := by simp [WireFrame.bytes]
  rw [hb]
  simp only [parseFrame, length8_toNat h, hd, ht]

theorem bytes_of_parseFrame {buf : List Byte} {f : WireFrame} (h : parseFrame buf = some f) :
    f.bytes = buf ∧ f.payload.length ≤ 255 := by
  unfold parseFrame at h
  split at h
  · next h0 h1 s d c fn n rest =>
    split at h
    · next c1 c0 tail hd =>
      injection h with h
      subst h
      have hle : n.toNat ≤ rest.length := by
        have := congrArg List.length hd; simp at this; omega
      have hl : (rest.take n.toNat).length = n.toNat := by simp [hle]
      have hlt := n.isLt
      refine ⟨?_, by rw [hl]; omega⟩
      have hr : rest = rest.take n.toNat ++ c1 :: c0 :: tail := by rw [← hd, List.take_append_drop]
      simp only [WireFrame.bytes, hl, length8, BitVec.ofNat_toNat, BitVec.setWidth_eq]
      conv_rhs => rw [hr]
      simp
    · cases h
  · cases h

/-- A frame's row of the table is an instruction whose bytes are the frame's, at the port it arrived at. -/
theorem encode_frameInstr (p : Params) (w : Byte) (f : WireFrame) : encode (frameInstr p w f) = ⟨some w, f.bytes⟩ := by
  unfold frameInstr
  split
  · repeat' split
    all_goals rfl
  · repeat' split
    all_goals rfl
  all_goals rfl

theorem frameInstr_wf {p : Params} {w : Byte} {f : WireFrame} (h : f.wf = true) : (frameInstr p w f).wf p = true := by
  unfold frameInstr
  split
  · next hF =>
    repeat' split
    all_goals simp_all [Instr.wf, WireFrame.inFamily, namedRegister, Params.regNamed]
  · next hF =>
    repeat' split
    all_goals simp_all [Instr.wf, WireFrame.inFamily, namedRead, Params.readNamed]
  all_goals simp_all [Instr.wf, WireFrame.inFamily]

theorem bytes_ne_nil (f : WireFrame) : f.bytes ≠ [] := by simp [WireFrame.bytes]

theorem wire_length (f : WireFrame) : f.bytes.length = 9 + f.payload.length + f.tail.length := by
  simp [WireFrame.bytes]; omega

theorem wf_iff (f : WireFrame) : f.wf = true ↔ f.payload.length ≤ 255 ∧ f.bytes.length ≤ 65535 := by
  rw [WireFrame.wf, Bool.and_eq_true, decide_eq_true_iff, decide_eq_true_iff, wire_length]; rfl

/-- A read that is a whole frame decodes to its row. -/
theorem decodeRead_bytes {p : Params} {w : Byte} {f : WireFrame} (h : f.wf = true) :
    decodeRead p w f.bytes = frameInstr p w f := by
  obtain ⟨hp, hl⟩ := (wf_iff f).mp h
  have hb : ∃ b bs, f.bytes = b :: bs := List.exists_cons_of_ne_nil (bytes_ne_nil f)
  obtain ⟨b, bs, hb⟩ := hb
  have ht : f.bytes.take READ_MAX = b :: bs := by rw [List.take_of_length_le (by simpa [READ_MAX] using hl), hb]
  unfold decodeRead
  split
  · simp_all
  · next heq =>
    rw [ht] at heq
    have := parseFrame_bytes hp
    rw [← heq, ← hb, this]

/-! ### The command port -/

theorem decodeLenData_of_length {data : List Byte} (h : data.length ≤ 65535) :
    decodeLenData (be16Length data.length ++ data) = some data := by
  simp [decodeLenData, be16Length, be16Bytes, be16_of_length h]

theorem of_decodeLenData {args data : List Byte} (h : decodeLenData args = some data) :
    be16Length data.length ++ data = args ∧ data.length ≤ 65535 := by
  unfold decodeLenData at h
  split at h
  · next hi lo d =>
    split at h
    · next hl =>
      injection h with h
      subst h
      have := (be16 hi lo).isLt
      exact ⟨by rw [be16Length_of_be16 hl]; rfl, by omega⟩
    · cases h
  · cases h

theorem ite_eq_cases {α : Type} {c : Prop} [Decidable c] {a b x : α} (h : (if c then a else b) = x) :
    (c ∧ a = x) ∨ (¬ c ∧ b = x) := by
  by_cases hc : c
  · exact .inl ⟨hc, by rwa [if_pos hc] at h⟩
  · exact .inr ⟨hc, by rwa [if_neg hc] at h⟩

section
variable {args : List Byte} {i : Instr}

theorem of_decode1 {k : Byte → Instr} (h : decode1 k args = some i) : ∃ a, args = [a] ∧ i = k a := by
  unfold decode1 at h
  split at h
  · exact ⟨_, rfl, by injection h with h; exact h.symm⟩
  · cases h

theorem of_decode2 {k : Byte → Byte → Instr} (h : decode2 k args = some i) : ∃ a b, args = [a, b] ∧ i = k a b := by
  unfold decode2 at h
  split at h
  · exact ⟨_, _, rfl, by injection h with h; exact h.symm⟩
  · cases h

theorem of_decode3 {k : Byte → Byte → Byte → Instr} (h : decode3 k args = some i) :
    ∃ a b c, args = [a, b, c] ∧ i = k a b c := by
  unfold decode3 at h
  split at h
  · exact ⟨_, _, _, rfl, by injection h with h; exact h.symm⟩
  · cases h

theorem of_decodeData {k : List Byte → Instr} (h : (decodeLenData args).map k = some i) :
    ∃ data, args = be16Length data.length ++ data ∧ data.length ≤ 65535 ∧ i = k data := by
  obtain ⟨d, hd, rfl⟩ := Option.map_eq_some_iff.mp h
  exact ⟨d, (of_decodeLenData hd).1.symm, (of_decodeLenData hd).2, rfl⟩

theorem of_decodeEncode (h : decodeEncode args = some i) :
    ∃ src dst ctrl fn payload, args = src :: dst :: ctrl :: fn :: length8 payload.length :: payload ∧
      payload.length ≤ 255 ∧ i = .encode src dst ctrl fn payload := by
  match args with
  | src :: dst :: ctrl :: fn :: n :: payload =>
    rcases ite_eq_cases h with ⟨hn, h⟩ | ⟨-, h⟩
    · injection h with h
      have := n.isLt
      exact ⟨src, dst, ctrl, fn, payload, by rw [length8_of_toNat hn], by omega, h.symm⟩
    · cases h
  | [] | [_] | [_, _] | [_, _, _] | [_, _, _, _] => cases h

theorem of_decodeFilter (h : decodeFilter args = some i) :
    ∃ data, args = length8 data.length :: data ∧ data.length ≤ 255 ∧ i = .filterSerial data := by
  match args with
  | n :: data =>
    rcases ite_eq_cases h with ⟨hn, h⟩ | ⟨-, h⟩
    · injection h with h
      have := n.isLt
      exact ⟨data, by rw [length8_of_toNat hn], by omega, h.symm⟩
    · cases h
  | [] => cases h

theorem of_decodeResult (h : decodeResult args = some i) :
    ∃ w present data, args = w :: present :: (be16Length data.length ++ data) ∧ data.length ≤ 65535 ∧
      i = .fsmResult w present data := by
  match args with
  | w :: present :: rest =>
    obtain ⟨d, hd, hl, hi⟩ := of_decodeData (args := rest) h
    exact ⟨w, present, d, by rw [hd], hl, hi⟩
  | [] | [_] => cases h

end

/-- Every opcode's operands are read back from the bytes that carry them, and only from those. -/
theorem encode_decodeOperands {op : Byte} {args : List Byte} {i : Instr} (h : decodeOperands op args = some i) :
    encode i = ⟨none, op :: args⟩ ∧ ∀ p, i.wf p = true := by
  unfold decodeOperands at h
  rcases ite_eq_cases h with ⟨rfl, h⟩ | ⟨-, h⟩
  · obtain ⟨_, _, _, _, d, rfl, hl, rfl⟩ := of_decodeEncode h; exact ⟨rfl, fun p => by simp [Instr.wf, N_MAX, hl]⟩
  rcases ite_eq_cases h with ⟨rfl, h⟩ | ⟨-, h⟩
  · obtain ⟨d, rfl, hl, rfl⟩ := of_decodeData h; exact ⟨rfl, fun p => by simp [Instr.wf, hl]⟩
  rcases ite_eq_cases h with ⟨rfl, h⟩ | ⟨-, h⟩
  · obtain ⟨d, rfl, hl, rfl⟩ := of_decodeData h; exact ⟨rfl, fun p => by simp [Instr.wf, hl]⟩
  rcases ite_eq_cases h with ⟨rfl, h⟩ | ⟨-, h⟩
  · obtain ⟨d, rfl, hl, rfl⟩ := of_decodeData h; exact ⟨rfl, fun p => by simp [Instr.wf, hl]⟩
  rcases ite_eq_cases h with ⟨rfl, h⟩ | ⟨-, h⟩
  · obtain ⟨a, b, rfl, rfl⟩ := of_decode2 h; exact ⟨rfl, fun _ => rfl⟩
  rcases ite_eq_cases h with ⟨rfl, h⟩ | ⟨-, h⟩
  · obtain ⟨a, b, c, rfl, rfl⟩ := of_decode3 h; exact ⟨rfl, fun _ => rfl⟩
  rcases ite_eq_cases h with ⟨rfl, h⟩ | ⟨-, h⟩
  · obtain ⟨a, b, rfl, rfl⟩ := of_decode2 h; exact ⟨rfl, fun _ => rfl⟩
  rcases ite_eq_cases h with ⟨rfl, h⟩ | ⟨-, h⟩
  · obtain ⟨a, b, rfl, rfl⟩ := of_decode2 h; exact ⟨rfl, fun _ => rfl⟩
  rcases ite_eq_cases h with ⟨rfl, h⟩ | ⟨-, h⟩
  · obtain ⟨a, rfl, rfl⟩ := of_decode1 h; exact ⟨rfl, fun _ => rfl⟩
  rcases ite_eq_cases h with ⟨rfl, h⟩ | ⟨-, h⟩
  · obtain ⟨a, rfl, rfl⟩ := of_decode1 h; exact ⟨rfl, fun _ => rfl⟩
  rcases ite_eq_cases h with ⟨rfl, h⟩ | ⟨-, h⟩
  · obtain ⟨_, _, d, rfl, hl, rfl⟩ := of_decodeResult h; exact ⟨rfl, fun p => by simp [Instr.wf, READ_MAX, hl]⟩
  rcases ite_eq_cases h with ⟨rfl, h⟩ | ⟨-, h⟩
  · obtain ⟨a, b, rfl, rfl⟩ := of_decode2 h; exact ⟨rfl, fun _ => rfl⟩
  rcases ite_eq_cases h with ⟨rfl, h⟩ | ⟨-, h⟩
  · obtain ⟨d, rfl, hl, rfl⟩ := of_decodeFilter h; exact ⟨rfl, fun p => by simp [Instr.wf, hl]⟩
  rcases ite_eq_cases h with ⟨rfl, ht⟩ | ⟨-, ht⟩
  · rcases ite_eq_cases ht with ⟨rfl, ha⟩ | ⟨-, ha⟩
    · obtain rfl := Option.some.inj ha; exact ⟨rfl, fun _ => rfl⟩
    · cases ha
  · cases ht

/-! ### Which operands an opcode reads -/

theorem decode1_isSome (k : Byte → Instr) (args : List Byte) : (decode1 k args).isSome = (args.length == 1) := by
  match args with
  | [] | [_] | _ :: _ :: _ => simp [decode1]

theorem decode2_isSome (k : Byte → Byte → Instr) (args : List Byte) :
    (decode2 k args).isSome = (args.length == 2) := by
  match args with
  | [] | [_] | [_, _] | _ :: _ :: _ :: _ => simp [decode2]

theorem decode3_isSome (k : Byte → Byte → Byte → Instr) (args : List Byte) :
    (decode3 k args).isSome = (args.length == 3) := by
  match args with
  | [] | [_] | [_, _] | [_, _, _] | _ :: _ :: _ :: _ :: _ => simp [decode3]

theorem decodeLenData_isSome (args : List Byte) : (decodeLenData args).isSome =
    (match args with
      | hi :: lo :: data => data.length == (be16 hi lo).toNat
      | _ => false) := by
  match args with
  | [] | [_] => rfl
  | hi :: lo :: data => simp only [decodeLenData]; split <;> simp_all

theorem decodeEncode_isSome (args : List Byte) : (decodeEncode args).isSome =
    (match args with
      | _ :: _ :: _ :: _ :: n :: payload => payload.length == n.toNat
      | _ => false) := by
  match args with
  | [] | [_] | [_, _] | [_, _, _] | [_, _, _, _] => rfl
  | _ :: _ :: _ :: _ :: n :: payload => simp only [decodeEncode]; split <;> simp_all

theorem decodeFilter_isSome (args : List Byte) : (decodeFilter args).isSome =
    (match args with
      | n :: data => data.length == n.toNat
      | _ => false) := by
  match args with
  | [] => rfl
  | n :: data => simp only [decodeFilter]; split <;> simp_all

theorem decodeResult_isSome (args : List Byte) : (decodeResult args).isSome =
    (match args with
      | _ :: _ :: hi :: lo :: data => data.length == (be16 hi lo).toNat
      | _ => false) := by
  match args with
  | [] | [_] => rfl
  | [_, _] | [_, _, _] => rfl
  | _ :: _ :: hi :: lo :: data => simp [decodeResult, decodeLenData_isSome]

/-- The length of a command decides it: the form check of `WellFormed` and the decoder agree on every byte sequence. -/
theorem legalForm_iff (op : Byte) (args : List Byte) :
    legalForm (op :: args) = (decodeOperands op args).isSome := by
  unfold legalForm decodeOperands
  by_cases h1 : op = OP_ENCODE
  · simp only [h1, if_true, decodeEncode_isSome] <;> rfl
  by_cases h2 : op = OP_CHECKSUM
  · subst h2; simp only [h1, if_true, if_false, true_or, Option.isSome_map, decodeLenData_isSome] <;> rfl
  by_cases h3 : op = OP_DECODE
  · subst h3; simp only [h1, h2, if_true, if_false, true_or, or_true, Option.isSome_map, decodeLenData_isSome] <;> rfl
  by_cases h4 : op = OP_VERIFY
  · subst h4; simp only [h1, h2, h3, if_true, if_false, or_true, Option.isSome_map, decodeLenData_isSome] <;> rfl
  by_cases h5 : op = OP_LOOKUP
  · subst h5; simp only [h1, h2, h3, h4, if_true, if_false, true_or, or_self, decode2_isSome]
  by_cases h6 : op = OP_FUNCTION_NAME
  · subst h6; simp [OP_ENCODE, OP_CHECKSUM, OP_DECODE, OP_VERIFY, OP_LOOKUP, OP_FUNCTION_NAME, OP_CODE_OF, OP_RESPONSE_OF,
      OP_FSM_READ, decode3_isSome]
  by_cases h7 : op = OP_CODE_OF
  · subst h7; simp [OP_ENCODE, OP_CHECKSUM, OP_DECODE, OP_VERIFY, OP_LOOKUP, OP_FUNCTION_NAME, OP_CODE_OF, OP_RESPONSE_OF,
      OP_FSM_READ, decode2_isSome]
  by_cases h8 : op = OP_RESPONSE_OF
  · subst h8; simp [OP_ENCODE, OP_CHECKSUM, OP_DECODE, OP_VERIFY, OP_LOOKUP, OP_FUNCTION_NAME, OP_CODE_OF, OP_RESPONSE_OF,
      OP_FSM_READ, decode2_isSome]
  by_cases h9 : op = OP_FSM_RESET
  · subst h9; simp only [h1, h2, h3, h4, h5, h6, h7, h8, or_self, if_false, if_true, true_or, decode1_isSome] <;> rfl
  by_cases h10 : op = OP_FSM_GO
  · subst h10; simp only [h1, h2, h3, h4, h5, h6, h7, h8, h9, or_self, or_true, if_false, if_true, decode1_isSome] <;> rfl
  by_cases h11 : op = OP_FSM_RESULT
  · subst h11; simp only [h1, h2, h3, h4, h5, h6, h7, h8, h9, h10, or_self, if_false, if_true, decodeResult_isSome] <;> rfl
  by_cases h12 : op = OP_FSM_READ
  · subst h12; simp only [h1, h2, h3, h4, h5, h6, h7, h8, h9, h10, h11, or_self, or_true, if_false, if_true, decode2_isSome]
  by_cases h13 : op = OP_FILTER_SERIAL
  · subst h13; simp only [h1, h2, h3, h4, h5, h6, h7, h8, h9, h10, h11, h12, or_self, if_false, if_true, decodeFilter_isSome] <;> rfl
  by_cases h14 : op = OP_TABLE_RESET
  · subst h14; simp only [h1, h2, h3, h4, h5, h6, h7, h8, h9, h10, h11, h12, h13, or_self, if_false, if_true]
    cases args <;> simp
  simp only [h1, h2, h3, h4, h5, h6, h7, h8, h9, h10, h11, h12, h13, h14, or_self, if_false, Option.isSome_none]

end Sys2Proof
end

