-- ==== Sys2Proof/Laws/State.lean ====
section
/-! SUPPORT. One lemma per field and update of the state, all by definition. -/

namespace Sys2Proof.Machine

/-! ### State.answer -/

@[simp] theorem answer_params (s : State) (st d) : (s.answer st d).params = s.params := rfl
@[simp] theorem answer_workers (s : State) (st d) : (s.answer st d).workers = s.workers := rfl
@[simp] theorem answer_table (s : State) (st d) : (s.answer st d).table = s.table := rfl
@[simp] theorem answer_inbox (s : State) (st d) : (s.answer st d).inbox = s.inbox := rfl
@[simp] theorem answer_result (s : State) (st d) : (s.answer st d).result = st.code :: d := rfl
@[simp] theorem answer_reading (s : State) (st d) : (s.answer st d).reading = s.reading := rfl

/-! ### State.setWorker -/

@[simp] theorem setWorker_params (s : State) (w x) : (s.setWorker w x).params = s.params := rfl
@[simp] theorem setWorker_workers (s : State) (w x) :
    (s.setWorker w x).workers = s.workers.set w.toNat x := rfl
@[simp] theorem setWorker_table (s : State) (w x) : (s.setWorker w x).table = s.table := rfl
@[simp] theorem setWorker_inbox (s : State) (w x) : (s.setWorker w x).inbox = s.inbox := rfl
@[simp] theorem setWorker_result (s : State) (w x) : (s.setWorker w x).result = s.result := rfl
@[simp] theorem setWorker_reading (s : State) (w x) : (s.setWorker w x).reading = s.reading := rfl

/-! ### State.failStep -/

@[simp] theorem failStep_params (s : State) (w x r m e f b n t) :
    (s.failStep w x r m e f b n t).params = s.params := rfl
@[simp] theorem failStep_workers (s : State) (w x r m e f b n t) :
    (s.failStep w x r m e f b n t).workers = s.workers.set w.toNat (x.fail s.params r m e f b n t) := rfl
@[simp] theorem failStep_table (s : State) (w x r m e f b n t) :
    (s.failStep w x r m e f b n t).table = s.table := rfl
@[simp] theorem failStep_inbox (s : State) (w x r m e f b n t) :
    (s.failStep w x r m e f b n t).inbox = s.inbox := rfl
@[simp] theorem failStep_result (s : State) (w x r m e f b n t) :
    (s.failStep w x r m e f b n t).result = [r.code] := rfl
@[simp] theorem failStep_reading (s : State) (w x r m e f b n t) :
    (s.failStep w x r m e f b n t).reading = s.reading := rfl

/-! ### State.blockReset -/

@[simp] theorem blockReset_params (s : State) : s.blockReset.params = s.params := rfl
@[simp] theorem blockReset_workers (s : State) :
    s.blockReset.workers = s.workers.map fun _ => Worker.reset := rfl
@[simp] theorem blockReset_table (s : State) : s.blockReset.table = [] := rfl
@[simp] theorem blockReset_inbox (s : State) : s.blockReset.inbox = s.inbox := rfl
@[simp] theorem blockReset_result (s : State) : s.blockReset.result = [] := rfl
@[simp] theorem blockReset_reading (s : State) : s.blockReset.reading = none := rfl

/-! ### State.resetWith -/

@[simp] theorem resetWith_params (p n) : (State.resetWith p n).params = p := rfl
@[simp] theorem resetWith_workers (p n) : (State.resetWith p n).workers = List.replicate n Worker.reset := rfl
@[simp] theorem resetWith_table (p n) : (State.resetWith p n).table = [] := rfl
@[simp] theorem resetWith_inbox (p n) : (State.resetWith p n).inbox = [] := rfl
@[simp] theorem resetWith_result (p n) : (State.resetWith p n).result = [] := rfl
@[simp] theorem resetWith_reading (p n) : (State.resetWith p n).reading = none := rfl

/-! ### Worker.fail -/

section
variable (p : Params) (r : Status) (m : BitVec 5) (e f : Half) (b : List Byte) (n : BitVec 3) (t : Bool) (x : Worker)

@[simp] theorem fail_state : (x.fail p r m e f b n t).state = if t then .abandoned else x.state := by
  cases t <;> rfl
@[simp] theorem fail_phase : (x.fail p r m e f b n t).phase = if t then .reRegister else x.phase := by
  cases t <;> rfl
@[simp] theorem fail_pend : (x.fail p r m e f b n t).pend = x.pend := by cases t <;> rfl
@[simp] theorem fail_tx : (x.fail p r m e f b n t).tx = x.tx := by cases t <;> rfl
@[simp] theorem fail_raw : (x.fail p r m e f b n t).raw = x.raw := by cases t <;> rfl
@[simp] theorem fail_addr : (x.fail p r m e f b n t).addr = x.addr := by cases t <;> rfl
@[simp] theorem fail_addrValid : (x.fail p r m e f b n t).addrValid = x.addrValid := by cases t <;> rfl
@[simp] theorem fail_serialText : (x.fail p r m e f b n t).serialText = x.serialText := by cases t <;> rfl
@[simp] theorem fail_diagReason : (x.fail p r m e f b n t).diagReason = r.code := by cases t <;> rfl
@[simp] theorem fail_diagMask : (x.fail p r m e f b n t).diagMask = m := by cases t <;> rfl
@[simp] theorem fail_diagExpected : (x.fail p r m e f b n t).diagExpected = e := by cases t <;> rfl
@[simp] theorem fail_diagFound : (x.fail p r m e f b n t).diagFound = f := by cases t <;> rfl
@[simp] theorem fail_diagFrame : (x.fail p r m e f b n t).diagFrame = b.take p.rxBufMax := by cases t <;> rfl
@[simp] theorem fail_diagStep : (x.fail p r m e f b n t).diagStep = n := by cases t <;> rfl
end

/-! ### Reading a worker back -/

theorem worker?_eq (s : State) (w : Byte) : s.worker? w = s.workers[w.toNat]? := rfl

theorem worker?_setWorker_same {s : State} {w : Byte} {x y : Worker} (h : s.worker? w = some x) :
    (s.setWorker w y).worker? w = some y := by
  have hw : w.toNat < s.workers.length := (List.getElem?_eq_some_iff.mp h).1
  simp [State.worker?, State.setWorker, hw]

theorem worker?_setWorker_other (s : State) {v w : Byte} (y : Worker) (h : v ≠ w) :
    (s.setWorker w y).worker? v = s.worker? v := by
  have : w.toNat ≠ v.toNat := fun e => h (BitVec.eq_of_toNat_eq e.symm)
  simp [State.worker?, State.setWorker, this]

@[simp] theorem worker?_answer (s : State) (st d) (w : Byte) : (s.answer st d).worker? w = s.worker? w := rfl

@[simp] theorem nw_setWorker (s : State) (w x) : (s.setWorker w x).nw = s.nw := by simp [State.nw]

@[simp] theorem nw_answer (s : State) (st d) : (s.answer st d).nw = s.nw := rfl

theorem worker?_isSome_iff (s : State) (w : Byte) : (s.worker? w).isSome ↔ w.toNat < s.nw := by
  simp [State.worker?, State.nw]

end Sys2Proof.Machine
end

