-- ==== Sys2Proof/Laws/Table.lean ====
section
/-! SUPPORT. The address table: reads after writes, the canonical form, and the specification of `allocate_next` and `record`. -/

namespace Sys2Proof.Machine

@[simp] theorem Table.read_nil (a : Nat) : Table.read [] a = .free := rfl

theorem Table.read_cons (b : Nat) (e : Entry) (t : Table) (a : Nat) :
    Table.read ((b, e) :: t) a = if a = b then e else Table.read t a := rfl

/-- In a canonical table the entries after the first lie above it. -/
theorem Table.wf_cons {b : Nat} {e : Entry} {t : Table} :
    Table.wf ((b, e) :: t) ↔ b ≤ 255 ∧ e ≠ .free ∧ (∀ x ∈ t, b < x.1) ∧ Table.wf t := by
  simp [Table.wf, List.pairwise_cons]
  grind

theorem Table.wf_nil : Table.wf [] := by simp [Table.wf]

/-- An address below every key is not assigned. -/
theorem Table.read_eq_free_of_lt {t : Table} {a : Nat} (h : ∀ x ∈ t, a < x.1) : t.read a = .free := by
  induction t with
  | nil => rfl
  | cons x t ih =>
    obtain ⟨b, e⟩ := x
    have : a ≠ b := by have := h (b, e) (by simp); simp at this; omega
    simp [Table.read_cons, this, ih fun y hy => h y (by simp [hy])]

/-- `write` at `a` then a read at `a'`. -/
theorem Table.read_write {t : Table} (h : t.wf) (a a' : Nat) (e : Entry) :
    (t.write a e).read a' = if a' = a then e else t.read a' := by
  induction t with
  | nil => by_cases he : e = .free <;> simp [Table.write, he, Table.read_cons]
  | cons x t ih =>
    obtain ⟨b, y⟩ := x
    obtain ⟨-, -, hlt, ht⟩ := Table.wf_cons.mp h
    have hfree : Table.read t b = .free := Table.read_eq_free_of_lt hlt
    simp only [Table.write]
    split
    · have hl : Table.read t a = .free := Table.read_eq_free_of_lt fun x hx => by have := hlt x hx; omega
      split
      · next he => simp only [Table.read_cons]; split <;> split <;> simp_all
      · simp only [Table.read_cons]
    · split
      · split
        · simp only [Table.read_cons]; grind
        · simp only [Table.read_cons]; grind
      · simp only [Table.read_cons, ih ht]; grind

theorem Table.mem_write {t : Table} {a : Nat} {e : Entry} {x : Nat × Entry} (h : x ∈ t.write a e) :
    x = (a, e) ∨ x ∈ t := by
  induction t with
  | nil => simp only [Table.write] at h; split at h <;> simp_all
  | cons y t ih =>
    obtain ⟨b, z⟩ := y
    simp only [Table.write] at h
    grind

/-- Every table operation is a `write` or empties the table, and a `write` keeps the canonical form. -/
theorem Table.write_wf {t : Table} (h : t.wf) {a : Nat} (ha : a ≤ 255) (e : Entry) : (t.write a e).wf := by
  induction t with
  | nil => by_cases he : e = .free <;> simp [Table.write, he, Table.wf, ha]
  | cons x t ih =>
    obtain ⟨b, y⟩ := x
    obtain ⟨hb, hy, hlt, ht⟩ := Table.wf_cons.mp h
    simp only [Table.write]
    split
    · split
      · exact h
      · next hab he =>
        refine Table.wf_cons.mpr ⟨ha, he, ?_, h⟩
        intro x hx
        rcases List.mem_cons.mp hx with rfl | hx
        · exact hab
        · have := hlt x hx; omega
    · split
      · split
        · exact ht
        · next _ hab he => subst hab; exact Table.wf_cons.mpr ⟨ha, he, hlt, ht⟩
      · refine Table.wf_cons.mpr ⟨hb, hy, ?_, ih ht⟩
        intro x hx
        rcases Table.mem_write hx with rfl | hx
        · simp; omega
        · exact hlt x hx

theorem Table.record_wf {t : Table} (h : t.wf) {a : Nat} (ha : a ≤ 255) (text : List Byte) :
    (t.record a text).wf := Table.write_wf h ha _

theorem Table.read_record {t : Table} (h : t.wf) (a a' : Nat) (text : List Byte) :
    (t.record a text).read a' = if a' = a then .recorded text else t.read a' := Table.read_write h a a' _

/-- In a canonical table the assigned addresses are the keys. -/
theorem Table.read_ne_free_iff {t : Table} (h : t.wf) (a : Nat) : t.read a ≠ .free ↔ a ∈ t.keys := by
  induction t with
  | nil => simp [Table.keys]
  | cons x t ih =>
    obtain ⟨b, e⟩ := x
    obtain ⟨-, he, -, ht⟩ := Table.wf_cons.mp h
    have := ih ht
    simp only [Table.keys, List.map_cons, List.mem_cons, Table.read_cons] at *
    split <;> simp_all

theorem foldl_max_ge (l : List Nat) (n : Nat) : n ≤ l.foldl max n ∧ ∀ a ∈ l, a ≤ l.foldl max n := by
  induction l generalizing n with
  | nil => simp
  | cons x l ih =>
    obtain ⟨h1, h2⟩ := ih (max n x)
    simp only [List.foldl_cons, List.mem_cons]
    refine ⟨by omega, ?_⟩
    rintro a (rfl | ha)
    · omega
    · exact h2 a ha

theorem foldl_max_mem (l : List Nat) (n : Nat) : l.foldl max n = n ∨ l.foldl max n ∈ l := by
  induction l generalizing n with
  | nil => simp
  | cons x l ih =>
    simp only [List.foldl_cons, List.mem_cons]
    rcases ih (max n x) with h | h
    · rw [h]; omega
    · exact .inr (.inr h)

theorem Table.one_le_maxKey (t : Table) : 1 ≤ t.maxKey := (foldl_max_ge t.keys 1).1

theorem Table.le_maxKey {t : Table} {a : Nat} (h : a ∈ t.keys) : a ≤ t.maxKey := (foldl_max_ge t.keys 1).2 a h

theorem Table.maxKey_eq_or_mem (t : Table) : t.maxKey = 1 ∨ t.maxKey ∈ t.keys := foldl_max_mem t.keys 1

/-- `allocate_next` answers Exhausted, or the largest key's successor and the table with that one entry reserved. -/
theorem Table.allocateNext_cases (t : Table) :
    (252 < t.maxKey ∧ t.allocateNext = none) ∨
    (t.maxKey ≤ 252 ∧ t.allocateNext = some (t.maxKey + 1, t.write (t.maxKey + 1) .reserved)) := by
  unfold Table.allocateNext ADDR_MAX
  split
  · left; refine ⟨by omega, rfl⟩
  · right; refine ⟨by omega, rfl⟩

theorem Table.allocateNext_wf {t t' : Table} {n : Nat} (h : t.wf) (ha : t.allocateNext = some (n, t')) : t'.wf := by
  rcases t.allocateNext_cases with ⟨-, hn⟩ | ⟨hle, hs⟩
  · simp [hn] at ha
  · rw [hs] at ha
    obtain ⟨rfl, rfl⟩ : t.maxKey + 1 = n ∧ _ = t' := by simpa using ha
    exact Table.write_wf h (by omega) _

/-- A write above every key goes to the end. -/
theorem Table.write_above {t : Table} {a : Nat} {e : Entry} (h : ∀ x ∈ t, x.1 < a) (he : e ≠ .free) :
    t.write a e = t ++ [(a, e)] := by
  induction t with
  | nil => simp [Table.write, he]
  | cons x t ih =>
    obtain ⟨b, y⟩ := x
    have hb : b < a := h (b, y) (by simp)
    have h1 : ¬ a < b := by omega
    have h2 : a ≠ b := by omega
    simp [Table.write, h1, h2, ih fun z hz => h z (by simp [hz])]

/-- A write of an assigned entry over an assigned address changes no key. -/
theorem Table.keys_write_of_mem {t : Table} (h : t.wf) {a : Nat} {e : Entry} (ha : a ∈ t.keys) (he : e ≠ .free) :
    (t.write a e).keys = t.keys := by
  induction t with
  | nil => simp [Table.keys] at ha
  | cons x t ih =>
    obtain ⟨b, y⟩ := x
    obtain ⟨-, -, hlt, ht⟩ := Table.wf_cons.mp h
    simp only [Table.keys, List.map_cons, List.mem_cons] at ha
    by_cases hab : a = b
    · subst hab; simp [Table.write, he, Table.keys]
    · have hmem : a ∈ Table.keys t := by rcases ha with h | h; exact absurd h hab; exact h
      have hlt' : b < a := by
        obtain ⟨z, hz, rfl⟩ := List.mem_map.mp hmem
        exact hlt z hz
      have h1 : ¬ a < b := by omega
      simp only [Table.write, h1, hab, if_false, Table.keys, List.map_cons]
      rw [show List.map Prod.fst (Table.write t a e) = (Table.write t a e).keys from rfl, ih ht hmem]
      rfl

end Sys2Proof.Machine
end

