-- ==== Sys2Proof/Laws/Handshake.lean ====
section
/-! SUPPORT. The handshake: everything FSM_GO's step and the delivery of an answer can do, and what each instruction comes to. -/

namespace Sys2Proof.Machine

/-! ### Building a request -/

/-- The bytes of a request of the FSM (rules R172, R173, R179, R182). -/
def requestBytes (p : Params) (fn : Byte) (payload : List Byte) : List Byte :=
  (encodedFrame ADDR_CONTROLLER ADDR_BROADCAST p.ctrlRegister fn payload).bytes

theorem emit_of_le {p : Params} {fn : Byte} {payload : List Byte} (h : payload.length ≤ 255) (pd : Pend) (x : Worker) :
    x.emit p fn payload pd = .ok { x with tx := requestBytes p fn payload, pend := pd } := by
  rw [Worker.emit, encodeFrame_eq_bytes h]; rfl

theorem emit_of_gt {p : Params} {fn : Byte} {payload : List Byte} (h : 255 < payload.length) (pd : Pend) (x : Worker) :
    x.emit p fn payload pd = .error .payloadTooLong := by
  rcases encodeFrame_cases ADDR_CONTROLLER ADDR_BROADCAST p.ctrlRegister fn payload with ⟨-, he⟩ | ⟨hle, -⟩
  · rw [Worker.emit, he]
  · omega

theorem requestBytes_length (p : Params) (fn : Byte) (payload : List Byte) :
    (requestBytes p fn payload).length = 11 + payload.length := by
  rw [requestBytes, wireFrame_length]; simp [encodedFrame]; omega

/-- The frame the invariant names is the request's bytes. -/
theorem encodeFrame_request_iff {p : Params} {fn : Byte} {payload tx : List Byte} (h : payload.length ≤ 255) :
    encodeFrame ADDR_CONTROLLER ADDR_BROADCAST p.ctrlRegister fn payload = .ok tx ↔ tx = requestBytes p fn payload := by
  rw [encodeFrame_eq_bytes h, requestBytes]
  constructor
  · intro e; injection e with e; exact e.symm
  · rintro rfl; rfl

/-! ### FSM_GO's step -/

/-- What FSM_GO's step comes to (rules R172, R173, R179 to R182, R187), for a worker whose registers are `x`. -/
inductive GoOutcome (s : State) (w : Byte) (x : Worker) : State → Prop where
  | reRegister (h : x.state = .unregistered) (hp : x.phase = .reRegister) :
      GoOutcome s w x ((s.setWorker w
        { x with tx := requestBytes s.params s.params.fnReRegister [], pend := .reRegister }).answer .ok [])
  | offlineQuery (h : x.state = .unregistered) (hp : x.phase = .offlineQuery) :
      GoOutcome s w x ((s.setWorker w
        { x with tx := requestBytes s.params s.params.fnOfflineQuery [], pend := .offlineQuery }).answer .ok [])
  | tooLong (h : x.state = .awaitingSerial) (hl : 254 < x.raw.length) :
      GoOutcome s w x (s.failStep w x .payloadTooLong 0 0 0 [] 3 true)
  | exhausted (h : x.state = .awaitingSerial) (hl : x.raw.length ≤ 254) (hk : 252 < s.table.maxKey) :
      GoOutcome s w x (s.failStep w x .addressSpaceExhausted 0 0 0 [] 3 true)
  | allocated (h : x.state = .awaitingSerial) (hl : x.raw.length ≤ 254) (hk : s.table.maxKey ≤ 252) :
      GoOutcome s w x ((State.setWorker { s with table := s.table.write (s.table.maxKey + 1) .reserved } w
        { x with
          addr := BitVec.ofNat 8 (s.table.maxKey + 1), addrValid := true, state := .awaitingAddressConfirm,
          tx := requestBytes s.params s.params.fnSendRegisterAddress
            (x.raw ++ [BitVec.ofNat 8 (s.table.maxKey + 1)]),
          pend := .sendRegisterAddress }).answer .ok [])
  | resent (h : x.state = .awaitingAddressConfirm) (hl : x.raw.length ≤ 254) :
      GoOutcome s w x ((s.setWorker w
        { x with
          tx := requestBytes s.params s.params.fnSendRegisterAddress (x.raw ++ [x.addr]),
          pend := .sendRegisterAddress }).answer .ok [])
  /-- A serial with no room for the address byte, in a state where it was checked: no run reaches this. -/
  | noRoom (h : x.state = .awaitingAddressConfirm) (hl : 254 < x.raw.length) :
      GoOutcome s w x (s.answer .payloadTooLong [])
  | terminal (h : x.state = .registered ∨ x.state = .abandoned) :
      GoOutcome s w x (s.answer .ok [])

theorem goStep_outcome (s : State) (w : Byte) (x : Worker) : GoOutcome s w x (goStep w x s) := by
  unfold goStep
  split
  · next h =>
    split
    · next hp =>
      rw [goReRegister, emit_of_le (by simp)]
      exact .reRegister h hp
    · next hp =>
      rw [goOfflineQuery, emit_of_le (by simp)]
      exact .offlineQuery h hp
  · next h =>
    unfold goAllocate
    split
    · next hl => exact .tooLong h hl
    · next hl =>
      rcases s.table.allocateNext_cases with ⟨hk, ha⟩ | ⟨hk, ha⟩
      · rw [ha]; exact .exhausted h (by omega) hk
      · rw [ha]
        simp only [emitAddress]
        rw [emit_of_le (by simp; omega)]
        exact .allocated h (by omega) hk
  · next h =>
    by_cases hl : x.raw.length ≤ 254
    · rw [goResend, emitAddress, emit_of_le (by simp; omega)]
      exact .resent h hl
    · rw [goResend, emitAddress, emit_of_gt (by simp; omega)]
      exact .noRoom h (by omega)
  · next h => exact .terminal (.inl h)
  · next h => exact .terminal (.inr h)

/-- What FSM_GO comes to (rule R171). -/
theorem execFsmGo_cases (w : Byte) (s : State) :
    (s.worker? w = none ∧ execFsmGo w s = .next (s.answer .badWorker [])) ∨
    (∃ x, s.worker? w = some x ∧ x.pend ≠ .none ∧ execFsmGo w s = .next (s.answer .busy [])) ∨
    (∃ x t, s.worker? w = some x ∧ x.pend = .none ∧ execFsmGo w s = .next t ∧ GoOutcome s w x t) := by
  unfold execFsmGo
  split
  · next h => exact .inl ⟨h, rfl⟩
  · next x h =>
    split
    · next hp => exact .inr (.inr ⟨x, _, h, hp, rfl, goStep_outcome s w x⟩)
    · next hp => exact .inr (.inl ⟨x, h, hp, rfl⟩)

/-! ### The answer of an exchange -/

/-- What the delivery of an answer comes to (rules R174 to R178, R183, R184, R186), for a worker whose registers are `x`. -/
inductive Delivery (s : State) (w : Byte) (x : Worker) : Option (List Byte) → State → Prop where
  | notPending (r) (h : x.pend = .none) : Delivery s w x r (s.answer .notPending [])
  | ignored (r) (h : x.pend = .reRegister) :
      Delivery s w x r ((s.setWorker w { x with pend := .none, phase := .offlineQuery }).answer .ok [])
  | noReply (h : x.pend = .offlineQuery) :
      Delivery s w x none (s.failStep w { x with pend := .none, phase := .reRegister } .noResponse 0 0 0 [] 2 false)
  | badReply (bytes) (e) (h : x.pend = .offlineQuery) (he : decodeFrame s.params.decodeCheckMagic bytes = .error e) :
      Delivery s w x (some bytes)
        (s.failStep w { x with pend := .none, phase := .reRegister } e 0 0 0 bytes 2 false)
  | serial (bytes) (f) (h : x.pend = .offlineQuery) (hf : decodeFrame s.params.decodeCheckMagic bytes = .ok f)
      (hm : offlineQueryChecks s.params f (verdictOf s.params.cksumWideCompare f) = 0) :
      Delivery s w x (some bytes) ((s.setWorker w
        { x with pend := .none, raw := f.payload, phase := .reRegister, state := .awaitingSerial }).answer .ok [])
  | badSerial (bytes) (f) (v) (m) (h : x.pend = .offlineQuery)
      (hf : decodeFrame s.params.decodeCheckMagic bytes = .ok f) (hv : v = verdictOf s.params.cksumWideCompare f)
      (hm : m = offlineQueryChecks s.params f v) (h0 : m ≠ 0) :
      Delivery s w x (some bytes)
        (s.failStep w { x with pend := .none } (reasonOf m) m v.expected v.found bytes 2 true)
  | noConfirm (h : x.pend = .sendRegisterAddress) :
      Delivery s w x none (s.failStep w { x with pend := .none } .noResponse 0 0 0 [] 4 false)
  | badConfirm (bytes) (e) (h : x.pend = .sendRegisterAddress)
      (he : decodeFrame s.params.decodeCheckMagic bytes = .error e) :
      Delivery s w x (some bytes) (s.failStep w { x with pend := .none } e 0 0 0 bytes 4 false)
  | confirmed (bytes) (f) (h : x.pend = .sendRegisterAddress)
      (hf : decodeFrame s.params.decodeCheckMagic bytes = .ok f)
      (hm : addressConfirmChecks s.params x.addr f (verdictOf s.params.cksumWideCompare f) = 0) :
      Delivery s w x (some bytes)
        ((State.setWorker { s with table := s.table.record x.addr.toNat (filterSerial s.params x.raw) } w
          { x with pend := .none, serialText := filterSerial s.params x.raw, state := .registered }).answer .ok [])
  | refuted (bytes) (f) (v) (m) (h : x.pend = .sendRegisterAddress)
      (hf : decodeFrame s.params.decodeCheckMagic bytes = .ok f) (hv : v = verdictOf s.params.cksumWideCompare f)
      (hm : m = addressConfirmChecks s.params x.addr f v) (h0 : m ≠ 0) :
      Delivery s w x (some bytes)
        (s.failStep w { x with pend := .none } (reasonOf m) m v.expected v.found bytes 4 true)

theorem deliver_outcome {s : State} {w : Byte} {x : Worker} (h : s.worker? w = some x) (r : Option (List Byte)) :
    Delivery s w x r (deliver w r s) := by
  simp only [deliver, h]
  match hp : x.pend with
  | .none => exact .notPending r hp
  | .reRegister => exact .ignored r hp
  | .offlineQuery =>
    match r with
    | none => exact .noReply hp
    | some bytes =>
      simp only [answerOfflineQuery]
      match hf : decodeFrame s.params.decodeCheckMagic bytes with
      | .error e => exact .badReply bytes e hp hf
      | .ok f =>
        simp only
        split
        · next hm => exact .serial bytes f hp hf hm
        · next hm => exact .badSerial bytes f _ _ hp hf rfl rfl hm
  | .sendRegisterAddress =>
    match r with
    | none => exact .noConfirm hp
    | some bytes =>
      simp only [answerAddressConfirm]
      match hf : decodeFrame s.params.decodeCheckMagic bytes with
      | .error e => exact .badConfirm bytes e hp hf
      | .ok f =>
        simp only
        split
        · next hm => exact .confirmed bytes f hp hf hm
        · next hm => exact .refuted bytes f _ _ hp hf rfl rfl hm

theorem deliver_badWorker {s : State} {w : Byte} (h : s.worker? w = none) (r : Option (List Byte)) :
    deliver w r s = s.answer .badWorker [] := by simp [deliver, h]

/-- What the exchange result of FSM_RESULT is (rule R151). -/
theorem exchangeResult_one (data : List Byte) :
    exchangeResult 0x01 data = some (if data = [] then none else some data) := by
  unfold exchangeResult
  by_cases h : data = [] <;> simp [h]

theorem exchangeResult_zero : exchangeResult 0x00 [] = some none := rfl

/-! ### What an instruction comes to -/

/-- The frame an instruction is, and the worker at whose port it arrives. -/
def frame? : Instr → Option (Byte × WireFrame)
  | .queryNormalInfo w f | .queryNormalInfoReply w f | .reRegister w f | .offlineQuery w f
  | .sendRegisterAddress w f | .offlineQueryReply w f | .addressConfirm w f | .reRegisterReply w f
  | .readFamilyOther w f | .registerFamilyOther w f | .writeFamily w f | .executeFamily w f
  | .unknownControl w f => some (w, f)
  | .encode _ _ _ _ _ | .checksum _ | .decode _ | .verify _ | .lookup _ _ | .functionName _ _ _ | .codeOf _ _
  | .responseOf _ _ | .filterSerial _ | .tableReset | .illegalCommand _ | .fsmReset _ | .fsmGo _ | .fsmResult _ _ _
  | .fsmRead _ _ => none

/-- A frame's arrival is one operation, whatever its kind. -/
theorem exec_frame {i : Instr} {w : Byte} {f : WireFrame} (h : frame? i = some (w, f)) (s : State) :
    exec i s = .next (receive w f s) := by
  cases i <;> simp [frame?] at h <;> obtain ⟨rfl, rfl⟩ := h <;> rfl

/-- What an instruction comes to: an answer alone, a step of FSM_GO, the delivery of an answer (at a frame's arrival
with the dispatcher's reading of it), the reset of a worker, or the reset of the table. -/
inductive Effect (s : State) : Instr → State → Prop where
  | answers (i) (st : Status) (d : List Byte) (h : frame? i = none) (ht : i ≠ .tableReset) :
      Effect s i (s.answer st d)
  | went (w) (x) (t) (h : s.worker? w = some x) (hp : x.pend = .none) (ht : GoOutcome s w x t) :
      Effect s (.fsmGo w) t
  | delivered (w present data) (x) (r) (t) (h : s.worker? w = some x) (hr : exchangeResult present data = some r)
      (ht : Delivery s w x r t) : Effect s (.fsmResult w present data) t
  | received (i) (w) (f : WireFrame) (x) (t) (hi : frame? i = some (w, f)) (h : s.worker? w = some x)
      (ht : Delivery { s with reading := some (lookupReading s.params f.ctrl f.fn) } w x (some f.bytes) t) :
      Effect s i t
  | lost (i) (w) (f : WireFrame) (hi : frame? i = some (w, f)) (h : s.worker? w = none) :
      Effect s i (State.answer { s with reading := some (lookupReading s.params f.ctrl f.fn) } .badWorker [])
  | workerReset (w) (x) (h : s.worker? w = some x) : Effect s (.fsmReset w) ((s.resetWorker w).answer .ok [])
  | tableReset : Effect s .tableReset (State.answer { s with table := [] } .ok [])

theorem receive_effect {i : Instr} {w : Byte} {f : WireFrame} (hi : frame? i = some (w, f)) (s : State) :
    Effect s i (receive w f s) := by
  have hw : ∀ rd, State.worker? { s with reading := rd } w = s.worker? w := fun _ => rfl
  match h : s.worker? w with
  | some x => exact .received i w f x _ hi h (deliver_outcome ((hw _).trans h) (some f.bytes))
  | none =>
    rw [receive, deliver_badWorker ((hw _).trans h)]
    exact .lost i w f hi h

/-- Everything a command or a frame can do. -/
theorem exec_effect (i : Instr) (s : State) : ∃ t, exec i s = .next t ∧ Effect s i t := by
  match hf : frame? i with
  | some (w, f) => exact ⟨_, exec_frame hf s, receive_effect hf s⟩
  | none =>
    have ans : ∀ st d, i ≠ .tableReset → exec i s = .next (s.answer st d) → ∃ t, exec i s = .next t ∧ Effect s i t :=
      fun st d ht he => ⟨_, he, .answers i st d hf ht⟩
    cases i with
    | encode src dst ctrl fn payload =>
      rcases encodeFrame_cases src dst ctrl fn payload with ⟨-, h⟩ | ⟨-, h⟩ <;>
        exact ans _ _ (by simp) (by rw [exec, execEncode, h])
    | checksum data => exact ans _ _ (by simp) rfl
    | decode data =>
      match h : decodeFrame s.params.decodeCheckMagic data with
      | .ok g => exact ans _ _ (by simp) (by rw [exec, execDecode, h])
      | .error e => exact ans _ _ (by simp) (by rw [exec, execDecode, h])
    | verify data =>
      match h : verifyFrame s.params data with
      | .ok g => exact ans _ _ (by simp) (by rw [exec, execVerify, h])
      | .error e => exact ans _ _ (by simp) (by rw [exec, execVerify, h])
    | lookup ctrl fn => exact ans _ _ (by simp) rfl
    | functionName family fn direction =>
      simp only [exec, execFunctionName]
      split <;> exact ⟨_, rfl, .answers _ _ _ hf (by simp)⟩
    | codeOf family nameId =>
      simp only [exec, execCodeOf]
      split <;> exact ⟨_, rfl, .answers _ _ _ hf (by simp)⟩
    | responseOf family nameId =>
      simp only [exec, execResponseOf]
      split <;> exact ⟨_, rfl, .answers _ _ _ hf (by simp)⟩
    | fsmReset w =>
      simp only [exec, execFsmReset]
      split
      · exact ⟨_, rfl, .answers _ _ _ hf (by simp)⟩
      · next x h => exact ⟨_, rfl, .workerReset w x h⟩
    | fsmGo w =>
      rcases execFsmGo_cases w s with ⟨-, he⟩ | ⟨x, -, -, he⟩ | ⟨x, t, h, hp, he, ht⟩
      · exact ans _ _ (by simp) he
      · exact ans _ _ (by simp) he
      · exact ⟨t, he, .went w x t h hp ht⟩
    | fsmResult w present data =>
      simp only [exec, execFsmResult]
      split
      · exact ⟨_, rfl, .answers _ _ _ hf (by simp)⟩
      · exact ⟨_, rfl, .answers _ _ _ hf (by simp)⟩
      · next x r h hr => exact ⟨_, rfl, .delivered w present data x r _ h hr (deliver_outcome h r)⟩
    | fsmRead w reg =>
      simp only [exec, execFsmRead]
      split
      · exact ⟨_, rfl, .answers _ _ _ hf (by simp)⟩
      · split <;> exact ⟨_, rfl, .answers _ _ _ hf (by simp)⟩
    | filterSerial data => exact ans _ _ (by simp) rfl
    | tableReset => exact ⟨_, rfl, .tableReset⟩
    | illegalCommand bytes => exact ans _ _ (by simp) rfl
    | _ => simp [frame?] at hf

/-- Everything a command or a frame can do, for one whose next state is known. -/
theorem effect_of_exec {i : Instr} {s t : State} (h : exec i s = .next t) : Effect s i t := by
  obtain ⟨t', he, ht⟩ := exec_effect i s
  rw [h] at he
  injection he with he
  exact he ▸ ht

end Sys2Proof.Machine
end

