-- ==== Sys2Proof/Laws/Claims.lean ====
section
/-! SUPPORT. The statements' own words and the model's: one lemma for each word of Claims, so that a proof leaves it at once. -/

namespace Sys2Proof.Claims

open Sys2Proof.Machine

/-! ### Numbers and frames -/

theorem toNat_checksumOf (l : List Byte) : (checksumOf l).toNat = negSum l := checksumOf_toNat l

theorem negSum_lt (l : List Byte) : negSum l < 65536 := Nat.mod_lt _ (by decide)

theorem ofNat_negSum (l : List Byte) : BitVec.ofNat 16 (negSum l) = checksumOf l := by
  rw [← toNat_checksumOf, BitVec.ofNat_toNat, BitVec.setWidth_eq]

theorem twoBytes_toNat (v : Half) : twoBytes v.toNat = be16Bytes v := by
  rw [twoBytes, be16Bytes, hi8_eq, lo8_eq]

theorem twoBytes_negSum (l : List Byte) : twoBytes (negSum l) = be16Bytes (checksumOf l) := by
  rw [← toNat_checksumOf, twoBytes_toNat]

theorem twoBytes_length (n : Nat) : twoBytes n = be16Length n := by
  have hh : BitVec.ofNat 8 (n / 256) = BitVec.ofNat 8 (n % 65536 / 256) := by
    apply BitVec.eq_of_toNat_eq; simp only [BitVec.toNat_ofNat]; omega
  have hl : BitVec.ofNat 8 n = BitVec.ofNat 8 (n % 65536) := by
    apply BitVec.eq_of_toNat_eq; simp only [BitVec.toNat_ofNat]; omega
  rw [be16Length, be16Bytes, hi8_eq, lo8_eq, BitVec.toNat_ofNat, twoBytes, hh, hl]

theorem twoByteValue_eq (a b : Byte) : twoByteValue a b = (be16 a b).toNat := (be16_toNat a b).symm

theorem ofNat_twoByteValue (a b : Byte) : BitVec.ofNat 16 (twoByteValue a b) = be16 a b := by
  rw [twoByteValue_eq, BitVec.ofNat_toNat, BitVec.setWidth_eq]

theorem spelledFrame_eq (src dst ctrl fn : Byte) (payload : List Byte) :
    spelledFrame src dst ctrl fn payload = (encodedFrame src dst ctrl fn payload).bytes := by
  simp only [spelledFrame, twoBytes_negSum]
  simp [encodedFrame, WireFrame.bytes, frameBody, be16Bytes, HDR0, HDR1, TRL0, TRL1, length8]

theorem requestFrame_eq (p : Params) (fn : Byte) (payload : List Byte) :
    requestFrame p fn payload = requestBytes p fn payload := spelledFrame_eq _ _ _ _ _

/-! ### DECODE's errors -/

theorem decodes_iff {p : Params} {f : WireFrame} : Decodes p f ↔ f.payload.length ≤ 255 ∧
    (p.decodeCheckMagic = true → f.hdr0 = HDR0 ∧ f.hdr1 = HDR1 ∧ f.tail.take 2 = [TRL0, TRL1]) := Iff.rfl

theorem decodeFrame_of_decodes {p : Params} {f : WireFrame} (h : Decodes p f) :
    decodeFrame p.decodeCheckMagic f.bytes = .ok (frameOf f.bytes) := decodeFrame_bytes h.1 h.2

/-- The statements' reading of DECODE's errors is the model's. -/
theorem decodeError_eq (magic : Bool) (buf : List Byte) : decodeError magic buf =
    (match decodeFrame magic buf with
      | .error e => some e.code
      | .ok _ => none) := by
  match buf with
  | [] | [_] | [_, _] | [_, _, _] | [_, _, _, _] | [_, _, _, _, _] | [_, _, _, _, _, _] => rfl
  | h0 :: h1 :: a :: b :: c :: d :: n :: rest =>
    have h6 : byteAt (h0 :: h1 :: a :: b :: c :: d :: n :: rest) 6 = n := rfl
    have hb : ∀ k, byteAt (h0 :: h1 :: a :: b :: c :: d :: n :: rest) (9 + n.toNat + k)
        = byteAt (rest.drop n.toNat) (2 + k) := by
      intro k
      simp only [byteAt, List.getD_eq_getElem?_getD, List.getElem?_drop]
      rw [show 9 + n.toNat + k = (n.toNat + (2 + k)) + 1 + 1 + 1 + 1 + 1 + 1 + 1 by omega]
      simp only [List.getElem?_cons_succ]
    have hb0 := hb 0
    have hb1 := hb 1
    simp only [Nat.add_zero] at hb0
    rw [show 9 + n.toNat + 1 = 10 + n.toNat by omega] at hb1
    have hl : (rest.drop n.toNat).length = rest.length - n.toNat := by simp
    have n7 : ¬ rest.length + 1 + 1 + 1 + 1 + 1 + 1 + 1 < 7 := by omega
    by_cases hm : magic = true ∧ (h0 ≠ HDR0 ∨ h1 ≠ HDR1)
    · obtain ⟨rfl, hh⟩ := hm
      have : (h0 == (0xA5 : Byte) && h1 == (0xA5 : Byte)) = false := by
        simp only [HDR0, HDR1] at hh
        simp only [Bool.and_eq_false_iff, beq_eq_false_iff_ne]; exact hh
      simp only [decodeError, this, Bool.not_false, Bool.and_self, if_true]
      simp [decodeFrame, byteAt, hh, Status.code]
    · have hm' : (magic && !(h0 == (0xA5 : Byte) && h1 == (0xA5 : Byte))) = false := by
        simp only [HDR0, HDR1] at hm
        simp; intro hmg; simpa [hmg, not_or] using hm
      simp only [decodeError, hm', Bool.false_eq_true, if_false]
      unfold decodeFrame
      simp only [h6, hb0, hb1, List.length_cons]
      have hb' : byteAt (h0 :: h1 :: a :: b :: c :: d :: n :: rest) 0 = h0 ∧
        byteAt (h0 :: h1 :: a :: b :: c :: d :: n :: rest) 1 = h1 := ⟨rfl, rfl⟩
      rw [if_neg n7, hb'.1, hb'.2, if_neg hm]
      match hd : rest.drop n.toNat with
      | [] | [_] =>
        rw [hd] at hl; simp only [List.length_nil, List.length_cons] at hl
        by_cases h1 : rest.length + 1 + 1 + 1 + 1 + 1 + 1 + 1 < 7 + n.toNat
        · simp only [h1, if_true]; rfl
        · have h2 : rest.length + 1 + 1 + 1 + 1 + 1 + 1 + 1 < 9 + n.toNat := by omega
          simp only [h1, h2, if_false, if_true]; rfl
      | c1 :: c0 :: tl =>
        rw [hd] at hl; simp only [List.length_cons] at hl
        have h1 : ¬ rest.length + 1 + 1 + 1 + 1 + 1 + 1 + 1 < 7 + n.toNat := by omega
        have h2 : ¬ rest.length + 1 + 1 + 1 + 1 + 1 + 1 + 1 < 9 + n.toNat := by omega
        simp only [h1, h2, if_false]
        cases magic with
        | false => simp
        | true =>
          match tl with
          | [] | [_] =>
            simp only [List.length_nil, List.length_cons] at hl
            have h3 : rest.length + 1 + 1 + 1 + 1 + 1 + 1 + 1 < 11 + n.toNat := by omega
            simp [h3, Status.code]
          | t0 :: t1 :: tl' =>
            simp only [List.length_cons] at hl
            have h3 : ¬ rest.length + 1 + 1 + 1 + 1 + 1 + 1 + 1 < 11 + n.toNat := by omega
            by_cases ht : t0 = TRL0 ∧ t1 = TRL1
            · obtain ⟨rfl, rfl⟩ := ht; simp [h3, byteAt, TRL0, TRL1]
            · have ht' : t0 ≠ TRL0 ∨ t1 ≠ TRL1 := by rwa [not_and_or] at ht
              have ht2 : ¬ (t0 = (0x0A : Byte) ∧ t1 = (0x0D : Byte)) := ht
              simp only [h3, ht2, if_true, if_false]
              simp [byteAt, ht', Status.code]

theorem decodeError_eq_none_iff {p : Params} {buf : List Byte} :
    decodeError p.decodeCheckMagic buf = none ↔ ∃ f, Decodes p f ∧ f.bytes = buf := by
  rw [decodeError_eq]
  constructor
  · intro h
    match hd : decodeFrame p.decodeCheckMagic buf with
    | .error e => simp [hd] at h
    | .ok g =>
      obtain ⟨f, hf, hp, hm, -⟩ := decodeFrame_ok_iff.mp hd
      exact ⟨f, ⟨hp, hm⟩, hf⟩
  · rintro ⟨f, hf, rfl⟩
    rw [decodeFrame_of_decodes hf]

theorem decodeError_some {p : Params} {buf : List Byte} {e : Byte} (h : decodeError p.decodeCheckMagic buf = some e) :
    ∃ st, decodeFrame p.decodeCheckMagic buf = .error st ∧ st.code = e := by
  rw [decodeError_eq] at h
  match hd : decodeFrame p.decodeCheckMagic buf with
  | .error st => rw [hd] at h; exact ⟨st, rfl, Option.some.inj h⟩
  | .ok g => simp [hd] at h

/-! ### The checks -/

theorem sumGood_iff (p : Params) (f : WireFrame) : sumGood p f = true ↔
    (p.cksumWideCompare = true →
      byteSum (covered f) < 65536 ∧ twoByteValue f.cksumHi f.cksumLo + byteSum (covered f) = 65536) ∧
    (p.cksumWideCompare = false → twoByteValue f.cksumHi f.cksumLo = negSum (covered f)) := by
  unfold sumGood
  cases p.cksumWideCompare <;> simp

theorem frameOf_body {f : WireFrame} (h : f.payload.length ≤ 255) : (frameOf f.bytes).body = covered f := by
  rw [frameOf_bytes h]; rfl

theorem frameOf_found {f : WireFrame} (h : f.payload.length ≤ 255) :
    (frameOf f.bytes).found = be16 f.cksumHi f.cksumLo := by
  rw [frameOf_bytes h]

/-- VERIFY's verdict on a frame that decodes. -/
theorem verdict_ok {p : Params} {f : WireFrame} (h : f.payload.length ≤ 255) :
    (verdictOf p.cksumWideCompare (frameOf f.bytes)).ok = sumGood p f := by
  simp only [verdictOf, sumGood, frameOf_body h, frameOf_found h, twoByteValue_eq]
  have hc : (checksumOf (covered f) = be16 f.cksumHi f.cksumLo) ↔
      ((be16 f.cksumHi f.cksumLo).toNat = negSum (covered f)) := by
    rw [← BitVec.toNat_inj, toNat_checksumOf]; exact eq_comm
  have hw : (wideChecksum (covered f) = (be16 f.cksumHi f.cksumLo).toNat) ↔
      (byteSum (covered f) < 65536 ∧ (be16 f.cksumHi f.cksumLo).toNat + byteSum (covered f) = 65536) := by
    have hlt := (be16 f.cksumHi f.cksumLo).isLt
    by_cases hs : byteSum (covered f) < 65536
    · rw [wideChecksum_of_lt hs]; omega
    · have := le_wideChecksum_of_ge (l := covered f) (by omega); omega
  split
  · exact decide_eq_decide.mpr hw
  · exact decide_eq_decide.mpr hc

theorem verdict_expected {p : Params} {f : WireFrame} (h : f.payload.length ≤ 255) :
    (verdictOf p.cksumWideCompare (frameOf f.bytes)).expected = BitVec.ofNat 16 (negSum (covered f)) := by
  rw [ofNat_negSum]; simp only [verdictOf, frameOf_body h]

theorem verdict_found {p : Params} {f : WireFrame} (h : f.payload.length ≤ 255) :
    (verdictOf p.cksumWideCompare (frameOf f.bytes)).found
      = BitVec.ofNat 16 (twoByteValue f.cksumHi f.cksumLo) := by
  rw [ofNat_twoByteValue]; simp only [verdictOf, frameOf_found h]

theorem bne_eq_decide_ne {α : Type} [DecidableEq α] (a b : α) : (a != b) = decide (a ≠ b) := by
  by_cases h : a = b <;> simp [h]

theorem maskOf_eq (a b c d e : Bool) : maskOf a b c d e = checkMask a b c d e := by
  revert a b c d e; decide

theorem mask2_eq {p : Params} {f : WireFrame} (h : f.payload.length ≤ 255) :
    offlineQueryChecks p (frameOf f.bytes) (verdictOf p.cksumWideCompare (frameOf f.bytes)) = mask2 p f := by
  rw [offlineQueryChecks, verdict_ok h, frameOf_bytes h, mask2, maskOf_eq]
  simp only [bne_eq_decide_ne, ADDR_BROADCAST]; rfl

theorem mask4_eq {p : Params} {a : Byte} {f : WireFrame} (h : f.payload.length ≤ 255) :
    addressConfirmChecks p a (frameOf f.bytes) (verdictOf p.cksumWideCompare (frameOf f.bytes)) = mask4 p a f := by
  rw [addressConfirmChecks, verdict_ok h, frameOf_bytes h, mask4, maskOf_eq]
  have hk : (f.payload.head? != some p.ack) = decide (f.payload.head? ≠ some p.ack) := by
    by_cases h : f.payload.head? = some p.ack <;> simp [h]
  simp only [bne_eq_decide_ne, ADDR_CONTROLLER, hk]; rfl

theorem reasonByte_eq {m : BitVec 5} (h : m ≠ 0) : (reasonOf m).code = reasonByte m := by
  revert m; decide

/-! ### The table -/

theorem isMaxKey_iff {t : Table} (h : t.wf) {m : Nat} : IsMaxKey t m ↔ m = t.maxKey := by
  constructor
  · rintro ⟨h1, h2, h3⟩
    have hle : m ≤ t.maxKey := by
      rcases h1 with rfl | h1
      · exact t.one_le_maxKey
      · exact Table.le_maxKey ((Table.read_ne_free_iff h m).mp h1)
    rcases t.maxKey_eq_or_mem with hk | hk
    · omega
    · have := h3 _ ((Table.read_ne_free_iff h _).mpr hk); omega
  · rintro rfl
    refine ⟨?_, t.one_le_maxKey, fun a ha => Table.le_maxKey ((Table.read_ne_free_iff h a).mp ha)⟩
    rcases t.maxKey_eq_or_mem with hk | hk
    · exact .inl hk
    · exact .inr ((Table.read_ne_free_iff h _).mpr hk)

end Sys2Proof.Claims
end

