-- ==== Sys2Proof/Laws/Config.lean ====
section
/-! SUPPORT. The parameters: what their constraints say of the codes, the names and the families. -/

namespace Sys2Proof

open Machine

section
variable {p : Params} (h : p.Valid)
include h

/-- Rule R9: the control codes are distinct. -/
theorem control_codes_ne :
    CTRL_READ ≠ p.ctrlRegister ∧ CTRL_READ ≠ p.ctrlWrite ∧ CTRL_READ ≠ p.ctrlExecute ∧
    p.ctrlRegister ≠ p.ctrlWrite ∧ p.ctrlRegister ≠ p.ctrlExecute ∧ p.ctrlWrite ≠ p.ctrlExecute := by
  have := h.1
  simp only [Params.ControlsDistinct, List.nodup_cons, List.mem_cons, List.not_mem_nil, or_false, not_or] at this
  tauto

/-- The Register family's codes, without their entries' ids, are distinct. -/
theorem register_codes_nodup : (p.regNamed ++ p.regExtra.map (·.code)).Nodup := h.2.1.2.2.2.2.2.2.2.1

theorem register_ids_nodup : (p.regExtra.map (·.nameId)).Nodup := h.2.1.2.2.2.2.2.2.2.2

theorem register_extra_valid : ∀ e ∈ p.regExtra, e.Valid p.tReg p.regResponses := h.2.1.2.2.2.2.2.2.1

theorem read_codes_nodup : (p.readNamed ++ p.readExtra.map (·.code)).Nodup := h.2.2.1.2.2.2.1

theorem read_ids_nodup : (p.readExtra.map (·.nameId)).Nodup := h.2.2.1.2.2.2.2

theorem read_extra_valid : ∀ e ∈ p.readExtra, e.Valid p.tRead p.readResponses := h.2.2.1.2.2.1

/-- The named codes of the Register family are distinct (rule R9). -/
theorem register_codes_ne :
    p.fnReRegister ≠ p.fnOfflineQuery ∧ p.fnReRegister ≠ p.fnSendRegisterAddress ∧
    p.fnReRegister ≠ p.fnOfflineQueryReply ∧ p.fnReRegister ≠ p.fnAddressConfirm ∧
    p.fnOfflineQuery ≠ p.fnSendRegisterAddress ∧ p.fnOfflineQuery ≠ p.fnOfflineQueryReply ∧
    p.fnOfflineQuery ≠ p.fnAddressConfirm ∧ p.fnSendRegisterAddress ≠ p.fnOfflineQueryReply ∧
    p.fnSendRegisterAddress ≠ p.fnAddressConfirm ∧ p.fnOfflineQueryReply ≠ p.fnAddressConfirm := by
  have := (List.nodup_append.mp (register_codes_nodup h)).1
  simp only [Params.regNamed, List.cons_append, List.nodup_cons, List.mem_cons, List.nil_append, not_or] at this
  tauto

/-- The optional ReRegisterReply's code is none of the others (rule R9). -/
theorem reRegisterReply_code_ne {c : Byte} (hc : p.fnReRegisterReply = some c) :
    p.fnReRegister ≠ c ∧ p.fnOfflineQuery ≠ c ∧ p.fnSendRegisterAddress ≠ c ∧ p.fnOfflineQueryReply ≠ c ∧
    p.fnAddressConfirm ≠ c := by
  have := (List.nodup_append.mp (register_codes_nodup h)).1
  simp only [Params.regNamed, hc, Option.toList_some, List.cons_append, List.nodup_cons, List.mem_cons,
    List.nil_append, List.not_mem_nil, or_false, not_or] at this
  tauto

theorem read_codes_ne : FN_QUERY_NORMAL_INFO ≠ p.fnQueryNormalInfoReply := by
  have := (List.nodup_append.mp (read_codes_nodup h)).1
  simp only [Params.readNamed, List.nodup_cons, List.mem_cons, List.not_mem_nil, or_false] at this
  exact this.1

end

/-! ### The families -/

theorem familyOf_register {p : Params} : familyOf p p.ctrlRegister = .register := by simp [familyOf]

theorem familyOf_read {p : Params} (h : p.Valid) : familyOf p 0x31 = .read := by
  have : (0x31 : Byte) ≠ p.ctrlRegister := (control_codes_ne h).1
  rw [familyOf, if_neg this]; rfl

theorem familyOf_other {p : Params} {c : Byte} (h1 : c ≠ p.ctrlRegister) (h2 : c ≠ 0x31) : familyOf p c =
    if c = p.ctrlWrite then .write else if c = p.ctrlExecute then .execute else .unknown := by
  rw [familyOf, if_neg h1, if_neg (by exact h2)]

theorem familyOf_register_iff {p : Params} {c : Byte} : familyOf p c = .register ↔ c = p.ctrlRegister := by
  unfold familyOf
  constructor
  · intro h
    by_contra hc
    simp only [hc, if_false] at h
    split at h <;> try split at h
    all_goals try split at h
    all_goals cases h
  · rintro rfl; simp

end Sys2Proof
end

