-- ==== Sys2Proof/Laws/PerInstr.lean ====
section
/-! SUPPORT. Per instruction: its bytes stand in its own row of the opcode table, one lemma per constructor. -/

namespace Sys2Proof.Laws.OpcodeRow

open Sys2Proof.Machine

/-- A command of the row with opcode `op` (rule R87). -/
def Command (i : Instr) (op : Byte) : Prop :=
  (Sys2Proof.encode i).port = none ∧ (Sys2Proof.encode i).bytes.head? = some op

/-- A frame at port `w` whose control and function codes, at offsets 4 and 5, are the row's (rules R70, R78). -/
def Frame (i : Instr) (w ctrl : Byte) (fn : Byte → Prop) : Prop :=
  (Sys2Proof.encode i).port = some w ∧ (Sys2Proof.encode i).bytes[4]? = some ctrl ∧
    ∃ c, (Sys2Proof.encode i).bytes[5]? = some c ∧ fn c

/-- The row an instruction's bytes stand in, under the parameters `p`. -/
def Row (p : Params) (i : Instr) : Prop :=
  match i with
  | .encode _ _ _ _ _ => Command i 0x01
  | .checksum _ => Command i 0x02
  | .decode _ => Command i 0x03
  | .verify _ => Command i 0x04
  | .lookup _ _ => Command i 0x10
  | .functionName _ _ _ => Command i 0x11
  | .codeOf _ _ => Command i 0x12
  | .responseOf _ _ => Command i 0x13
  | .fsmReset _ => Command i 0x20
  | .fsmGo _ => Command i 0x21
  | .fsmResult _ _ _ => Command i 0x22
  | .fsmRead _ _ => Command i 0x23
  | .filterSerial _ => Command i 0x30
  | .tableReset => Command i 0x31
  | .illegalCommand bytes => Sys2Proof.encode i = ⟨none, bytes⟩ ∧ legalForm bytes = false
  | .queryNormalInfo w _ => Frame i w 0x31 (fun fn => fn = 0x42)
  | .queryNormalInfoReply w _ => Frame i w 0x31 (fun fn => fn = p.fnQueryNormalInfoReply)
  | .reRegister w _ => Frame i w p.ctrlRegister (fun fn => fn = p.fnReRegister)
  | .offlineQuery w _ => Frame i w p.ctrlRegister (fun fn => fn = p.fnOfflineQuery)
  | .sendRegisterAddress w _ => Frame i w p.ctrlRegister (fun fn => fn = p.fnSendRegisterAddress)
  | .offlineQueryReply w _ => Frame i w p.ctrlRegister (fun fn => fn = p.fnOfflineQueryReply)
  | .addressConfirm w _ => Frame i w p.ctrlRegister (fun fn => fn = p.fnAddressConfirm)
  | .reRegisterReply w _ => Frame i w p.ctrlRegister (fun fn => p.fnReRegisterReply = some fn)
  | .readFamilyOther w _ => Frame i w 0x31 (fun fn => fn ∉ p.readNamed)
  | .registerFamilyOther w _ => Frame i w p.ctrlRegister (fun fn => fn ∉ p.regNamed)
  | .writeFamily w _ => Frame i w p.ctrlWrite (fun _ => True)
  | .executeFamily w _ => Frame i w p.ctrlExecute (fun _ => True)
  | .unknownControl w _ =>
    ∃ c, Frame i w c (fun _ => True) ∧ c ∉ [p.ctrlRegister, 0x31, p.ctrlWrite, p.ctrlExecute]

/-- Rules R70, R78 to R82 and R87: a well-formed instruction's bytes stand in its row of the table. -/
def Statement (i : Instr) : Prop := ∀ p : Params, p.Valid → i.wf p = true → Row p i

theorem frame_codes (f : WireFrame) : f.bytes[4]? = some f.ctrl ∧ f.bytes[5]? = some f.fn := ⟨rfl, rfl⟩

theorem ctrl_of_family {p : Params} {c : Byte} :
    (familyOf p c = .register → c = p.ctrlRegister) ∧ (familyOf p c = .read → c = 0x31) ∧
    (familyOf p c = .write → c = p.ctrlWrite) ∧ (familyOf p c = .execute → c = p.ctrlExecute) ∧
    (familyOf p c = .unknown → c ∉ [p.ctrlRegister, 0x31, p.ctrlWrite, p.ctrlExecute]) := by
  unfold familyOf
  by_cases h1 : c = p.ctrlRegister
  · simp [h1]
  by_cases h2 : c = CTRL_READ
  · rw [if_neg h1, if_pos h2]; subst h2; simp [CTRL_READ]
  have h2' : c ≠ 0x31 := h2
  by_cases h3 : c = p.ctrlWrite
  · rw [if_neg h1, if_neg h2, if_pos h3]; simp [h3]
  by_cases h4 : c = p.ctrlExecute
  · rw [if_neg h1, if_neg h2, if_neg h3, if_pos h4]; simp [h4]
  rw [if_neg h1, if_neg h2, if_neg h3, if_neg h4]
  simp only [List.mem_cons, List.not_mem_nil, or_false, not_or]
  exact ⟨by simp, by simp, by simp, by simp, fun _ => ⟨h1, h2', h3, h4⟩⟩

theorem encode (src : Byte) (dst : Byte) (ctrl : Byte) (fn : Byte) (payload : List Byte) : Statement (.encode src dst ctrl fn payload) := fun _ _ _ => ⟨rfl, rfl⟩

theorem checksum (data : List Byte) : Statement (.checksum data) := fun _ _ _ => ⟨rfl, rfl⟩

theorem decode (data : List Byte) : Statement (.decode data) := fun _ _ _ => ⟨rfl, rfl⟩

theorem verify (data : List Byte) : Statement (.verify data) := fun _ _ _ => ⟨rfl, rfl⟩

theorem lookup (ctrl : Byte) (fn : Byte) : Statement (.lookup ctrl fn) := fun _ _ _ => ⟨rfl, rfl⟩

theorem functionName (family : Byte) (fn : Byte) (direction : Byte) : Statement (.functionName family fn direction) := fun _ _ _ => ⟨rfl, rfl⟩

theorem codeOf (family : Byte) (nameId : Byte) : Statement (.codeOf family nameId) := fun _ _ _ => ⟨rfl, rfl⟩

theorem responseOf (family : Byte) (nameId : Byte) : Statement (.responseOf family nameId) := fun _ _ _ => ⟨rfl, rfl⟩

theorem fsmReset (w : Byte) : Statement (.fsmReset w) := fun _ _ _ => ⟨rfl, rfl⟩

theorem fsmGo (w : Byte) : Statement (.fsmGo w) := fun _ _ _ => ⟨rfl, rfl⟩

theorem fsmResult (w : Byte) (present : Byte) (data : List Byte) : Statement (.fsmResult w present data) := fun _ _ _ => ⟨rfl, rfl⟩

theorem fsmRead (w : Byte) (reg : Byte) : Statement (.fsmRead w reg) := fun _ _ _ => ⟨rfl, rfl⟩

theorem filterSerial (data : List Byte) : Statement (.filterSerial data) := fun _ _ _ => ⟨rfl, rfl⟩

theorem tableReset : Statement (.tableReset) := fun _ _ _ => ⟨rfl, rfl⟩

theorem illegalCommand (bytes : List Byte) : Statement (.illegalCommand bytes) := by
  intro p _ h
  exact ⟨rfl, by simpa [Instr.wf] using h⟩

theorem queryNormalInfo (w : Byte) (f : WireFrame) : Statement (.queryNormalInfo w f) := by
  intro p _ h
  simp only [Instr.wf, WireFrame.inFamily, Bool.and_eq_true, decide_eq_true_iff] at h
  exact ⟨rfl, by rw [← ctrl_of_family.2.1 h.1.2]; rfl, f.fn, rfl, h.2⟩

theorem queryNormalInfoReply (w : Byte) (f : WireFrame) : Statement (.queryNormalInfoReply w f) := by
  intro p _ h
  simp only [Instr.wf, WireFrame.inFamily, Bool.and_eq_true, decide_eq_true_iff] at h
  exact ⟨rfl, by rw [← ctrl_of_family.2.1 h.1.2]; rfl, f.fn, rfl, h.2⟩

theorem reRegister (w : Byte) (f : WireFrame) : Statement (.reRegister w f) := by
  intro p _ h
  simp only [Instr.wf, WireFrame.inFamily, Bool.and_eq_true, decide_eq_true_iff] at h
  exact ⟨rfl, by rw [← ctrl_of_family.1 h.1.2]; rfl, f.fn, rfl, h.2⟩

theorem offlineQuery (w : Byte) (f : WireFrame) : Statement (.offlineQuery w f) := by
  intro p _ h
  simp only [Instr.wf, WireFrame.inFamily, Bool.and_eq_true, decide_eq_true_iff] at h
  exact ⟨rfl, by rw [← ctrl_of_family.1 h.1.2]; rfl, f.fn, rfl, h.2⟩

theorem sendRegisterAddress (w : Byte) (f : WireFrame) : Statement (.sendRegisterAddress w f) := by
  intro p _ h
  simp only [Instr.wf, WireFrame.inFamily, Bool.and_eq_true, decide_eq_true_iff] at h
  exact ⟨rfl, by rw [← ctrl_of_family.1 h.1.2]; rfl, f.fn, rfl, h.2⟩

theorem offlineQueryReply (w : Byte) (f : WireFrame) : Statement (.offlineQueryReply w f) := by
  intro p _ h
  simp only [Instr.wf, WireFrame.inFamily, Bool.and_eq_true, decide_eq_true_iff] at h
  exact ⟨rfl, by rw [← ctrl_of_family.1 h.1.2]; rfl, f.fn, rfl, h.2⟩

theorem addressConfirm (w : Byte) (f : WireFrame) : Statement (.addressConfirm w f) := by
  intro p _ h
  simp only [Instr.wf, WireFrame.inFamily, Bool.and_eq_true, decide_eq_true_iff] at h
  exact ⟨rfl, by rw [← ctrl_of_family.1 h.1.2]; rfl, f.fn, rfl, h.2⟩

theorem reRegisterReply (w : Byte) (f : WireFrame) : Statement (.reRegisterReply w f) := by
  intro p _ h
  simp only [Instr.wf, WireFrame.inFamily, Bool.and_eq_true, decide_eq_true_iff] at h
  exact ⟨rfl, by rw [← ctrl_of_family.1 h.1.2]; rfl, f.fn, rfl, h.2⟩

theorem readFamilyOther (w : Byte) (f : WireFrame) : Statement (.readFamilyOther w f) := by
  intro p _ h
  simp only [Instr.wf, WireFrame.inFamily, namedRead, Bool.and_eq_true, decide_eq_true_iff, Bool.not_eq_true',
    decide_eq_false_iff_not] at h
  exact ⟨rfl, by rw [← ctrl_of_family.2.1 h.1.2]; rfl, f.fn, rfl, h.2⟩

theorem registerFamilyOther (w : Byte) (f : WireFrame) : Statement (.registerFamilyOther w f) := by
  intro p _ h
  simp only [Instr.wf, WireFrame.inFamily, namedRegister, Bool.and_eq_true, decide_eq_true_iff, Bool.not_eq_true',
    decide_eq_false_iff_not] at h
  exact ⟨rfl, by rw [← ctrl_of_family.1 h.1.2]; rfl, f.fn, rfl, h.2⟩

theorem writeFamily (w : Byte) (f : WireFrame) : Statement (.writeFamily w f) := by
  intro p _ h
  simp only [Instr.wf, WireFrame.inFamily, Bool.and_eq_true, decide_eq_true_iff] at h
  exact ⟨rfl, by rw [← ctrl_of_family.2.2.1 h.2]; rfl, f.fn, rfl, trivial⟩

theorem executeFamily (w : Byte) (f : WireFrame) : Statement (.executeFamily w f) := by
  intro p _ h
  simp only [Instr.wf, WireFrame.inFamily, Bool.and_eq_true, decide_eq_true_iff] at h
  exact ⟨rfl, by rw [← ctrl_of_family.2.2.2.1 h.2]; rfl, f.fn, rfl, trivial⟩

theorem unknownControl (w : Byte) (f : WireFrame) : Statement (.unknownControl w f) := by
  intro p _ h
  simp only [Instr.wf, WireFrame.inFamily, Bool.and_eq_true, decide_eq_true_iff] at h
  exact ⟨f.ctrl, ⟨rfl, rfl, f.fn, rfl, trivial⟩, ctrl_of_family.2.2.2.2 h.2⟩

end Sys2Proof.Laws.OpcodeRow
end

