-- ==== Sys2Proof/Laws/Registry.lean ====
section
/-! SUPPORT. The registry: look-ups in a table without repeats, and the two tables' codes and ids under the parameters' constraints. -/

namespace Sys2Proof.Machine

/-! ### Look-ups -/

theorem find?_of_nodup {α β : Type} [DecidableEq β] {g : α → β} {l : List α} (h : (l.map g).Nodup) {x : α}
    (hx : x ∈ l) : l.find? (fun e => g e = g x) = some x := by
  induction l with
  | nil => simp at hx
  | cons y l ih =>
    rw [List.map_cons, List.nodup_cons] at h
    rcases List.mem_cons.mp hx with rfl | hx
    · simp
    · have : g y ≠ g x := fun e => h.1 (e ▸ List.mem_map_of_mem hx)
      simp [this, ih h.2 hx]

theorem nameOf_of_mem {tbl : List (Byte × Byte)} (h : (tbl.map Prod.fst).Nodup) {c id : Byte} (hm : (c, id) ∈ tbl) :
    nameOf tbl c = id := by
  have := find?_of_nodup (g := Prod.fst) h hm
  simp only at this
  simp [nameOf, this]

theorem nameOf_of_not_mem {tbl : List (Byte × Byte)} {c : Byte} (h : ∀ id, (c, id) ∉ tbl) : nameOf tbl c = 0x00 := by
  unfold nameOf
  split
  · next e he =>
    have hm := List.mem_of_find?_eq_some he
    have hc := List.find?_some he
    simp only [decide_eq_true_iff] at hc
    exact absurd (hc ▸ hm) (h e.2)
  · rfl

theorem codeOfName_of_mem {tbl : List (Byte × Byte)} (h : (tbl.map Prod.snd).Nodup) {c id : Byte} (h0 : id ≠ 0x00)
    (hm : (c, id) ∈ tbl) : codeOfName tbl id = some c := by
  have := find?_of_nodup (g := Prod.snd) h hm
  simp only at this
  rw [codeOfName, if_neg (by exact h0), this]

theorem codeOfName_of_not_mem {tbl : List (Byte × Byte)} {id : Byte} (h : ∀ c, (c, id) ∉ tbl) :
    codeOfName tbl id = none := by
  unfold codeOfName
  split
  · rfl
  · split
    · next e he =>
      have hm := List.mem_of_find?_eq_some he
      have hc := List.find?_some he
      simp only [decide_eq_true_iff] at hc
      exact absurd (hc ▸ hm) (h e.1)
    · rfl

theorem responseOfName_of_mem {pairs : List (Byte × Byte)} (h : (pairs.map Prod.fst).Nodup) {id r : Byte}
    (hm : (id, r) ∈ pairs) : responseOfName pairs id = some r := by
  have := find?_of_nodup (g := Prod.fst) h hm
  simp only at this
  simp [responseOfName, this]

theorem responseOfName_of_not_mem {pairs : List (Byte × Byte)} {id : Byte} (h : ∀ r, (id, r) ∉ pairs) :
    responseOfName pairs id = none := by
  unfold responseOfName
  split
  · next e he =>
    have hm := List.mem_of_find?_eq_some he
    have hc := List.find?_some he
    simp only [decide_eq_true_iff] at hc
    exact absurd (hc ▸ hm) (h e.2)
  · rfl

/-! ### The tables -/

section
variable {p : Params} (h : p.Valid)
include h

theorem register_table_codes_nodup : ((nameTable p .register).map Prod.fst).Nodup := by
  have := register_codes_nodup h
  simpa [nameTable, Params.regNamed, Function.comp_def] using this

theorem read_table_codes_nodup : ((nameTable p .read).map Prod.fst).Nodup := by
  have := read_codes_nodup h
  simpa [nameTable, Params.readNamed, Function.comp_def] using this

end

/-- An extra entry's name id is none of the fixed ones (rule R78). -/
theorem fixed_id_not_extra {t : Byte} {rs : List Byte} {e : Extra} (he : e.Valid t rs) :
    e.nameId ∉ [0x00#8, 0x01, 0x02, 0x03, 0x81, 0x82, 0x83, 0x11, 0x91] := by
  have hr : (0x20#8 ≤ e.nameId ∧ e.nameId ≤ 0x7F#8) ∨ (0xA0#8 ≤ e.nameId ∧ e.nameId ≤ 0xFE#8) := by
    rcases he with ⟨h1, h2, -⟩ | ⟨h1, h2, -⟩
    · exact .inl ⟨h1, h2⟩
    · exact .inr ⟨h1, h2⟩
  rcases hr with ⟨h1, h2⟩ | ⟨h1, h2⟩ <;>
  · intro hm
    simp only [List.mem_cons, List.not_mem_nil, or_false] at hm
    rcases hm with h | h | h | h | h | h | h | h | h <;> rw [h] at h1 h2 <;> revert h1 h2 <;> decide

/-- The Register family's name ids are distinct, and none is the absent id. -/
theorem register_table_ids_nodup {p : Params} (h : p.Valid) : ((nameTable p .register).map Prod.snd).Nodup := by
  have hn := register_ids_nodup h
  have hf : ∀ e ∈ p.regExtra, e.nameId ∉ [0x00#8, 0x01, 0x02, 0x03, 0x81, 0x82, 0x83, 0x11, 0x91] :=
    fun e he => fixed_id_not_extra (register_extra_valid h e he)
  have hd : (nameTable p .register).map Prod.snd
      = ([0x01, 0x02, 0x03, 0x81, 0x82] ++ p.fnReRegisterReply.toList.map fun _ => 0x83)
        ++ p.regExtra.map (·.nameId) := by
    simp [nameTable, Function.comp_def, ID_REREGISTER, ID_OFFLINE_QUERY, ID_SEND_REGISTER_ADDRESS,
      ID_OFFLINE_QUERY_REPLY, ID_ADDRESS_CONFIRM, ID_REREGISTER_REPLY]
  rw [hd, List.nodup_append]
  refine ⟨by cases p.fnReRegisterReply <;> simp, hn, ?_⟩
  intro a ha b hb hab
  subst hab
  obtain ⟨e, he, rfl⟩ := List.mem_map.mp hb
  refine hf e he ?_
  cases hr : p.fnReRegisterReply <;> simp [hr] at ha <;> simp <;> tauto

theorem read_table_ids_nodup {p : Params} (h : p.Valid) : ((nameTable p .read).map Prod.snd).Nodup := by
  have hn := read_ids_nodup h
  have hf : ∀ e ∈ p.readExtra, e.nameId ∉ [0x00#8, 0x01, 0x02, 0x03, 0x81, 0x82, 0x83, 0x11, 0x91] :=
    fun e he => fixed_id_not_extra (read_extra_valid h e he)
  have hd : (nameTable p .read).map Prod.snd = [0x11, 0x91] ++ p.readExtra.map (·.nameId) := by
    simp [nameTable, Function.comp_def, ID_QUERY_NORMAL_INFO, ID_QUERY_NORMAL_INFO_REPLY]
  rw [hd, List.nodup_append]
  refine ⟨by decide, hn, ?_⟩
  intro a ha b hb hab
  subst hab
  obtain ⟨e, he, rfl⟩ := List.mem_map.mp hb
  exact hf e he (by simp at ha ⊢; tauto)

/-- No table names an entry with the absent id. -/
theorem table_id_ne_absent {p : Params} (h : p.Valid) {F : Family} {c id : Byte} (hm : (c, id) ∈ nameTable p F) :
    id ≠ 0x00 := by
  rintro rfl
  cases F with
  | register =>
    simp [nameTable, ID_REREGISTER, ID_OFFLINE_QUERY, ID_SEND_REGISTER_ADDRESS, ID_OFFLINE_QUERY_REPLY,
      ID_ADDRESS_CONFIRM, ID_REREGISTER_REPLY] at hm
    obtain ⟨e, he, -, h0⟩ := hm
    exact fixed_id_not_extra (register_extra_valid h e he) (by simp [h0])
  | read =>
    simp [nameTable, ID_QUERY_NORMAL_INFO, ID_QUERY_NORMAL_INFO_REPLY] at hm
    obtain ⟨e, he, -, h0⟩ := hm
    exact fixed_id_not_extra (read_extra_valid h e he) (by simp [h0])
  | write | execute | unknown => simp [nameTable] at hm

/-! ### The pairs of rule R137 -/

theorem register_pairs_fst {p : Params} : (pairTable p .register).map Prod.fst =
    (p.fnReRegisterReply.toList.map fun _ => ID_REREGISTER) ++ [ID_OFFLINE_QUERY, ID_SEND_REGISTER_ADDRESS]
      ++ (extraPairs p.regExtra).map Prod.fst := by
  simp [pairTable]

theorem extraPairs_sublist (es : List Extra) : ((extraPairs es).map Prod.fst).Sublist (es.map (·.nameId)) := by
  induction es with
  | nil => simp [extraPairs]
  | cons e es ih =>
    simp only [extraPairs, List.flatMap_cons, List.map_append, List.map_cons] at ih ⊢
    cases he : e.response with
    | none => simp at ih ⊢; exact ih.cons _
    | some r => simp at ih ⊢; exact ih

theorem mem_extraPairs {es : List Extra} {a r : Byte} :
    (a, r) ∈ extraPairs es ↔ ∃ e ∈ es, e.nameId = a ∧ e.response = some r := by
  simp only [extraPairs, List.mem_flatMap, List.mem_map, Option.mem_toList, Prod.mk.injEq]
  constructor
  · rintro ⟨e, he, r', hr, h1, h2⟩; exact ⟨e, he, h1, by rw [hr, h2]⟩
  · rintro ⟨e, he, h1, h2⟩; exact ⟨e, he, r, h2, h1, rfl⟩

theorem register_pairs_nodup {p : Params} (h : p.Valid) : ((pairTable p .register).map Prod.fst).Nodup := by
  rw [register_pairs_fst, List.nodup_append]
  refine ⟨by cases p.fnReRegisterReply <;> simp [ID_OFFLINE_QUERY, ID_SEND_REGISTER_ADDRESS, ID_REREGISTER],
    (extraPairs_sublist _).nodup (register_ids_nodup h), ?_⟩
  intro a ha b hb hab
  subst hab
  obtain ⟨e, he, rfl⟩ := List.mem_map.mp ((extraPairs_sublist _).subset hb)
  refine fixed_id_not_extra (register_extra_valid h e he) ?_
  cases hr : p.fnReRegisterReply <;>
    simp [hr, ID_OFFLINE_QUERY, ID_SEND_REGISTER_ADDRESS, ID_REREGISTER] at ha <;> simp <;> tauto

theorem read_pairs_nodup {p : Params} (h : p.Valid) : ((pairTable p .read).map Prod.fst).Nodup := by
  have : (pairTable p .read).map Prod.fst = [ID_QUERY_NORMAL_INFO] ++ (extraPairs p.readExtra).map Prod.fst := by
    simp [pairTable]
  rw [this, List.nodup_append]
  refine ⟨by simp, (extraPairs_sublist _).nodup (read_ids_nodup h), ?_⟩
  intro a ha b hb hab
  subst hab
  obtain ⟨e, he, rfl⟩ := List.mem_map.mp ((extraPairs_sublist _).subset hb)
  refine fixed_id_not_extra (read_extra_valid h e he) ?_
  simp [ID_QUERY_NORMAL_INFO] at ha; simp [ha]

/-- No response id is paired (rule R137). -/
theorem response_id_not_paired {p : Params} (h : p.Valid) {F : Family} {id r : Byte} (hid : 0x80#8 ≤ id) :
    (id, r) ∉ pairTable p F := by
  have key : ∀ es : List Extra, ∀ t rs, (∀ e ∈ es, e.Valid t rs) → (id, r) ∉ extraPairs es := by
    intro es t rs hv hm
    obtain ⟨e, he, rfl, hr⟩ := mem_extraPairs.mp hm
    rcases hv e he with ⟨h1, h2, -⟩ | ⟨h1, h2, -, h4⟩
    · have := BitVec.le_trans hid h2; revert this; decide
    · rw [h4] at hr; cases hr
  cases F with
  | register =>
    have := key _ _ _ (register_extra_valid h)
    simp only [pairTable, List.mem_append, List.mem_cons, this, or_false, List.not_mem_nil, Prod.mk.injEq,
      List.mem_map]
    rintro (⟨_, _, rfl, _⟩ | ⟨rfl, _⟩ | ⟨rfl, _⟩) <;> revert hid <;> decide
  | read =>
    have := key _ _ _ (read_extra_valid h)
    simp only [pairTable, List.mem_append, List.mem_cons, this, or_false, List.not_mem_nil, Prod.mk.injEq]
    rintro ⟨rfl, _⟩ ; revert hid ; decide
  | write | execute | unknown => simp [pairTable]

end Sys2Proof.Machine
end

