-- ==== Sys2Proof/Laws/Step.lean ====
section
/-! SUPPORT. What a step can do: to the parameters, to each worker, to the table. One lemma each, cited by whatever is said of every step. -/

namespace Sys2Proof.Machine

theorem worker?_of_frame? {i : Instr} {w : Byte} {f : WireFrame} (h : frame? i = some (w, f)) : i.worker? = some w := by
  cases i <;> simp [frame?] at h <;> obtain ⟨rfl, rfl⟩ := h <;> rfl

/-- A step waits, resets the block, or runs the next input's instruction. -/
theorem step_cases {s t : State} (h : step s = .next t) :
    (s.inbox = [] ∧ t = s) ∨
    (∃ i rest, s.inbox = i :: rest ∧ portWord s.params i = none ∧ t = State.blockReset { s with inbox := rest }) ∨
    (∃ i rest word, s.inbox = i :: rest ∧ portWord s.params i = some word ∧
      exec (decode s.params word) { s with inbox := rest } = .next t) := by
  unfold step at h
  split at h
  · next hi => injection h with h; exact .inl ⟨hi, h.symm⟩
  · next i rest hi =>
    split at h
    · next hw => injection h with h; exact .inr (.inl ⟨i, rest, hi, hw, h.symm⟩)
    · next word hw => exact .inr (.inr ⟨i, rest, word, hi, hw, h⟩)

/-- Every step answers a next state. -/
theorem step_next (s : State) : ∃ t, step s = .next t := by
  unfold step
  split
  · exact ⟨_, rfl⟩
  · split
    · exact ⟨_, rfl⟩
    · obtain ⟨t, ht, -⟩ := exec_effect (decode s.params _) { s with inbox := _ }
      exact ⟨t, ht⟩

section
variable {i : Instr} {s t : State}

/-- No instruction changes the parameters, the number of workers or what waits at the ports. -/
theorem effect_params (h : Effect s i t) : t.params = s.params ∧ t.nw = s.nw ∧ t.inbox = s.inbox := by
  cases h with
  | answers => exact ⟨rfl, rfl, rfl⟩
  | went w x t h hp ht => cases ht <;> simp [State.nw]
  | delivered w p d x r t h hr ht => cases ht <;> simp [State.nw]
  | received i w f x t hi h ht => cases ht <;> simp [State.nw]
  | lost => exact ⟨rfl, rfl, rfl⟩
  | workerReset w x h => simp [State.resetWorker, State.nw]
  | tableReset => exact ⟨rfl, rfl, rfl⟩

/-- An instruction changes no worker but the one it is for. -/
theorem effect_workers (h : Effect s i t) {n : Nat} (hn : ∀ w, i.worker? = some w → w.toNat ≠ n) :
    t.workers[n]? = s.workers[n]? := by
  cases h with
  | answers => rfl
  | went w x t h hp ht => have := hn w rfl; cases ht <;> simp [this]
  | delivered w p d x r t h hr ht => have := hn w rfl; cases ht <;> simp [this]
  | received i w f x t hi h ht => have := hn w (worker?_of_frame? hi); cases ht <;> simp [this]
  | lost => rfl
  | workerReset w x h => have := hn w rfl; simp [State.resetWorker, this]
  | tableReset => rfl

/-- The table changes in three ways: emptied, one address reserved, one address recorded. -/
theorem effect_table (h : Effect s i t) :
    t.table = s.table ∨
    (i = .tableReset ∧ t = State.answer { s with table := [] } .ok []) ∨
    (∃ w x, i = .fsmGo w ∧ s.worker? w = some x ∧ x.state = .awaitingSerial ∧ s.table.maxKey ≤ 252 ∧
      t.table = s.table.write (s.table.maxKey + 1) .reserved ∧ t.result = [0x00]) ∨
    (∃ w x, s.worker? w = some x ∧ x.pend = .sendRegisterAddress ∧ i.worker? = some w ∧
      t.table = s.table.record x.addr.toNat (filterSerial s.params x.raw) ∧ t.result = [0x00]) := by
  cases h with
  | answers => exact .inl rfl
  | went w x t h hp ht =>
    cases ht with
    | allocated hs hl hk => exact .inr (.inr (.inl ⟨w, x, rfl, h, hs, hk, rfl, rfl⟩))
    | _ => exact .inl rfl
  | delivered w p d x r t h hr ht =>
    cases ht with
    | confirmed b f hh hf hm => exact .inr (.inr (.inr ⟨w, x, h, hh, rfl, rfl, rfl⟩))
    | _ => exact .inl rfl
  | received i w f x t hi h ht =>
    cases ht with
    | confirmed b f hh hf hm => exact .inr (.inr (.inr ⟨w, x, h, hh, worker?_of_frame? hi, rfl, rfl⟩))
    | _ => exact .inl rfl
  | lost => exact .inl rfl
  | workerReset w x h => exact .inl rfl
  | tableReset => exact .inr (.inl ⟨rfl, rfl⟩)

/-- What happens to one worker: nothing, its reset, a step of its FSM, or the delivery of its answer. -/
theorem worker_effect (h : Effect s i t) {w : Byte} {x y : Worker} (hx : s.workers[w.toNat]? = some x)
    (hy : t.workers[w.toNat]? = some y) :
    y = x ∨ (i = .fsmReset w ∧ y = Worker.reset) ∨ (i = .fsmGo w ∧ x.pend = .none ∧ GoOutcome s w x t) ∨
    (((∃ present data, i = .fsmResult w present data) ∨ ∃ f, frame? i = some (w, f)) ∧
      ∃ rd r, Delivery { s with reading := rd } w x r t) := by
  have same : ∀ {s' : State}, s'.workers = s.workers → s'.workers[w.toNat]? = some y → y = x := by
    intro s' hs' h'
    rw [hs', hx] at h'
    exact (Option.some.inj h').symm
  have ofw : ∀ {v : Byte} {z : Worker}, v = w → s.worker? v = some z → z = x := by
    rintro v z rfl hz
    rw [worker?_eq, hx] at hz
    exact (Option.some.inj hz).symm
  have other : ∀ {v : Byte}, v ≠ w → i.worker? = some v → y = x := by
    intro v hv hi
    have := effect_workers h (n := w.toNat) (fun u hu e => hv (by
      rw [hi] at hu; injection hu with hu; subst hu; exact BitVec.eq_of_toNat_eq e))
    rw [hx, hy] at this
    exact Option.some.inj this
  cases h with
  | answers => exact .inl (same rfl hy)
  | went v z t hz hp ht =>
    by_cases hv : v = w
    · obtain rfl := ofw hv hz; subst hv; exact .inr (.inr (.inl ⟨rfl, hp, ht⟩))
    · exact .inl (other hv rfl)
  | delivered v p d z r t hz hr ht =>
    by_cases hv : v = w
    · obtain rfl := ofw hv hz; subst hv; exact .inr (.inr (.inr ⟨.inl ⟨p, d, rfl⟩, s.reading, r, ht⟩))
    · exact .inl (other hv rfl)
  | received i v f z t hi hz ht =>
    by_cases hv : v = w
    · obtain rfl := ofw hv hz; subst hv; exact .inr (.inr (.inr ⟨.inr ⟨f, hi⟩, _, _, ht⟩))
    · exact .inl (other hv (worker?_of_frame? hi))
  | lost => exact .inl (same rfl hy)
  | workerReset v z hz =>
    by_cases hv : v = w
    · subst hv
      have hlt : v.toNat < s.workers.length := (List.getElem?_eq_some_iff.mp hx).1
      simp [State.resetWorker, hlt] at hy
      exact .inr (.inl ⟨rfl, hy.symm⟩)
    · exact .inl (other hv rfl)
  | tableReset => exact .inl (same rfl hy)

end

/-- The registers of the worker after a delivery. -/
theorem delivery_pend {s t : State} {w : Byte} {x y : Worker} {r : Option (List Byte)} (h : Delivery s w x r t)
    (hx : s.workers[w.toNat]? = some x) (hy : t.workers[w.toNat]? = some y) : y.pend = .none ∧ y.tx = x.tx := by
  have hlt : w.toNat < s.workers.length := (List.getElem?_eq_some_iff.mp hx).1
  cases h with
  | notPending r h =>
    rw [answer_workers, hx] at hy
    obtain rfl := Option.some.inj hy
    exact ⟨h, rfl⟩
  | _ => simp [hlt] at hy; subst hy; simp

/-! ### The machine under its parameters -/

@[simp] theorem block_under (s : State) : s.block.under s.params = s := rfl
@[simp] theorem under_block (b : Block) (p : Params) : (b.under p).block = b := rfl
@[simp] theorem under_params (b : Block) (p : Params) : (b.under p).params = p := rfl

/-- A step is the step of the machine under the state's parameters. -/
theorem stepUnder_of_step {s t : State} (h : step s = .next t) : stepUnder s.params s.block = .next t.block := by
  simp only [stepUnder, block_under, h]

/-- A run that takes a step goes on from there. -/
theorem run_succ {M : Host.Core} {s t : M.State} (h : M.step s = .next t) (k : Nat) : M.run (k + 1) s = M.run k t := by
  show (match M.step s with | .next s' => _ | .fault r => _ | .refused r => _) = _
  rw [h]

/-! ### The attempts of an exchange -/

theorem attemptsMade_le (n : Nat) (reads : List (List Byte)) : attemptsMade n reads ≤ n := by
  induction n generalizing reads with
  | zero => exact Nat.le_refl 0
  | succ n ih =>
    cases reads with
    | nil => exact Nat.zero_le _
    | cons r reads =>
      have := ih reads
      simp only [attemptsMade]
      split <;> omega

/-- The attempts made decide the answer: the reads after them are never made. -/
theorem firstRead_attemptsMade (n : Nat) (reads : List (List Byte)) :
    firstRead (attemptsMade n reads) reads = firstRead n reads := by
  induction n generalizing reads with
  | zero => rfl
  | succ n ih =>
    cases reads with
    | nil => simp [firstRead]
    | cons r reads =>
      have := ih reads
      simp only [firstRead] at this ⊢
      by_cases h : r.isEmpty = true
      · simp only [attemptsMade, h, if_true, Nat.add_comm 1, List.take_succ_cons, List.find?_cons, Bool.not_true]
        exact this
      · simp [attemptsMade, h]

/-! ### The answers that stand in the queue -/

@[simp] theorem answersHeld_nil (p : Params) (gone : List Byte) : answersHeld p gone [] = [] := rfl

/-- A command that answers no exchange and is no FSM_GO leaves the channel agents as they are. -/
theorem answersHeld_of_answers?_none {p : Params} {gone : List Byte} {i : Input} {rest : List Input} {word : PortWord}
    (hw : portWord p i = some word) (ha : (decode p word).answers? = none) (hg : ∀ w, decode p word ≠ .fsmGo w) :
    answersHeld p gone (i :: rest) = answersHeld p gone rest := by
  simp only [answersHeld, hw]
  generalize decode p word = instr at ha hg
  cases instr with
  | fsmGo w => exact absurd rfl (hg w)
  | _ => simp_all [Instr.answers?]

end Sys2Proof.Machine
end

