-- ==== Sys2Proof/Tests/Slice0.lean ====
section
/-! SUPPORT. The model's own tests: the well-formedness checks, the decoder on words written out from the spec, one step of each instruction against spec/95_test_vectors.md, and a witness for the hypotheses of every statement. -/

namespace Sys2Proof.Tests

open Sys2Proof.Machine Sys2Proof.Claims

/-! ### Helpers -/

/-- One worker with the registers `x`, the table `t`, under TC1. -/
def sys (x : Worker) (t : Table) : State := { State.resetWith .tc1 1 with workers := [x], table := t }

/-- The result bytes an instruction leaves. -/
def result (i : Instr) (s : State) : List Byte :=
  match exec i s with
  | .next t => t.result
  | .fault _ => []
  | .refused _ => []

/-- Worker 0 after an instruction. -/
def after (i : Instr) (s : State) : Worker :=
  match exec i s with
  | .next t => (t.worker? 0x00).getD Worker.reset
  | .fault _ => Worker.reset
  | .refused _ => Worker.reset

/-- The table after an instruction. -/
def tableAfter (i : Instr) (s : State) : Table :=
  match exec i s with
  | .next t => t.table
  | .fault _ => []
  | .refused _ => []

/-- TC1 with an extra entry on each side of each family, a ReRegisterReply, and both checks of the codec on. -/
def full : Params :=
  { Params.tc1 with
    fnReRegisterReply := some 0xC4, decodeCheckMagic := true, cksumWideCompare := true
    regExtra := [⟨0x00, 0x20, some 0xFE⟩, ⟨0x7F, 0x7F, none⟩, ⟨0x80, 0xA0, none⟩, ⟨0xFF, 0xFE, none⟩]
    readExtra := [⟨0x01, 0x20, some 0xA0⟩, ⟨0xFE, 0xA0, none⟩] }

/-- The frame V1 of the spec's vectors, as a frame of the wire. -/
def v1 : WireFrame := ⟨0xA5, 0xA5, 0x01, 0x05, 0x31, 0x42, [], 0xFE, 0x3D, [0x0A, 0x0D]⟩

/-- The valid reply to OfflineQuery of the spec's short handshake (raw `41 42`). -/
def oqReply : WireFrame := ⟨0xA5, 0xA5, 0x00, 0x00, 0x30, 0xBF, [0x41, 0x42], 0xFD, 0x42, [0x0A, 0x0D]⟩

/-- The valid AddressConfirm for address 2 (program P1, command 6). -/
def confirm : WireFrame := ⟨0xA5, 0xA5, 0x02, 0x01, 0x30, 0xBE, [0x06], 0xFD, 0xBE, [0x0A, 0x0D]⟩

/-- The workers the spec's vectors start from. -/
def asking : Worker := { Worker.reset with pend := .reRegister }
def querying : Worker :=
  { Worker.reset with
    phase := .offlineQuery, pend := .offlineQuery
    tx := [0xA5, 0xA5, 0x01, 0x00, 0x30, 0x40, 0x00, 0xFE, 0x45, 0x0A, 0x0D] }
def serial (raw : List Byte) : Worker := { Worker.reset with state := .awaitingSerial, raw := raw }
def sending : Worker :=
  { Worker.reset with
    state := .awaitingAddressConfirm, pend := .sendRegisterAddress, raw := [0x41, 0x42], addr := 0x02, addrValid := true
    tx := [0xA5, 0xA5, 0x01, 0x00, 0x30, 0x41, 0x03, 0x41, 0x42, 0x02, 0xFD, 0xBC, 0x0A, 0x0D] }
def registered : Worker :=
  { sending with state := .registered, pend := .none, serialText := [0x41, 0x42] }
def abandoned : Worker := { Worker.reset with state := .abandoned, diagReason := 0x04, diagMask := 0x01, diagStep := 2 }

/-! ### WellFormed refuses -/

theorem test_wf_payload_too_long : (Instr.encode 0 0 0 0 (List.replicate 256 0x00)).wf .tc1 = false := by
  simp only [Instr.wf, N_MAX, List.length_replicate]; decide

theorem test_wf_data_too_long :
    (Instr.checksum (List.replicate 65536 0x00)).wf .tc1 = false ∧
    (Instr.decode (List.replicate 65536 0x00)).wf .tc1 = false ∧
    (Instr.verify (List.replicate 65536 0x00)).wf .tc1 = false ∧
    (Instr.fsmResult 0x00 0x01 (List.replicate 65536 0x00)).wf .tc1 = false := by
  simp only [Instr.wf, READ_MAX, List.length_replicate]; decide

theorem test_wf_serial_too_long : (Instr.filterSerial (List.replicate 256 0x00)).wf .tc1 = false := by
  simp only [Instr.wf, List.length_replicate]; decide

theorem test_wf_legal_is_not_illegal : (Instr.illegalCommand [0x21, 0x00]).wf .tc1 = false := by decide

theorem test_wf_frame_payload :
    (Instr.unknownControl 0x00 { v1 with ctrl := 0x99, payload := List.replicate 256 0x00 }).wf .tc1 = false := by
  simp only [Instr.wf, WireFrame.inFamily, WireFrame.wf, N_MAX, List.length_replicate]; decide

theorem test_wf_read_too_long :
    (Instr.unknownControl 0x00 { v1 with ctrl := 0x99, tail := List.replicate 65527 0x00 }).wf .tc1 = false := by
  simp only [Instr.wf, WireFrame.inFamily, WireFrame.wf, READ_MAX, v1, List.length_replicate]; decide

theorem test_wf_wrong_family :
    (Instr.reRegister 0x00 v1).wf .tc1 = false ∧ (Instr.writeFamily 0x00 v1).wf .tc1 = false ∧
    (Instr.unknownControl 0x00 v1).wf .tc1 = false ∧ (Instr.queryNormalInfo 0x00 oqReply).wf .tc1 = false := by
  decide

theorem test_wf_wrong_function :
    (Instr.offlineQuery 0x00 oqReply).wf .tc1 = false ∧ (Instr.registerFamilyOther 0x00 oqReply).wf .tc1 = false ∧
    (Instr.queryNormalInfoReply 0x00 v1).wf .tc1 = false ∧ (Instr.readFamilyOther 0x00 v1).wf .tc1 = false ∧
    (Instr.reRegisterReply 0x00 oqReply).wf .tc1 = false := by
  decide

/-! ### The decoder on words written out from rules R70 and R87 -/

theorem test_decode_codec_commands :
    decode .tc1 ⟨none, [0x01, 0x01, 0x05, 0x31, 0x42, 0x02, 0x10, 0x20]⟩ = .encode 0x01 0x05 0x31 0x42 [0x10, 0x20] ∧
    decode .tc1 ⟨none, [0x02, 0x00, 0x03, 0x01, 0x02, 0x03]⟩ = .checksum [0x01, 0x02, 0x03] ∧
    decode .tc1 ⟨none, [0x03, 0x00, 0x01, 0xA5]⟩ = .decode [0xA5] ∧
    decode .tc1 ⟨none, [0x04, 0x00, 0x00]⟩ = .verify [] := by decide

theorem test_decode_registry_commands :
    decode .tc1 ⟨none, [0x10, 0x31, 0x42]⟩ = .lookup 0x31 0x42 ∧
    decode .tc1 ⟨none, [0x11, 0x01, 0x42, 0x00]⟩ = .functionName 0x01 0x42 0x00 ∧
    decode .tc1 ⟨none, [0x12, 0x01, 0x11]⟩ = .codeOf 0x01 0x11 ∧
    decode .tc1 ⟨none, [0x13, 0x00, 0x03]⟩ = .responseOf 0x00 0x03 := by decide

theorem test_decode_handshake_commands :
    decode .tc1 ⟨none, [0x20, 0x07]⟩ = .fsmReset 0x07 ∧
    decode .tc1 ⟨none, [0x21, 0x05]⟩ = .fsmGo 0x05 ∧
    decode .tc1 ⟨none, [0x22, 0x03, 0x01, 0x00, 0x02, 0xAA, 0xBB]⟩ = .fsmResult 0x03 0x01 [0xAA, 0xBB] ∧
    decode .tc1 ⟨none, [0x23, 0x01, 0x0A]⟩ = .fsmRead 0x01 0x0A ∧
    decode .tc1 ⟨none, [0x30, 0x02, 0x41, 0x20]⟩ = .filterSerial [0x41, 0x20] ∧
    decode .tc1 ⟨none, [0x31]⟩ = .tableReset := by decide

theorem test_decode_illegal_commands :
    decode .tc1 ⟨none, [0x00]⟩ = .illegalCommand [0x00] ∧
    decode .tc1 ⟨none, [0xFF, 0x01, 0x02]⟩ = .illegalCommand [0xFF, 0x01, 0x02] ∧
    decode .tc1 ⟨none, [0x10, 0x31]⟩ = .illegalCommand [0x10, 0x31] ∧
    decode .tc1 ⟨none, [0x21, 0x00, 0x00]⟩ = .illegalCommand [0x21, 0x00, 0x00] ∧
    decode .tc1 ⟨none, []⟩ = .illegalCommand [] := by decide

theorem test_decode_register_frames :
    decode .tc1 ⟨some 0x00, [0xA5, 0xA5, 0x01, 0x00, 0x30, 0x44, 0x00, 0xFE, 0x41, 0x0A, 0x0D]⟩
      = .reRegister 0x00 ⟨0xA5, 0xA5, 0x01, 0x00, 0x30, 0x44, [], 0xFE, 0x41, [0x0A, 0x0D]⟩ ∧
    decode .tc1 ⟨some 0x00, [0xA5, 0xA5, 0x01, 0x00, 0x30, 0x40, 0x00, 0xFE, 0x45, 0x0A, 0x0D]⟩
      = .offlineQuery 0x00 ⟨0xA5, 0xA5, 0x01, 0x00, 0x30, 0x40, [], 0xFE, 0x45, [0x0A, 0x0D]⟩ ∧
    decode .tc1 ⟨some 0x01, [0xA5, 0xA5, 0x01, 0x00, 0x30, 0x41, 0x01, 0x02, 0x00, 0x00]⟩
      = .sendRegisterAddress 0x01 ⟨0xA5, 0xA5, 0x01, 0x00, 0x30, 0x41, [0x02], 0x00, 0x00, []⟩ ∧
    decode .tc1 ⟨some 0x00, [0xA5, 0xA5, 0x00, 0x00, 0x30, 0xBF, 0x02, 0x41, 0x42, 0xFD, 0x42, 0x0A, 0x0D]⟩
      = .offlineQueryReply 0x00 oqReply ∧
    decode .tc1 ⟨some 0x00, [0xA5, 0xA5, 0x02, 0x01, 0x30, 0xBE, 0x01, 0x06, 0xFD, 0xBE, 0x0A, 0x0D]⟩
      = .addressConfirm 0x00 confirm ∧
    decode full ⟨some 0x00, [0xA5, 0xA5, 0x02, 0x01, 0x30, 0xC4, 0x00, 0x00, 0x01]⟩
      = .reRegisterReply 0x00 ⟨0xA5, 0xA5, 0x02, 0x01, 0x30, 0xC4, [], 0x00, 0x01, []⟩ ∧
    decode .tc1 ⟨some 0x00, [0xA5, 0xA5, 0x00, 0x00, 0x30, 0x42, 0x00, 0x00, 0x01]⟩
      = .registerFamilyOther 0x00 ⟨0xA5, 0xA5, 0x00, 0x00, 0x30, 0x42, [], 0x00, 0x01, []⟩ := by decide

theorem test_decode_other_frames :
    decode .tc1 ⟨some 0x00, [0xA5, 0xA5, 0x01, 0x05, 0x31, 0x42, 0x00, 0xFE, 0x3D, 0x0A, 0x0D]⟩
      = .queryNormalInfo 0x00 v1 ∧
    decode .tc1 ⟨some 0x00, [0xA5, 0xA5, 0x05, 0x01, 0x31, 0xB1, 0x01, 0x96, 0x00, 0x00]⟩
      = .queryNormalInfoReply 0x00 ⟨0xA5, 0xA5, 0x05, 0x01, 0x31, 0xB1, [0x96], 0x00, 0x00, []⟩ ∧
    decode .tc1 ⟨some 0x00, [0xA5, 0xA5, 0x05, 0x01, 0x31, 0x00, 0x00, 0x00, 0x00]⟩
      = .readFamilyOther 0x00 ⟨0xA5, 0xA5, 0x05, 0x01, 0x31, 0x00, [], 0x00, 0x00, []⟩ ∧
    decode .tc1 ⟨some 0x00, [0xA5, 0xA5, 0x05, 0x01, 0x32, 0x42, 0x00, 0x00, 0x00]⟩
      = .writeFamily 0x00 ⟨0xA5, 0xA5, 0x05, 0x01, 0x32, 0x42, [], 0x00, 0x00, []⟩ ∧
    decode .tc1 ⟨some 0x00, [0xA5, 0xA5, 0x05, 0x01, 0x33, 0x42, 0x00, 0x00, 0x00]⟩
      = .executeFamily 0x00 ⟨0xA5, 0xA5, 0x05, 0x01, 0x33, 0x42, [], 0x00, 0x00, []⟩ ∧
    decode .tc1 ⟨some 0x00, [0x00, 0x00, 0x05, 0x01, 0x99, 0x42, 0x00, 0x00, 0x00]⟩
      = .unknownControl 0x00 ⟨0x00, 0x00, 0x05, 0x01, 0x99, 0x42, [], 0x00, 0x00, []⟩ ∧
    decode .tc1 ⟨some 0x00, [0x00]⟩ = .fsmResult 0x00 0x01 [0x00] ∧
    decode .tc1 ⟨some 0x00, []⟩ = .fsmResult 0x00 0x00 [] := by decide

theorem test_table_words :
    decodeTableWord 8 0x21 = some (.fsmGo 0x00) ∧ decodeTableWord 8 0x32 = some (.illegalCommand [0x32]) ∧
    decodeTableWord 16 0x3142 = some (.queryNormalInfo 0x00 (tableFrame 0x3142)) ∧
    result (.fsmGo 0x00) State.reset = [0x00] ∧
    (match step (State.reset.withFetchWord 8 0x21) with | .next t => t.result | _ => []) = [0x00] := by decide

/-! ### One step of each instruction (spec/95_test_vectors.md) -/

theorem test_encode_V6 : result (.encode 0x01 0x05 0x31 0x42 [0x10, 0x20]) State.reset =
    [0x00, 0x00, 0x0D, 0xA5, 0xA5, 0x01, 0x05, 0x31, 0x42, 0x02, 0x10, 0x20, 0xFE, 0x0B, 0x0A, 0x0D] := by decide

theorem test_checksum_empty : result (.checksum []) State.reset = [0x00, 0x00, 0x00] := by decide

theorem test_decode_V8j : result (.decode [0xA5, 0xA5, 0x01, 0x05, 0x31, 0x42, 0x00, 0xFE, 0x3D, 0x0D, 0x0A])
    State.reset = [0x00, 0x01, 0x05, 0x31, 0x42, 0x00, 0xFE, 0x3D, 0xA5, 0xA5, 0x01, 0x0D, 0x0A] := by decide

theorem test_decode_V10 : result (.decode [0xA5, 0xA5, 0x01, 0x05, 0x31, 0x42, 0x02, 0x05, 0xAA, 0xBB])
    State.reset = [0x02] := by decide

theorem test_verify_V13 : result (.verify [0xA5, 0xA4, 0x01, 0x05, 0x31, 0x42, 0x00, 0xFE, 0x3D, 0x0A, 0x0D])
    State.reset = [0x03, 0x00, 0xFE, 0x3E, 0xFE, 0x3D] := by decide

set_option maxRecDepth 4000 in
theorem test_verify_E4 : result (.verify ([0xA5, 0xA5, 0x05, 0x01, 0x31, 0xB1, 0xEC] ++ List.replicate 235 0xFF
    ++ [0x99, 0x00, 0x01, 0x0A, 0x0D])) State.reset = [0x03, 0x00, 0x12, 0x34, 0x00, 0x01] := by decide

theorem test_lookup_V24_V27 : result (.lookup 0x30 0x42) State.reset = [0x00, 0x00, 0x00, 0x00] ∧
    result (.lookup 0x32 0x40) State.reset = [0x00, 0x02, 0xFF, 0x00] := by decide

theorem test_functionName_V30_V32 : result (.functionName 0x01 0x42 0x01) State.reset = [0x00, 0x00] ∧
    result (.functionName 0x04 0x42 0x00) State.reset = [0x08] := by decide

theorem test_codeOf_V33_V34 : result (.codeOf 0x01 0x11) State.reset = [0x00, 0x01, 0x42] ∧
    result (.codeOf 0x00 0x83) State.reset = [0x00, 0x00, 0x00] := by decide

theorem test_responseOf_V36_V38 : result (.responseOf 0x00 0x03) State.reset = [0x00, 0x01, 0x82] ∧
    result (.responseOf 0x01 0x91) State.reset = [0x00, 0x00, 0x00] := by decide

theorem test_fsmGo_first : (after (.fsmGo 0x00) (sys Worker.reset [])).tx =
    [0xA5, 0xA5, 0x01, 0x00, 0x30, 0x44, 0x00, 0xFE, 0x41, 0x0A, 0x0D] ∧
    (after (.fsmGo 0x00) (sys Worker.reset [])).pend = .reRegister := by decide

theorem test_fsmGo_allocates_V65 : tableAfter (.fsmGo 0x00) (sys (serial [0x41]) [(5, .recorded [])]) =
    [(5, .recorded []), (6, .reserved)] := by decide

theorem test_fsmResult_V83 : (after (.fsmResult 0x00 0x01
      [0xA5, 0xA5, 0x07, 0x01, 0x31, 0xBF, 0x02, 0x41, 0x42, 0x02, 0x39, 0x0A, 0x0D]) (sys querying [])) =
    { querying with
      pend := .none, state := .abandoned, phase := .reRegister, diagReason := 0x04, diagMask := 0x0F,
      diagExpected := 0xFD39, diagFound := 0x0239, diagStep := 2,
      diagFrame := [0xA5, 0xA5, 0x07, 0x01, 0x31, 0xBF, 0x02, 0x41, 0x42, 0x02, 0x39, 0x0A, 0x0D] } := by decide

theorem test_fsmResult_V51 : result (.fsmResult 0x00 0x01 []) (sys querying []) = [0x06] ∧
    (after (.fsmResult 0x00 0x01 []) (sys querying [])).phase = .reRegister := by decide

theorem test_fsmRead_status : result (.fsmRead 0x00 0x00) (sys registered []) = [0x00, 0x43] ∧
    result (.fsmRead 0x00 0x00) (sys sending []) = [0x00, 0x72] := by decide

theorem test_fsmRead_V48 : result (.fsmRead 0x07 0x0B) (sys registered []) = [0x09] := by decide

theorem test_fsmReset_V94 : after (.fsmReset 0x00) (sys abandoned []) = Worker.reset := by decide

theorem test_tableReset_V67 : tableAfter .tableReset (sys registered [(2, .recorded [0x41, 0x42])]) = [] := by decide

set_option maxRecDepth 4000 in
theorem test_filterSerial_V76 : result (.filterSerial [0x41, 0x09, 0x42, 0x20, 0x09]) State.reset =
    [0x00, 0x02, 0x41, 0x42] := by decide

theorem test_illegalCommand_V42 : result (.illegalCommand [0x10, 0x31]) (sys registered []) = [0x08] := by decide

set_option maxRecDepth 4000 in
theorem test_addressConfirm_P1 : after (.addressConfirm 0x00 confirm) (sys sending [(2, .reserved)]) = registered ∧
    tableAfter (.addressConfirm 0x00 confirm) (sys sending [(2, .reserved)]) = [(2, .recorded [0x41, 0x42])] := by
  decide

theorem test_offlineQueryReply : after (.offlineQueryReply 0x00 oqReply) (sys querying []) =
    { querying with pend := .none, phase := .reRegister, state := .awaitingSerial, raw := [0x41, 0x42] } := by decide

/-- V85: the function code of a handshake reply is not checked. -/
theorem test_registerFamilyOther_V85 :
    (after (.registerFamilyOther 0x00 ⟨0xA5, 0xA5, 0x00, 0x00, 0x30, 0x00, [0x5A], 0xFE, 0x2B, [0x0A, 0x0D]⟩)
      (sys querying [])).raw = [0x5A] := by decide

/-- A frame of each other kind, as the answer to OfflineQuery and to ReRegister. -/
theorem test_other_kinds :
    result (.queryNormalInfo 0x00 v1) (sys querying []) = [0x04] ∧
    result (.queryNormalInfoReply 0x00 { v1 with fn := 0xB1 }) (sys querying []) = [0x04] ∧
    result (.readFamilyOther 0x00 { v1 with fn := 0x00 }) (sys querying []) = [0x04] ∧
    result (.writeFamily 0x00 { v1 with ctrl := 0x32 }) (sys querying []) = [0x04] ∧
    result (.executeFamily 0x00 { v1 with ctrl := 0x33 }) (sys querying []) = [0x04] ∧
    result (.unknownControl 0x00 { v1 with ctrl := 0x99 }) (sys querying []) = [0x04] ∧
    (after (.reRegister 0x00 { v1 with ctrl := 0x30, fn := 0x44 }) (sys asking [])).phase = .offlineQuery ∧
    (after (.offlineQuery 0x00 { v1 with ctrl := 0x30, fn := 0x40 }) (sys asking [])).phase = .offlineQuery ∧
    (after (.sendRegisterAddress 0x00 { v1 with ctrl := 0x30, fn := 0x41 }) (sys asking [])).phase = .offlineQuery ∧
    (after (.reRegisterReply 0x00 { v1 with ctrl := 0x30, fn := 0xC4 }) (sys asking [])).phase = .offlineQuery := by
  decide

/-! ### Witnesses: states and operands that meet the hypotheses of the statements -/

theorem tc1_valid : Params.tc1.Valid := by decide

theorem full_valid : full.Valid := by decide

/-- A worker about to resend its address frame. -/
def unsent : Worker := { sending with pend := .none }

theorem unsent_inv : unsent.Inv .tc1 := by
  refine ⟨by decide, by decide, by decide, by decide, ⟨by decide, by decide, fun _ => by decide⟩, by decide⟩

/-- Every code is one of 256. -/
theorem forall_byte {P : Byte → Prop} (h : ∀ n : Fin 256, P (BitVec.ofFin n)) (b : Byte) : P b := h b.toFin

theorem witness_StepRunsDecodedInstruction :
    State.reset.inbox = [] ∧
    ({ State.reset with inbox := [.blockReset] } : State).inbox = .blockReset :: [] ∧
    ({ State.reset with inbox := [.command [0x21, 0x00]] } : State).inbox = .command [0x21, 0x00] :: [] ∧
    ({ State.reset with inbox := [.exchange 0x00 [[], [0x00]]] } : State).inbox = .exchange 0x00 [[], [0x00]] :: [] := by
  decide

/-- Instructions at the ends of what a command carries. -/
theorem witness_DecodeOfEncode : Params.tc1.Valid ∧ (Instr.encode 0 0 0 0 (List.replicate 255 0x00)).wf .tc1 = true ∧
    (Instr.checksum (List.replicate 65535 0x00)).wf .tc1 = true ∧
    (Instr.filterSerial (List.replicate 255 0x00)).wf .tc1 = true ∧ (Instr.illegalCommand []).wf .tc1 = true ∧
    (Instr.queryNormalInfo 0xFF v1).wf .tc1 = true ∧ (Instr.registerFamilyOther 0x00 { v1 with ctrl := 0x30 }).wf .tc1
      = true := by
  refine ⟨by decide, ?_, ?_, ?_, by decide, by decide, by decide⟩ <;>
    simp only [Instr.wf, N_MAX, List.length_replicate] <;> decide

theorem witness_EncodedInstructionRuns :
    let s : State := { State.reset with inbox := [inputOf (encode (.addressConfirm 0x01 confirm))] }
    s.params.Valid ∧ (Instr.addressConfirm 0x01 confirm).wf s.params = true ∧
    s.inbox = inputOf (encode (.addressConfirm 0x01 confirm)) :: [] := by decide

/-- Each case: nothing, noise, a frame. -/
theorem witness_ReadReencodes : ([] : List Byte).length ≤ 65535 ∧
    ([0x00] : List Byte).length ≤ 65535 ∧ decodeError false [0x00] ≠ none ∧
    v1.bytes.length ≤ 65535 ∧ v1.bytes ≠ [] ∧ decodeError false v1.bytes = none := by decide

/-- The ends of the ranges of opcodes outside rule R87, an illegal and a legal form. -/
theorem witness_IllegalCommandsAreAnswered :
    (∀ op ∈ [0x00#8, 0x05, 0x0F, 0x14, 0x1F, 0x24, 0x2F, 0x32, 0xFF], op = 0x00 ∨ (0x05#8 ≤ op ∧ op ≤ 0x0F#8) ∨
      (0x14#8 ≤ op ∧ op ≤ 0x1F#8) ∨ (0x24#8 ≤ op ∧ op ≤ 0x2F#8) ∨ 0x32#8 ≤ op) ∧
    (∀ op ∈ [0x01#8, 0x04, 0x10, 0x13, 0x20, 0x23, 0x30, 0x31], ¬ (op = 0x00 ∨ (0x05#8 ≤ op ∧ op ≤ 0x0F#8) ∨
      (0x14#8 ≤ op ∧ op ≤ 0x1F#8) ∨ (0x24#8 ≤ op ∧ op ≤ 0x2F#8) ∨ 0x32#8 ≤ op)) ∧
    legalForm [] = false ∧ legalForm [0x21, 0x00, 0x00] = false ∧ legalForm [0x31] = true := by decide

theorem witness_ReadingCommandsWriteNothing :
    Instr.readsOnly (.fsmRead 0x00 0x00) = true ∧ Instr.readsOnly (.verify []) = true := by decide

theorem witness_ChecksumIsNegatedSum : (List.replicate 65535 (0xFF : Byte)).length ≤ 65535 := by
  simp only [List.length_replicate]; decide

theorem witness_EncodeBuildsFrame : (List.replicate 255 (0x00 : Byte)).length ≤ 255 ∧
    255 < (List.replicate 256 (0x00 : Byte)).length := by
  simp only [List.length_replicate]; decide

/-- With and without the checks of header and trailer; with no trailer, and with more bytes after it. -/
theorem witness_DecodeAnswersFields :
    Decodes State.reset.params { v1 with hdr0 := 0x00, tail := [] } ∧
    Decodes (State.resetWith full 1).params { v1 with tail := [0x0A, 0x0D, 0xFF] } := by decide

/-- Every error, under both settings. -/
theorem witness_DecodeReportsFirstError :
    decodeError Params.tc1.decodeCheckMagic [0xA5, 0xA5, 0x01, 0x05, 0x31, 0x42] = some 0x01 ∧
    decodeError full.decodeCheckMagic [0xA5, 0xA4, 0x01, 0x05, 0x31, 0x42, 0x05] = some 0x01 ∧
    decodeError Params.tc1.decodeCheckMagic [0xA5, 0xA5, 0x01, 0x05, 0x31, 0x42, 0x00, 0xFE] = some 0x02 ∧
    decodeError full.decodeCheckMagic [0xA5, 0xA5, 0x01, 0x05, 0x31, 0x42, 0x00, 0xFE, 0x3D, 0x0A] = some 0x02 ∧
    decodeError full.decodeCheckMagic [0xA5, 0xA5, 0x01, 0x05, 0x31, 0x42, 0x00, 0xFE, 0x3D, 0x0D, 0x0A] = some 0x0C ∧
    decodeError full.decodeCheckMagic v1.bytes = none := by decide

/-- A good and a bad checksum, under both comparisons; a buffer that does not decode. -/
theorem witness_VerifyReportsBothValues :
    Decodes State.reset.params v1 ∧ sumGood State.reset.params v1 = true ∧
    sumGood State.reset.params { v1 with cksumLo := 0x3E } = false ∧
    Decodes (State.resetWith full 1).params v1 ∧ sumGood (State.resetWith full 1).params v1 = true ∧
    sumGood (State.resetWith full 1).params { v1 with cksumLo := 0x3E } = false ∧
    decodeError State.reset.params.decodeCheckMagic [] = some 0x01 := by decide

/-- The longest payload, and a frame whose body's sum is below 2^16 under the wide comparison. -/
theorem witness_CodecRoundTrip : (List.replicate 255 (0xFF : Byte)).length ≤ 255 ∧
    State.reset.params.cksumWideCompare = false ∧ (State.resetWith full 1).params.cksumWideCompare = true ∧
    byteSum ((spelledFrame 0x01 0x05 0x31 0x42 [0x10, 0x20]).take (7 + 2)) < 65536 := by
  refine ⟨?_, by decide, by decide, by decide⟩
  simp only [List.length_replicate]; decide

/-- Every offset where the clauses meet: the first byte, both sides of the length byte, both checksum bytes, the trailer. -/
theorem witness_SingleByteCorruptionDetected :
    State.reset.params.decodeCheckMagic = false ∧ v1.payload.length ≤ 255 ∧ sumGood State.reset.params v1 = true ∧
    (∀ i ∈ [0, 5, 7, 8], (∃ c ∈ v1.bytes, v1.bytes[i]? = some c ∧ c ≠ 0x00) ∧ i ≤ 8 + v1.payload.length ∧ i ≠ 6) ∧
    (∀ i ∈ [9, 10], (∃ c ∈ v1.bytes, v1.bytes[i]? = some c ∧ c ≠ 0x00) ∧ 9 + v1.payload.length ≤ i) := by decide

theorem witness_LookupClassifies : State.reset.params.Valid ∧
    (0x44, 0x01) ∈ nameTable State.reset.params .register ∧ (∀ n, (0x42, n) ∉ nameTable State.reset.params .register) ∧
    (0x42, 0x11) ∈ nameTable State.reset.params .read ∧ (∀ n, (0x80, n) ∉ nameTable State.reset.params .read) := by
  exact ⟨tc1_valid, by decide, forall_byte (by decide +kernel), by decide, forall_byte (by decide +kernel)⟩

theorem witness_LookupUnsupportedMarker : State.reset.params.Valid ∧
    ∀ c ∈ [0x32#8, 0x33, 0x00, 0xFF], c ≠ State.reset.params.ctrlRegister ∧ c ≠ 0x31 := ⟨tc1_valid, by decide⟩

/-- Each clause's families and directions, with a code on each side of the threshold. -/
theorem witness_FunctionNameAnswers : State.reset.params.Valid ∧
    (0x04#8 ∉ [0x00#8, 0x01, 0x02, 0x03, 0xFF] ∧ 0xFE#8 ∉ [0x00#8, 0x01, 0x02, 0x03, 0xFF] ∧ 0x02#8 ∉ [0x00#8, 0x01]) ∧
    (∀ f ∈ [0x02#8, 0x03, 0xFF], f ∈ [0x02#8, 0x03, 0xFF] ∧ 0x01#8 ∈ [0x00#8, 0x01]) ∧
    (0x7F#8 < State.reset.params.tReg ∧ ¬ 0x80#8 < State.reset.params.tReg) ∧
    (0x7F#8 < State.reset.params.tRead ∧ ¬ 0x80#8 < State.reset.params.tRead) := ⟨tc1_valid, by decide⟩

theorem witness_CodeOfReversesTable : State.reset.params.Valid ∧ 0x04#8 ∉ [0x00#8, 0x01, 0x02, 0x03, 0xFF] ∧
    (0xBE, 0x82) ∈ nameTable State.reset.params .register ∧
    (∀ c, (c, 0x83) ∉ nameTable State.reset.params .register) ∧
    (0xC4, 0x83) ∈ nameTable (State.resetWith full 1).params .register ∧
    (0xB1, 0x91) ∈ nameTable State.reset.params .read ∧ (∀ c, (c, 0x01) ∉ nameTable State.reset.params .read) := by
  exact ⟨tc1_valid, by decide, by decide, forall_byte (by decide +kernel), by decide, by decide, forall_byte (by decide +kernel)⟩

theorem witness_ResponseOfIsFixedTable : State.reset.params.Valid ∧ (State.resetWith full 1).params.Valid ∧
    0x04#8 ∉ [0x00#8, 0x01, 0x02, 0x03, 0xFF] ∧ 0x80#8 ≤ 0x80#8 ∧ ¬ 0x80#8 ≤ 0x7F#8 ∧
    (⟨0x00, 0x20, some 0xFE⟩ : Extra) ∈ (State.resetWith full 1).params.regExtra ∧
    (⟨0x01, 0x20, some 0xA0⟩ : Extra) ∈ (State.resetWith full 1).params.readExtra ∧
    0x04#8 ∉ [0x01#8, 0x02, 0x03] ∧ (∀ e ∈ (State.resetWith full 1).params.regExtra, e.nameId = 0x04 → e.response = none) ∧
    (∀ e ∈ (State.resetWith full 1).params.regExtra, e.nameId = 0x7F → e.response = none) ∧
    0x01#8 ≠ 0x11#8 ∧ (∀ e ∈ (State.resetWith full 1).params.readExtra, e.nameId = 0x01 → e.response = none) :=
  ⟨tc1_valid, full_valid, by decide⟩

theorem witness_GoSendsFirstRequests :
    (sys Worker.reset []).workers[(0x00#8).toNat]? = some Worker.reset ∧ Worker.reset.state = .unregistered ∧
    Worker.reset.pend = .none ∧ Worker.reset.phase = .reRegister ∧
    (sys { Worker.reset with phase := .offlineQuery } []).workers[(0x00#8).toNat]?
      = some { Worker.reset with phase := .offlineQuery } := by decide

/-- One assigned address is the largest key. -/
theorem isMaxKey_single (k : Nat) (h : 1 ≤ k) : IsMaxKey [(k, .reserved)] k := by
  refine ⟨.inr (by simp [Table.read]), h, fun a ha => ?_⟩
  simp only [Table.read] at ha
  split at ha
  · omega
  · exact absurd rfl ha

theorem isMaxKey_empty : IsMaxKey [] 1 := ⟨.inl rfl, Nat.le_refl _, fun _ h => absurd rfl h⟩

/-- The empty table, and the last address that can be allocated. -/
theorem witness_GoAllocatesNextAddress :
    (sys (serial (List.replicate 254 0x41)) []).workers[(0x00#8).toNat]? = some (serial (List.replicate 254 0x41)) ∧
    (serial []).state = .awaitingSerial ∧ (serial []).pend = .none ∧
    (serial (List.replicate 254 0x41)).raw.length ≤ 254 ∧ Table.wf [] ∧ IsMaxKey [] 1 ∧ 1 + 1 ≤ 253 ∧
    Table.wf [(252, .reserved)] ∧ IsMaxKey [(252, .reserved)] 252 ∧ 252 + 1 ≤ 253 := by
  refine ⟨rfl, rfl, rfl, ?_, by decide, isMaxKey_empty, by decide, by decide, isMaxKey_single 252 (by decide), by decide⟩
  simp only [serial, List.length_replicate]; decide

/-- A serial of 255 bytes, and a table whose last address is assigned. -/
theorem witness_GoAbandonsWithoutAddress :
    (sys (serial (List.replicate 255 0x41)) []).workers[(0x00#8).toNat]? = some (serial (List.replicate 255 0x41)) ∧
    254 < (serial (List.replicate 255 0x41)).raw.length ∧
    (sys (serial [0x41]) [(253, .reserved)]).workers[(0x00#8).toNat]? = some (serial [0x41]) ∧
    (serial [0x41]).raw.length ≤ 254 ∧ Table.wf [(253, .reserved)] ∧
    ∃ m, IsMaxKey [(253, .reserved)] m ∧ 253 ≤ m := by
  refine ⟨rfl, ?_, rfl, by decide, by decide, 253, isMaxKey_single 253 (by decide), by decide⟩
  simp only [serial, List.length_replicate]; decide

theorem witness_GoResendsSameFrame :
    (sys unsent [(2, .reserved)]).workers[(0x00#8).toNat]? = some unsent ∧ unsent.state = .awaitingAddressConfirm ∧
    unsent.pend = .none ∧ unsent.Inv .tc1 := ⟨rfl, rfl, rfl, unsent_inv⟩

theorem witness_GoBusyOrTerminal :
    (sys asking []).workers[(0x00#8).toNat]? = some asking ∧ asking.pend ≠ .none ∧
    (sys registered []).workers[(0x00#8).toNat]? = some registered ∧ registered.pend = .none ∧
    registered.state = .registered ∧ abandoned.pend = .none ∧ abandoned.state = .abandoned := by decide

theorem witness_ReRegisterAnswerIgnored :
    (sys asking []).workers[(0x00#8).toNat]? = some asking ∧ asking.pend = .reRegister := by decide

theorem witness_OfflineQueryAccepted :
    (sys querying []).workers[(0x00#8).toNat]? = some querying ∧ querying.pend = .offlineQuery ∧
    Decodes .tc1 oqReply ∧ mask2 .tc1 oqReply = 0 := by decide

/-- Each check alone, and all of them. -/
theorem witness_OfflineQueryRejected :
    (sys querying []).workers[(0x00#8).toNat]? = some querying ∧ querying.pend = .offlineQuery ∧
    Decodes .tc1 { oqReply with cksumLo := 0x43 } ∧ mask2 .tc1 { oqReply with cksumLo := 0x43 } = 0b01000 ∧
    mask2 .tc1 { oqReply with src := 0x07, cksumLo := 0x3B } = 0b00001 ∧
    mask2 .tc1 { oqReply with dst := 0x01, cksumLo := 0x41 } = 0b00010 ∧
    mask2 .tc1 { oqReply with ctrl := 0x31, cksumLo := 0x41 } = 0b00100 ∧
    mask2 .tc1 { oqReply with src := 0x07, dst := 0x01, ctrl := 0x31 } = 0b01111 := by decide

theorem witness_NoUsableAnswerIsNotFatal :
    (sys querying []).workers[(0x00#8).toNat]? = some querying ∧ querying.pend = .offlineQuery ∧
    (sys sending []).workers[(0x00#8).toNat]? = some sending ∧ sending.pend = .sendRegisterAddress ∧
    decodeError Params.tc1.decodeCheckMagic [0xA5, 0xA5, 0x00, 0x00, 0x30, 0xBF, 0x06] = some 0x02 := by decide

theorem witness_AddressConfirmAccepted :
    (sys sending [(2, .reserved)]).workers[(0x00#8).toNat]? = some sending ∧ sending.pend = .sendRegisterAddress ∧
    Decodes .tc1 confirm ∧ mask4 .tc1 sending.addr confirm = 0 ∧ Table.wf [(2, .reserved)] := by decide

/-- The acknowledgment absent and wrong, and the other checks. -/
theorem witness_AddressConfirmRejected :
    (sys sending [(2, .reserved)]).workers[(0x00#8).toNat]? = some sending ∧ sending.pend = .sendRegisterAddress ∧
    Decodes .tc1 { confirm with payload := [], cksumLo := 0xC5 } ∧
    mask4 .tc1 0x02 { confirm with payload := [], cksumLo := 0xC5 } = 0b10000 ∧
    mask4 .tc1 0x02 { confirm with payload := [0x07], cksumLo := 0xBD } = 0b10000 ∧
    mask4 .tc1 0x03 confirm = 0b00001 ∧ mask4 .tc1 0x02 { confirm with cksumHi := 0xFC } = 0b01000 := by decide

/-- A worker index at and below the number of workers; a `present` and a register just outside their domains. -/
theorem witness_CommandStatusesInOrder :
    (sys registered []).nw ≤ (0x01#8).toNat ∧ (0x00#8).toNat < (sys registered []).nw ∧
    0x02#8 ∉ [0x00#8, 0x01] ∧ 0x0A#8 < 0x0B#8 ∧
    ((sys registered []).worker? 0x00).map (·.pend) = some .none := by decide

/-- A well-formed frame of every kind, under parameters that have every kind. -/
theorem witness_FramesAreReadAndDelivered : full.Valid ∧
    Instr.wf full (.queryNormalInfo 0x00 v1) = true ∧
    Instr.wf full (.queryNormalInfoReply 0x00 { v1 with fn := 0xB1 }) = true ∧
    Instr.wf full (.reRegister 0x00 { v1 with ctrl := 0x30, fn := 0x44 }) = true ∧
    Instr.wf full (.offlineQuery 0x00 { v1 with ctrl := 0x30, fn := 0x40 }) = true ∧
    Instr.wf full (.sendRegisterAddress 0x00 { v1 with ctrl := 0x30, fn := 0x41 }) = true ∧
    Instr.wf full (.offlineQueryReply 0x00 { v1 with ctrl := 0x30, fn := 0xBF }) = true ∧
    Instr.wf full (.addressConfirm 0x00 { v1 with ctrl := 0x30, fn := 0xBE }) = true ∧
    Instr.wf full (.reRegisterReply 0x00 { v1 with ctrl := 0x30, fn := 0xC4 }) = true ∧
    Instr.wf full (.readFamilyOther 0x00 { v1 with fn := 0x7F }) = true ∧
    Instr.wf full (.readFamilyOther 0x00 { v1 with fn := 0xFE }) = true ∧
    Instr.wf full (.registerFamilyOther 0x00 { v1 with ctrl := 0x30, fn := 0x7F }) = true ∧
    Instr.wf full (.registerFamilyOther 0x00 { v1 with ctrl := 0x30, fn := 0x80 }) = true ∧
    Instr.wf full (.writeFamily 0x00 { v1 with ctrl := 0x32 }) = true ∧
    Instr.wf full (.executeFamily 0x00 { v1 with ctrl := 0x33 }) = true ∧
    Instr.wf full (.unknownControl 0x00 { v1 with ctrl := 0x99 }) = true := ⟨full_valid, by decide⟩

/-- A worker that waits for ReRegister's answer; the kinds are those of `wireKinds`. -/
theorem witness_AnyFrameAnswersReRegister : Instr.executeFamily ∈ wireKinds ∧ Instr.reRegister ∈ wireKinds ∧
    (sys asking []).workers[(0x00#8).toNat]? = some asking ∧ asking.pend = .reRegister :=
  ⟨by simp [wireKinds], by simp [wireKinds], rfl, rfl⟩

theorem witness_RegisterFramesAccepted : Instr.registerFamilyOther ∈ registerKinds ∧
    (sys querying []).workers[(0x00#8).toNat]? = some querying ∧ Decodes .tc1 oqReply ∧ mask2 .tc1 oqReply = 0 ∧
    (sys sending [(2, .reserved)]).workers[(0x00#8).toNat]? = some sending ∧ Decodes .tc1 confirm ∧
    mask4 .tc1 sending.addr confirm = 0 ∧ Table.wf [(2, .reserved)] := by
  refine ⟨by simp [registerKinds], ?_⟩; decide

theorem witness_OtherFamiliesRejected : Instr.queryNormalInfo ∈ otherKinds ∧ Params.tc1.Valid ∧
    (sys querying []).workers[(0x00#8).toNat]? = some querying ∧ Decodes .tc1 v1 ∧
    Instr.wf .tc1 (.queryNormalInfo 0x00 v1) = true ∧ querying.pend = .offlineQuery ∧
    (sys sending []).workers[(0x00#8).toNat]? = some sending ∧ sending.pend = .sendRegisterAddress := by
  exact ⟨by simp [otherKinds], tc1_valid, by decide⟩

/-- A worker before each of the three requests. -/
theorem witness_EmittedFramesAreRequests : Params.tc1.Valid ∧
    (∀ x ∈ [Worker.reset, { Worker.reset with phase := .offlineQuery }, serial [0x41], unsent],
      (sys x [(2, .reserved)]).workers[(0x00#8).toNat]? = some x ∧ x.pend = .none ∧
      (after (.fsmGo 0x00) (sys x [(2, .reserved)])).pend ≠ .none) ∧
    Worker.reset.Inv .tc1 ∧ ({ Worker.reset with phase := .offlineQuery } : Worker).Inv .tc1 ∧
    (serial [0x41]).Inv .tc1 ∧ unsent.Inv .tc1 := by
  refine ⟨tc1_valid, by decide +kernel, ?_, ?_, ?_, unsent_inv⟩ <;>
    exact ⟨by decide, by decide, by decide, by decide, by decide, by decide⟩

/-- Every attempt empty; and the last attempt allowed the first that is not. -/
theorem witness_ExchangeAnswersFirstRead :
    (∀ r ∈ List.replicate 9 ([] : List Byte), r = []) ∧
    (List.replicate 9 ([] : List Byte)).length < State.reset.params.maxAttempts ∧ ([0x00] : List Byte) ≠ [] ∧
    ([0x00] : List Byte).length ≤ 65535 := by decide

/-- The last worker, and the first index beyond. -/
theorem witness_FsmResetResetsOneWorker : (0x01#8).toNat < State.reset.nw ∧ State.reset.nw ≤ (0x02#8).toNat := by
  decide

/-- Rounds without a usable answer, from reset and in step 4; what an exchange's attempts take. -/
theorem witness_HandshakeHasNoDeadline :
    (sys Worker.reset []).workers[(0x00#8).toNat]? = some Worker.reset ∧ Worker.reset.pend = .none ∧
    Worker.reset.state = .unregistered ∧ Worker.reset.phase = .reRegister ∧ Worker.reset.Inv .tc1 ∧
    (sys unsent [(2, .reserved)]).workers[(0x00#8).toNat]? = some unsent ∧ unsent.pend = .none ∧
    unsent.state = .awaitingAddressConfirm ∧ unsent.Inv .tc1 ∧
    (∀ a ∈ [([] : List Byte), [0xFF], [0xA5, 0xA5, 0x00, 0x00, 0x30, 0xBF, 0x06]],
      a ≠ [] → decodeError Params.tc1.decodeCheckMagic a ≠ none) :=
  ⟨rfl, rfl, rfl, rfl, ⟨by decide, by decide, by decide, by decide, by decide, by decide⟩, rfl, rfl, rfl, unsent_inv,
    by decide⟩

theorem test_attemptsMade : attemptsMade 10 [[], [], [0x01], [0x02]] = 3 ∧ attemptsMade 3 [[], [], [], [0x01]] = 3 ∧
    exchangeTime { Params.tc1 with settleDelay := 7 } [[], [0x01]] = 14 := by decide

theorem witness_FsmReadReadback : (sys registered []).workers[(0x00#8).toNat]? = some registered ∧
    (sys registered []).nw ≤ (0x01#8).toNat ∧ (0x00#8).toNat < (sys registered []).nw ∧ 0x0A#8 < 0x0B#8 := by decide

theorem witness_TwoWorkersGetConsecutiveAddresses :
    let s : State := { State.reset with workers := [serial [0x41], serial [0x42]] }
    s.workers[(0x00#8).toNat]? = some (serial [0x41]) ∧ s.workers[(0x01#8).toNat]? = some (serial [0x42]) ∧
    s.table.wf ∧ IsMaxKey s.table 1 ∧ 1 + 2 ≤ 253 ∧ 251 + 2 ≤ 253 ∧
    (match exec (.fsmGo 0x00) s with | .next t => result (.fsmGo 0x01) t | _ => []) = [0x00] := by
  refine ⟨rfl, rfl, by decide, isMaxKey_empty, by decide, by decide, by decide⟩

/-- A session in which an entry leaves Free, and one in which an assigned entry stays. -/
theorem witness_TableEntriesStayAssigned :
    (sys (serial [0x41]) []).Session ∧ Table.read [] 2 = .free ∧
    (tableAfter (.fsmGo 0x00) (sys (serial [0x41]) [])).read 2 = .reserved := by
  refine ⟨⟨⟨tc1_valid, by decide, ?_, by decide, ?_⟩, by decide, by decide, by decide⟩, by decide, by decide +kernel⟩
  · intro x hx
    simp only [sys, List.mem_singleton] at hx
    subst hx
    exact ⟨by decide, by decide, by decide, by decide, by decide, by decide⟩
  · intro e he
    exact absurd he List.not_mem_nil

theorem witness_BlockResetIsEveryReset : State.reset.nw ≤ 256 := by decide

theorem witness_OtherWorkersUntouched : (∀ w, (Instr.fsmGo 0x00).worker? = some w → w.toNat ≠ 1) ∧
    (∀ w, Instr.tableReset.worker? = some w → w.toNat ≠ 0) := by
  constructor
  · intro w h
    simp only [Instr.worker?, Option.some.injEq] at h
    subst h
    decide
  · intro w h
    simp [Instr.worker?] at h

theorem witness_OtherWorkersUnread :
    let s : State := { State.reset with workers := [serial [0x41], registered] }
    let s' : State := { State.reset with workers := [serial [0x41], abandoned], result := [0x08] }
    (Instr.fsmGo 0x00).worker? = some 0x00 ∧ s.params = s'.params ∧ s.table = s'.table ∧
    s.workers[(0x00#8).toNat]? = s'.workers[(0x00#8).toNat]? := by decide

theorem witness_TerminalUntilReset : registered.RunOver ∧ abandoned.RunOver ∧
    (sys registered []).workers[(0x00#8).toNat]? = some registered ∧ Instr.fsmGo 0x00 ≠ .fsmReset 0x00 := by decide

/-- An exchange that starts, one that ends, one that stays. -/
theorem witness_PendingExchangeIsStable :
    Worker.reset.pend = .none ∧ (after (.fsmGo 0x00) (sys Worker.reset [])).pend ≠ .none ∧
    querying.pend ≠ .none ∧ (after (.fsmResult 0x00 0x00 []) (sys querying [])).pend = .none ∧
    (after (.fsmGo 0x00) (sys querying [])).pend ≠ .none := by decide

/-- A success over an old diagnostic, and a failure that writes one. -/
theorem witness_DiagnosticsKept :
    result (.fsmGo 0x00) (sys { Worker.reset with diagReason := 0x06, diagStep := 2 } []) = [0x00] ∧
    diagnostics (after (.fsmResult 0x00 0x00 []) (sys querying [])) ≠ diagnostics querying := by decide

theorem witness_FailuresArePrecise : result (.fsmGo 0x00) (sys querying []) = [0x0A] ∧
    result (.fsmResult 0x00 0x00 []) (sys querying []) = [0x06] := by decide

/-- Program P1's answers, from reset with an empty table. -/
theorem witness_ValidHandshakeRegisters :
    (sys Worker.reset []).workers[(0x00#8).toNat]? = some Worker.reset ∧ Table.wf [] ∧ IsMaxKey [] 1 ∧ 1 + 1 ≤ 253 ∧
    Decodes .tc1 oqReply ∧ mask2 .tc1 oqReply = 0 ∧ oqReply.payload.length ≤ 254 ∧
    Decodes .tc1 confirm ∧ mask4 .tc1 (BitVec.ofNat 8 (1 + 1)) confirm = 0 := by
  refine ⟨rfl, by decide, isMaxKey_empty, ?_⟩; decide

theorem witness_ResetValues : (0x01#8).toNat < 2 := by decide

/-- A run that waits. -/
theorem witness_ParametersNeverChange : step State.reset = .next State.reset ∧
    Sys2Proof.core.run 2 State.reset = .next State.reset := ⟨rfl, rfl⟩

/-- FSM_GO of worker 0, its answer, and the answer of worker 1, which its agent holds. -/
def going : List Input := [.command [0x21, 0x00], .exchange 0x00 [[], [0x00]]]

theorem test_answersHeld : answersHeld .tc1 [] going = [] ∧ answersHeld .tc1 [] (.exchange 0x00 [] :: going) = [0x00] ∧
    answersHeld .tc1 [] (going ++ [.command [0x22, 0x01, 0x00, 0x00, 0x00]]) = [0x01] := by decide

/-- Reset, a block reset with the session's first commands queued behind it, and a launch with them at the ports. -/
theorem witness_ResetStartsSession : Params.tc1.Valid ∧ 0 < 2 ∧
    ({ sys registered [(2, .reserved)] with inbox := .blockReset :: going } : State).inbox = .blockReset :: going ∧
    answersHeld (sys registered [(2, .reserved)]).params [] going = [] ∧
    0 < (State.resetWith .tc1 1).nw ∧ ({ State.resetWith .tc1 1 with inbox := going } : State).CleanLaunch :=
  ⟨tc1_valid, by decide, rfl, by decide, by decide, by decide⟩

/-- A state in the middle of a session, with an AddressConfirm at its port. -/
def confirming : State := { sys sending [(2, .reserved)] with inbox := [inputOf ⟨some 0x00, confirm.bytes⟩] }

theorem confirming_inv : confirming.Inv := by
  refine ⟨tc1_valid, by decide, ?_, by decide, ?_⟩
  · intro x hx
    simp only [confirming, sys, List.mem_singleton] at hx
    subst hx
    exact ⟨by decide, by decide, by decide, by decide, ⟨by decide, by decide, fun _ => by decide⟩, by decide⟩
  · intro e he
    simp only [confirming, sys, List.mem_singleton] at he
    subst he
    exact ⟨by decide, by decide, trivial⟩

theorem witness_StepKeeps :
    confirming.Inv ∧ confirming.Session ∧ ¬ confirming.TableResetHazard ∧
    (match step confirming with | .next t => t.result | _ => []) = [0x00] :=
  ⟨confirming_inv, ⟨confirming_inv, by decide, by decide, by decide⟩, by decide +kernel, by decide +kernel⟩

/-- A TABLE_RESET in a session where no worker holds an address is no hazard. -/
theorem witness_no_hazard : ¬ ({ sys (serial [0x41]) [] with inbox := [.command [0x31]] } : State).TableResetHazard := by
  decide

end Sys2Proof.Tests
end

section
/-! PROOFS. The readback map (rules R34, R197): FSM_READ case by case, and the registers as numbers. -/

open Sys2Proof Sys2Proof.Machine Sys2Proof.Claims

namespace Sys2Proof.Machine

/-! ### FSM_READ -/

theorem worker?_eq_none_of_nw_le {s : State} {w : Byte} (h : s.nw ≤ w.toNat) : s.worker? w = none :=
  List.getElem?_eq_none h

theorem exists_worker?_of_lt_nw {s : State} {w : Byte} (h : w.toNat < s.nw) : ∃ x, s.worker? w = some x :=
  Option.isSome_iff_exists.mp ((worker?_isSome_iff s w).mpr h)

theorem exec_fsmRead_badWorker {s : State} {w : Byte} (h : s.worker? w = none) (reg : Byte) :
    exec (.fsmRead w reg) s = .next (s.answer .badWorker []) := by
  simp only [exec, execFsmRead, h]

theorem exec_fsmRead_illegalCommand {s : State} {w reg : Byte} {x : Worker} (h : s.worker? w = some x)
    (hr : readback x reg = none) : exec (.fsmRead w reg) s = .next (s.answer .illegalCommand []) := by
  simp only [exec, execFsmRead, h, hr]

theorem exec_fsmRead_ok {s : State} {w reg : Byte} {x : Worker} {data : List Byte} (h : s.worker? w = some x)
    (hr : readback x reg = some data) : exec (.fsmRead w reg) s = .next (s.answer .ok data) := by
  simp only [exec, execFsmRead, h, hr]

/-! ### The readback map -/

theorem readback_eq_none_of_gt (x : Worker) {reg : Byte} (h : 0x0A#8 < reg) : readback x reg = none := by
  have hne : ∀ k : Byte, k ≤ 0x0A#8 → reg ≠ k := by
    rintro k hk rfl
    exact absurd h (BitVec.not_lt.mpr hk)
  simp [readback, hne]

/-- The value of two fields next to each other. -/
theorem toNat_append_eq_add {m n : Nat} (a : BitVec m) (b : BitVec n) :
    (a ++ b).toNat = a.toNat * 2 ^ n + b.toNat := by
  rw [BitVec.toNat_append, ← Nat.shiftLeft_add_eq_or_of_lt b.isLt, Nat.shiftLeft_eq]

/-- STATUS as the sum of its fields, each at the weight of its lowest bit (rule R34). -/
theorem statusRegister_eq (x : Worker) : statusRegister x =
    BitVec.ofNat 8 (x.state.code.toNat + 8 * x.phase.code.toNat + 16 * x.pend.code.toNat + 64 * x.addrValid.toNat) := by
  have hsum : (statusRegister x).toNat =
      x.state.code.toNat + 8 * x.phase.code.toNat + 16 * x.pend.code.toNat + 64 * x.addrValid.toNat := by
    simp only [statusRegister, toNat_append_eq_add, BitVec.toNat_ofBool, BitVec.toNat_ofNat]
    omega
  rw [← hsum, BitVec.ofNat_toNat, BitVec.setWidth_eq]

theorem readback_status (x : Worker) : readback x 0x00 = some [BitVec.ofNat 8 (x.state.code.toNat
    + 8 * x.phase.code.toNat + 16 * x.pend.code.toNat + 64 * x.addrValid.toNat)] :=
  congrArg (fun b => some [b]) (statusRegister_eq x)

theorem readback_diagMask (x : Worker) : readback x 0x03 = some [BitVec.ofNat 8 x.diagMask.toNat] := by
  rw [BitVec.ofNat_toNat]; rfl

theorem readback_diagExpected (x : Worker) : readback x 0x04 = some (twoBytes x.diagExpected.toNat) := by
  rw [twoBytes_toNat]; rfl

theorem readback_diagFound (x : Worker) : readback x 0x05 = some (twoBytes x.diagFound.toNat) := by
  rw [twoBytes_toNat]; rfl

theorem readback_diagStep (x : Worker) : readback x 0x06 = some [BitVec.ofNat 8 x.diagStep.toNat] := by
  rw [BitVec.ofNat_toNat]; rfl

theorem readback_diagFrame (x : Worker) :
    readback x 0x07 = some (twoBytes x.diagFrame.length ++ x.diagFrame) := by
  rw [twoBytes_length]; rfl

theorem readback_tx (x : Worker) : readback x 0x0A = some (twoBytes x.tx.length ++ x.tx) := by
  rw [twoBytes_length]; rfl

/-! ### The obligation -/

/-- Settles O41: FSM_READ answers by the worker it finds and the readback map's entry for the register. -/
theorem fsmReadReadback : Obligations.FsmReadReadback := by
  unfold Obligations.FsmReadReadback
  refine fun s w reg => ⟨rfl, fun hw => ?badWorker, fun hw hreg => ?illegalRegister, fun x hx => ?registers⟩
  case badWorker => exact exec_fsmRead_badWorker (worker?_eq_none_of_nw_le hw) reg
  case illegalRegister =>
    obtain ⟨x, hx⟩ := exists_worker?_of_lt_nw hw
    exact exec_fsmRead_illegalCommand hx (readback_eq_none_of_gt x hreg)
  case registers =>
    have reads : ∀ {r data}, readback x r = some data → exec (.fsmRead w r) s = .next (s.answer .ok data) :=
      exec_fsmRead_ok hx
    exact ⟨reads (readback_status x), reads rfl, reads rfl, reads (readback_diagMask x),
      reads (readback_diagExpected x), reads (readback_diagFound x), reads (readback_diagStep x),
      reads (readback_diagFrame x), reads rfl, reads rfl, reads (readback_tx x)⟩

end Sys2Proof.Machine
end

section
/-! PROOFS. The codec's commands (40_codec.md): what ENCODE, DECODE and VERIFY answer, and how their commands are read. -/

open Sys2Proof Sys2Proof.Machine Sys2Proof.Claims

namespace Sys2Proof.Machine

/-! ### Reading a command back from its format (rule R87) -/

theorem decode_command {op : Byte} {args : List Byte} {i : Instr} (h : decodeOperands op args = some i) (p : Params) :
    decode p ⟨none, op :: args⟩ = i := by
  simp only [decode, decodeCommand, h, Option.getD_some]

theorem decode_encodeCommand {payload : List Byte} (h : payload.length ≤ 255) (src dst ctrl fn : Byte) (p : Params) :
    decode p ⟨none, OP_ENCODE :: src :: dst :: ctrl :: fn :: length8 payload.length :: payload⟩ =
      .encode src dst ctrl fn payload := by
  refine decode_command ?_ p
  have hn : payload.length = (length8 payload.length).toNat := (length8_toNat h).symm
  rw [decodeOperands, if_pos rfl, decodeEncode, if_pos hn]

/-- A command of the form `op, L (2), data[L]`, for an opcode whose operands are read as data of a given length. -/
theorem decode_lenData {op : Byte} {k : List Byte → Instr}
    (hop : ∀ args, decodeOperands op args = (decodeLenData args).map k) {data : List Byte} (h : data.length ≤ 65535)
    (p : Params) : decode p ⟨none, op :: twoBytes data.length ++ data⟩ = k data := by
  have hargs : decodeOperands op (twoBytes data.length ++ data) = some (k data) := by
    rw [hop, twoBytes_length, decodeLenData_of_length h, Option.map_some]
  exact decode_command hargs p

/-! ### ENCODE -/

theorem exec_encode_ok {payload : List Byte} (h : payload.length ≤ 255) (src dst ctrl fn : Byte) (s : State) :
    exec (.encode src dst ctrl fn payload) s = .next (s.answer .ok
      (twoBytes (11 + payload.length) ++ spelledFrame src dst ctrl fn payload)) := by
  have he := encodeFrame_eq_bytes (src := src) (dst := dst) (ctrl := ctrl) (fn := fn) h
  simp only [exec, execEncode, he, encodeFrame_length he, twoBytes_length, spelledFrame_eq]

theorem exec_encode_payloadTooLong {payload : List Byte} (h : 255 < payload.length) (src dst ctrl fn : Byte)
    (s : State) : exec (.encode src dst ctrl fn payload) s = .next (s.answer .payloadTooLong []) := by
  rcases encodeFrame_cases src dst ctrl fn payload with ⟨-, he⟩ | ⟨hle, -⟩
  · simp only [exec, execEncode, he]
  · omega

/-! ### DECODE -/

/-- The result data of DECODE spells the frame's own fields, with the trailer present and not. -/
theorem data_frameOf {f : WireFrame} (h : f.payload.length ≤ 255) : (frameOf f.bytes).data = frameData f := by
  rw [frameOf_bytes h]
  match ht : f.tail with
  | [] | [_] => simp [Frame.data, frameData, ht, be16Bytes_be16, boolByte, length8]
  | t0 :: t1 :: _ => simp [Frame.data, frameData, ht, be16Bytes_be16, boolByte, length8, byteAt]

theorem exec_decode_of_decodes {s : State} {f : WireFrame} (h : Decodes s.params f) :
    exec (.decode f.bytes) s = .next (s.answer .ok (frameData f)) := by
  simp only [exec, execDecode, decodeFrame_of_decodes h, data_frameOf h.1]

theorem exec_decode_error {s : State} {buf : List Byte} {st : Status}
    (h : decodeFrame s.params.decodeCheckMagic buf = .error st) :
    exec (.decode buf) s = .next (s.answer st []) := by
  simp only [exec, execDecode, h]

/-! ### VERIFY -/

/-- VERIFY's status and data for a frame that decodes: both values, whichever way the comparison goes. -/
theorem exec_verify_of_decodes {s : State} {f : WireFrame} (h : Decodes s.params f) :
    exec (.verify f.bytes) s = .next (s.answer (if sumGood s.params f then .ok else .checksumMismatch)
      (boolByte (sumGood s.params f) :: twoBytes (negSum (covered f)) ++ [f.cksumHi, f.cksumLo])) := by
  have hv : verifyFrame s.params f.bytes = .ok (verdictOf s.params.cksumWideCompare (frameOf f.bytes)) := by
    simp only [verifyFrame, decodeFrame_of_decodes h]
  simp only [exec, execVerify, hv, Verdict.data, verdict_ok h.1, verdict_expected h.1, verdict_found h.1,
    ofNat_negSum, ofNat_twoByteValue, twoBytes_negSum, be16Bytes_be16, List.singleton_append]

theorem exec_verify_error {s : State} {buf : List Byte} {st : Status}
    (h : decodeFrame s.params.decodeCheckMagic buf = .error st) :
    exec (.verify buf) s = .next (s.answer st []) := by
  simp only [exec, execVerify, verifyFrame, h]

/-! ### The obligations -/

/-- Settles O11: the payload's length decides between the frame and PayloadTooLong. -/
theorem encodeBuildsFrame : Obligations.EncodeBuildsFrame := by
  unfold Obligations.EncodeBuildsFrame
  intro s src dst ctrl fn payload
  exact ⟨fun hle => ⟨exec_encode_ok hle src dst ctrl fn s, decode_encodeCommand hle src dst ctrl fn s.params⟩,
    fun hgt => exec_encode_payloadTooLong hgt src dst ctrl fn s⟩

/-- Settles O12: DECODE reads each field of a frame from the frame's own bytes, and never its checksum's value. -/
theorem decodeAnswersFields : Obligations.DecodeAnswersFields := by
  unfold Obligations.DecodeAnswersFields
  exact fun s f hf => exec_decode_of_decodes hf

/-- Settles O13: the statement's reading of the buffer's errors is DECODE's own, and a buffer with none is a frame's
bytes. -/
theorem decodeReportsFirstError : Obligations.DecodeReportsFirstError := by
  unfold Obligations.DecodeReportsFirstError
  refine fun s buf => ⟨fun e he => ?error, fun hnone => ?frame, fun hl => ?command⟩
  case error =>
    obtain ⟨st, hst, rfl⟩ := decodeError_some he
    exact exec_decode_error hst
  case frame =>
    obtain ⟨f, hf, rfl⟩ := decodeError_eq_none_iff.mp hnone
    exact ⟨f, hf, rfl, exec_decode_of_decodes hf⟩
  case command => exact decode_lenData (op := OP_DECODE) (fun _ => rfl) hl s.params

/-- Settles O14: VERIFY's verdict is `sumGood`, and its two values are the same under both statuses. -/
theorem verifyReportsBothValues : Obligations.VerifyReportsBothValues := by
  unfold Obligations.VerifyReportsBothValues
  refine fun s => ⟨fun f hf => ?frame, fun buf e he => ?error, fun buf hl => ?command⟩
  case frame =>
    rw [exec_verify_of_decodes hf]
    cases sumGood s.params f <;> rfl
  case error =>
    obtain ⟨st, hst, rfl⟩ := decodeError_some he
    exact exec_verify_error hst
  case command => exact decode_lenData (op := OP_VERIFY) (fun _ => rfl) hl s.params

end Sys2Proof.Machine
end

section
/-! PROOFS. The registry's commands (41_registry.md): LOOKUP, FUNCTION_NAME, CODE_OF and RESPONSE_OF, each by the answer its operands select. -/

open Sys2Proof Sys2Proof.Machine

namespace Sys2Proof.Machine

/-! ### The operands' domains (rules R76, R77, R88) -/

@[simp] theorem familyOperand_code (F : Family) : familyOperand F.code = some F := by cases F <;> rfl

@[simp] theorem directionOperand_code (d : Direction) : directionOperand d.code = some d := by cases d <;> rfl

theorem Direction.code_inj {d d' : Direction} : d.code = d'.code ↔ d = d' := by
  constructor
  · intro h
    have h' : some d = some d' := by rw [← directionOperand_code, h, directionOperand_code]
    exact Option.some.inj h'
  · exact congrArg Direction.code

theorem familyOperand_eq_none {b : Byte} (h : b ∉ ([0x00, 0x01, 0x02, 0x03, 0xFF] : List Byte)) :
    familyOperand b = none := by
  simp only [List.mem_cons, List.not_mem_nil, or_false, not_or] at h
  simp only [familyOperand, h, if_false]

theorem directionOperand_eq_none {b : Byte} (h : b ∉ ([0x00, 0x01] : List Byte)) : directionOperand b = none := by
  simp only [List.mem_cons, List.not_mem_nil, or_false, not_or] at h
  simp only [directionOperand, h, if_false]

theorem exists_direction_code {b : Byte} (h : b ∈ ([0x00, 0x01] : List Byte)) : ∃ d : Direction, b = d.code := by
  simp only [List.mem_cons, List.not_mem_nil, or_false] at h
  obtain rfl | rfl := h
  · exact ⟨.request, rfl⟩
  · exact ⟨.response, rfl⟩

/-- The operands of Write, Execute and Unknown, which have neither threshold nor tables (rules R77, R81, R82). -/
theorem exists_family_code_without_table {b : Byte} (h : b ∈ ([0x02, 0x03, 0xFF] : List Byte)) (p : Params) :
    ∃ F : Family, b = F.code ∧ threshold p F = none ∧ nameTable p F = [] ∧ pairTable p F = [] := by
  simp only [List.mem_cons, List.not_mem_nil, or_false] at h
  obtain rfl | rfl | rfl := h
  · exact ⟨.write, rfl, rfl, rfl, rfl⟩
  · exact ⟨.execute, rfl, rfl, rfl, rfl⟩
  · exact ⟨.unknown, rfl, rfl, rfl, rfl⟩

/-- The operands of the two families with a table (rules R76, R131). -/
theorem exists_family_code {b : Byte} (h : b ∈ ([0x00, 0x01] : List Byte)) : ∃ F : Family, b = F.code := by
  simp only [List.mem_cons, List.not_mem_nil, or_false] at h
  obtain rfl | rfl := h
  · exact ⟨.register, rfl⟩
  · exact ⟨.read, rfl⟩

theorem directionOf_code (t fn : Byte) : (directionOf t fn).code = if fn < t then 0x00 else 0x01 := by
  unfold directionOf
  split <;> rfl

theorem code_eq_by_threshold_iff {d : Direction} {t fn : Byte} :
    d.code = (if fn < t then 0x00 else 0x01) ↔ directionOf t fn = d := by
  rw [← directionOf_code, Direction.code_inj, eq_comm]

/-! ### The tables of every family are maps both ways (rules R36, R131, R137) -/

section
variable {p : Params} (h : p.Valid) (F : Family)
include h

theorem nameTable_codes_nodup : ((nameTable p F).map Prod.fst).Nodup := by
  cases F with
  | register => exact register_table_codes_nodup h
  | read => exact read_table_codes_nodup h
  | write | execute | unknown => exact List.nodup_nil

theorem nameTable_ids_nodup : ((nameTable p F).map Prod.snd).Nodup := by
  cases F with
  | register => exact register_table_ids_nodup h
  | read => exact read_table_ids_nodup h
  | write | execute | unknown => exact List.nodup_nil

theorem pairTable_ids_nodup : ((pairTable p F).map Prod.fst).Nodup := by
  cases F with
  | register => exact register_pairs_nodup h
  | read => exact read_pairs_nodup h
  | write | execute | unknown => exact List.nodup_nil

end

theorem mem_pairTable_register {p : Params} {id r : Byte} : (id, r) ∈ pairTable p .register ↔
    (p.fnReRegisterReply.isSome ∧ id = 0x01 ∧ r = 0x83) ∨ (id = 0x02 ∧ r = 0x81) ∨ (id = 0x03 ∧ r = 0x82) ∨
      ∃ e ∈ p.regExtra, e.nameId = id ∧ e.response = some r := by
  cases hr : p.fnReRegisterReply <;>
    simp [pairTable, mem_extraPairs, hr, ID_REREGISTER, ID_REREGISTER_REPLY, ID_OFFLINE_QUERY, ID_OFFLINE_QUERY_REPLY,
      ID_SEND_REGISTER_ADDRESS, ID_ADDRESS_CONFIRM]

theorem mem_pairTable_read {p : Params} {id r : Byte} : (id, r) ∈ pairTable p .read ↔
    (id = 0x11 ∧ r = 0x91) ∨ ∃ e ∈ p.readExtra, e.nameId = id ∧ e.response = some r := by
  simp [pairTable, mem_extraPairs, ID_QUERY_NORMAL_INFO, ID_QUERY_NORMAL_INFO_REPLY]

/-! ### LOOKUP -/

/-- Rules R132 and R133: a family with a table. -/
theorem exec_lookup_of_threshold {s : State} {ctrl t : Byte} {F : Family} (hF : familyOf s.params ctrl = F)
    (ht : threshold s.params F = some t) (fn : Byte) : exec (.lookup ctrl fn) s =
      .next (s.answer .ok [F.code, (directionOf t fn).code, nameOf (nameTable s.params F) fn]) := by
  simp only [exec, execLookup, lookupReading, hF, ht, Reading.data, directionByte]

/-- Rule R134: a family without a table. -/
theorem exec_lookup_unsupported {s : State} {ctrl : Byte} (ht : threshold s.params (familyOf s.params ctrl) = none)
    (fn : Byte) : exec (.lookup ctrl fn) s =
      .next (s.answer .ok [(familyOf s.params ctrl).code, 0xFF, 0x00]) := by
  simp only [exec, execLookup, lookupReading, ht, Reading.data, directionByte, ID_ABSENT]

/-- What LOOKUP answers of a family with a table, the name id by the table's entry. -/
theorem exec_lookup_classifies {s : State} (hv : s.params.Valid) {ctrl t : Byte} {F : Family}
    (hF : familyOf s.params ctrl = F) (ht : threshold s.params F = some t) (fn : Byte) :
    ∃ id, exec (.lookup ctrl fn) s = .next (s.answer .ok [F.code, if fn < t then 0x00 else 0x01, id]) ∧
      (∀ n, (fn, n) ∈ nameTable s.params F → id = n) ∧ ((∀ n, (fn, n) ∉ nameTable s.params F) → id = 0x00) := by
  refine ⟨nameOf (nameTable s.params F) fn, ?_, fun n hn => ?_, nameOf_of_not_mem⟩
  · rw [exec_lookup_of_threshold hF ht, directionOf_code]
  · exact nameOf_of_mem (nameTable_codes_nodup hv F) hn

/-! ### FUNCTION_NAME -/

theorem exec_functionName_illegalCommand {family dir : Byte}
    (h : familyOperand family = none ∨ directionOperand dir = none) (fn : Byte) (s : State) :
    exec (.functionName family fn dir) s = .next (s.answer .illegalCommand []) := by
  simp only [exec, execFunctionName]
  split
  · next hF hd => simp [hF, hd] at h
  · rfl

theorem exec_functionName_ok (F : Family) (fn : Byte) (d : Direction) (s : State) :
    exec (.functionName F.code fn d.code) s = .next (s.answer .ok [functionName s.params F fn d]) := by
  simp only [exec, execFunctionName, familyOperand_code, directionOperand_code]

theorem functionName_of_no_threshold {p : Params} {F : Family} (ht : threshold p F = none) (fn : Byte)
    (d : Direction) : functionName p F fn d = 0x00 := by
  simp only [functionName, ht, ID_ABSENT]

theorem functionName_of_threshold {p : Params} {F : Family} {t : Byte} (ht : threshold p F = some t) (fn : Byte)
    (d : Direction) :
    functionName p F fn d = if directionOf t fn = d then nameOf (nameTable p F) fn else 0x00 := by
  simp only [functionName, ht, ID_ABSENT]

/-! ### CODE_OF -/

theorem exec_codeOf_illegalCommand {family : Byte} (h : familyOperand family = none) (id : Byte) (s : State) :
    exec (.codeOf family id) s = .next (s.answer .illegalCommand []) := by
  simp only [exec, execCodeOf, h]

theorem exec_codeOf_present {s : State} (hv : s.params.Valid) {F : Family} {c id : Byte}
    (hm : (c, id) ∈ nameTable s.params F) :
    exec (.codeOf F.code id) s = .next (s.answer .ok [0x01, c]) := by
  have hc := codeOfName_of_mem (nameTable_ids_nodup hv F) (table_id_ne_absent hv hm) hm
  simp only [exec, execCodeOf, familyOperand_code, hc, optionData, boolByte, if_true]

theorem exec_codeOf_absent {s : State} {F : Family} {id : Byte} (hm : ∀ c, (c, id) ∉ nameTable s.params F) :
    exec (.codeOf F.code id) s = .next (s.answer .ok [0x00, 0x00]) := by
  simp only [exec, execCodeOf, familyOperand_code, codeOfName_of_not_mem hm, optionData, boolByte, Bool.false_eq_true,
    if_false]

/-! ### RESPONSE_OF -/

theorem exec_responseOf_illegalCommand {family : Byte} (h : familyOperand family = none) (id : Byte) (s : State) :
    exec (.responseOf family id) s = .next (s.answer .illegalCommand []) := by
  simp only [exec, execResponseOf, h]

theorem exec_responseOf_present {s : State} (hv : s.params.Valid) {F : Family} {id r : Byte}
    (hm : (id, r) ∈ pairTable s.params F) :
    exec (.responseOf F.code id) s = .next (s.answer .ok [0x01, r]) := by
  have hr := responseOfName_of_mem (pairTable_ids_nodup hv F) hm
  simp only [exec, execResponseOf, familyOperand_code, hr, optionData, boolByte, if_true]

theorem exec_responseOf_absent {s : State} {F : Family} {id : Byte} (hm : ∀ r, (id, r) ∉ pairTable s.params F) :
    exec (.responseOf F.code id) s = .next (s.answer .ok [0x00, 0x00]) := by
  simp only [exec, execResponseOf, familyOperand_code, responseOfName_of_not_mem hm, optionData, boolByte,
    Bool.false_eq_true, if_false]

/-- The ReRegister name is paired only where the optional reply is configured: no extra entry has its id. -/
theorem reRegister_not_paired {p : Params} (hv : p.Valid) (hn : p.fnReRegisterReply = none) (r : Byte) :
    (0x01, r) ∉ pairTable p .register := by
  rw [mem_pairTable_register]
  rintro (⟨hs, -⟩ | ⟨h, -⟩ | ⟨h, -⟩ | ⟨e, he, hid, -⟩)
  · simp [hn] at hs
  · exact absurd h (by decide)
  · exact absurd h (by decide)
  · exact fixed_id_not_extra (register_extra_valid hv e he) (by simp [hid])

/-! ### The obligations -/

/-- Settles O17: both families with a table classify by their own threshold and table. -/
theorem lookupClassifies : Obligations.LookupClassifies := by
  unfold Obligations.LookupClassifies
  exact fun s fn hv => ⟨fun ctrl => decode_command rfl s.params,
    exec_lookup_classifies hv familyOf_register rfl fn, exec_lookup_classifies hv (familyOf_read hv) rfl fn⟩

/-- Settles O19: the operands' domains decide the status, the family's threshold whether the table is asked. -/
theorem functionNameAnswers : Obligations.FunctionNameAnswers := by
  unfold Obligations.FunctionNameAnswers
  refine fun s family fn dir hv => ⟨decode_command rfl s.params, fun hd => ?domain, fun hf hd => ?noTable,
    fun F T ctrl hF hd => ?table⟩
  case domain =>
    exact exec_functionName_illegalCommand (hd.imp familyOperand_eq_none directionOperand_eq_none) fn s
  case noTable =>
    obtain ⟨F, rfl, ht, -⟩ := exists_family_code_without_table hf s.params
    obtain ⟨d, rfl⟩ := exists_direction_code hd
    rw [exec_functionName_ok, functionName_of_no_threshold ht]
    rfl
  case table =>
    have hfam : family = F.code ∧ familyOf s.params ctrl = F ∧ threshold s.params F = some T := by
      obtain ⟨rfl, rfl, rfl, rfl⟩ | ⟨rfl, rfl, rfl, rfl⟩ := hF
      · exact ⟨rfl, familyOf_register, rfl⟩
      · exact ⟨rfl, familyOf_read hv, rfl⟩
    obtain ⟨rfl, hctrl, ht⟩ := hfam
    obtain ⟨d, rfl⟩ := exists_direction_code hd
    refine ⟨functionName s.params F fn d, exec_functionName_ok F fn d s, fun hdir => ?_, fun hdir => ?_⟩
    · have hd' := code_eq_by_threshold_iff.mp hdir
      rw [exec_lookup_of_threshold hctrl ht, functionName_of_threshold ht, if_pos hd', hd']
      rfl
    · rw [functionName_of_threshold ht, if_neg (mt code_eq_by_threshold_iff.mpr hdir)]

/-- Settles O20: an entry is the only one with its name id, so finding the id finds the entry's code. -/
theorem codeOfReversesTable : Obligations.CodeOfReversesTable := by
  unfold Obligations.CodeOfReversesTable
  refine fun s family id hv => ⟨decode_command rfl s.params,
    fun hd => exec_codeOf_illegalCommand (familyOperand_eq_none hd) id s, fun hf => ?absent, fun F hF => ?table⟩
  case absent =>
    obtain hf | ⟨rfl, hf⟩ := hf
    · obtain ⟨F, rfl, -, ht, -⟩ := exists_family_code_without_table hf s.params
      exact exec_codeOf_absent fun c => by simp [ht]
    · obtain ⟨F, rfl⟩ := exists_family_code hf
      exact exec_codeOf_absent fun c hm => table_id_ne_absent hv hm rfl
  case table =>
    have hfam : family = F.code := by
      obtain ⟨rfl, rfl⟩ | ⟨rfl, rfl⟩ := hF <;> rfl
    subst hfam
    exact ⟨fun c => exec_codeOf_present hv, exec_codeOf_absent⟩

/-- Settles O21: each clause says whether the family's pairs hold one for the id. -/
theorem responseOfIsFixedTable : Obligations.ResponseOfIsFixedTable := by
  unfold Obligations.ResponseOfIsFixedTable
  intro s family id hv
  have regPair : ∀ {a r}, (a, r) ∈ pairTable s.params .register →
      exec (.responseOf 0x00 a) s = .next (s.answer .ok [0x01, r]) := exec_responseOf_present hv
  have readPair : ∀ {a r}, (a, r) ∈ pairTable s.params .read →
      exec (.responseOf 0x01 a) s = .next (s.answer .ok [0x01, r]) := exec_responseOf_present hv
  refine ⟨decode_command rfl s.params, fun hd => exec_responseOf_illegalCommand (familyOperand_eq_none hd) id s,
    fun hf => ?absent, fun hf => ?unpaired, ?reRegister, regPair ?_, regPair ?_, readPair ?_,
    fun e he r hr => regPair ?_, fun e he r hr => readPair ?_⟩
  case absent =>
    obtain hf | ⟨hid, hf⟩ := hf
    · obtain ⟨F, rfl, -, -, ht⟩ := exists_family_code_without_table hf s.params
      exact exec_responseOf_absent fun r => by simp [ht]
    · obtain ⟨F, rfl⟩ := exists_family_code hf
      exact exec_responseOf_absent fun r => response_id_not_paired hv hid
  case unpaired =>
    obtain ⟨rfl, hid, hx⟩ | ⟨rfl, hid, hx⟩ := hf
    · refine exec_responseOf_absent (F := .register) fun r hm => ?_
      obtain ⟨-, rfl, -⟩ | ⟨rfl, -⟩ | ⟨rfl, -⟩ | ⟨e, he, rfl, hr⟩ := mem_pairTable_register.mp hm
      · simp at hid
      · simp at hid
      · simp at hid
      · simp [hx e he rfl] at hr
    · refine exec_responseOf_absent (F := .read) fun r hm => ?_
      obtain ⟨rfl, -⟩ | ⟨e, he, rfl, hr⟩ := mem_pairTable_read.mp hm
      · exact hid rfl
      · simp [hx e he rfl] at hr
  case reRegister =>
    cases hn : s.params.fnReRegisterReply with
    | none => exact exec_responseOf_absent (F := .register) (reRegister_not_paired hv hn)
    | some c => exact regPair (mem_pairTable_register.mpr (.inl ⟨by simp [hn], rfl, rfl⟩))
  · exact mem_pairTable_register.mpr (.inr (.inl ⟨rfl, rfl⟩))
  · exact mem_pairTable_register.mpr (.inr (.inr (.inl ⟨rfl, rfl⟩)))
  · exact mem_pairTable_read.mpr (.inl ⟨rfl, rfl⟩)
  · exact mem_pairTable_register.mpr (.inr (.inr (.inr ⟨e, he, rfl, hr⟩)))
  · exact mem_pairTable_read.mpr (.inr ⟨e, he, rfl, hr⟩)

/-- Settles O18: the family is one of those without a table, so the reading is the marker. -/
theorem lookupUnsupportedMarker : Obligations.LookupUnsupportedMarker := by
  unfold Obligations.LookupUnsupportedMarker
  intro s ctrl fn _ hreg hread
  have hF := familyOf_other (p := s.params) hreg hread
  have hmarker : threshold s.params (familyOf s.params ctrl) = none ∧ (familyOf s.params ctrl).code =
      if ctrl = s.params.ctrlWrite then 0x02 else if ctrl = s.params.ctrlExecute then 0x03 else 0xFF := by
    rw [hF]
    split_ifs <;> exact ⟨rfl, rfl⟩
  obtain ⟨ht, hcode⟩ := hmarker
  rw [exec_lookup_unsupported ht, hcode]
  rfl

end Sys2Proof.Machine
end

section
/-! PROOFS. The handshake's commands (43_handshake.md): FSM_GO and FSM_RESULT case by case, FSM_RESET, TABLE_RESET and
FILTER_SERIAL. -/

open Sys2Proof Sys2Proof.Machine Sys2Proof.Claims

namespace Sys2Proof.Machine

/-! ### FSM_GO, by the worker's state (rule R171) -/

/-- A request whose payload fits is built and made pending. -/
theorem emitted_emit {payload : List Byte} (h : payload.length ≤ 255) (s : State) (w fn : Byte) (pd : Pend)
    (x : Worker) : s.emitted w (x.emit s.params fn payload pd) =
      (s.setWorker w { x with tx := requestBytes s.params fn payload, pend := pd }).answer .ok [] := by
  rw [emit_of_le h, State.emitted]

/-- With nothing pending FSM_GO takes the step of the worker's state. -/
theorem exec_fsmGo_of_idle {s : State} {w : Byte} {x : Worker} (h : s.worker? w = some x) (hp : x.pend = .none) :
    exec (.fsmGo w) s = .next (goStep w x s) := by
  simp only [exec, execFsmGo, h, hp, if_true]

section
variable {x : Worker} (s : State) (w : Byte)

/-- Rule R172. -/
theorem goStep_reRegister (h : x.state = .unregistered) (hp : x.phase = .reRegister) :
    goStep w x s = (s.setWorker w
      { x with tx := requestBytes s.params s.params.fnReRegister [], pend := .reRegister }).answer .ok [] := by
  calc goStep w x s = goReRegister w x s := by simp only [goStep, h, hp]
    _ = _ := emitted_emit (by simp) s w _ _ x

/-- Rule R173. -/
theorem goStep_offlineQuery (h : x.state = .unregistered) (hp : x.phase = .offlineQuery) :
    goStep w x s = (s.setWorker w
      { x with tx := requestBytes s.params s.params.fnOfflineQuery [], pend := .offlineQuery }).answer .ok [] := by
  calc goStep w x s = goOfflineQuery w x s := by simp only [goStep, h, hp]
    _ = _ := emitted_emit (by simp) s w _ _ x

/-- Rule R181: the length is checked before the table is asked. -/
theorem goStep_payloadTooLong (h : x.state = .awaitingSerial) (hl : 254 < x.raw.length) :
    goStep w x s = s.failStep w x .payloadTooLong 0 0 0 [] 3 true := by
  simp only [goStep, h, goAllocate]
  rw [if_pos hl]

/-- Rule R180. -/
theorem goStep_addressSpaceExhausted {s : State} (h : x.state = .awaitingSerial) (hl : x.raw.length ≤ 254)
    (ht : s.table.allocateNext = none) : goStep w x s = s.failStep w x .addressSpaceExhausted 0 0 0 [] 3 true := by
  simp only [goStep, h, goAllocate, ht]
  rw [if_neg (Nat.not_lt.mpr hl)]

/-- Rule R182. -/
theorem goStep_resend (h : x.state = .awaitingAddressConfirm) (hl : x.raw.length ≤ 254) :
    goStep w x s = (s.setWorker w
      { x with
        tx := requestBytes s.params s.params.fnSendRegisterAddress (x.raw ++ [x.addr]),
        pend := .sendRegisterAddress }).answer .ok [] := by
  calc goStep w x s = goResend w x s := by simp only [goStep, h]
    _ = _ := emitted_emit (by simp; omega) s w _ _ x

end

/-- No address is left once the largest key is the last assignable address (rule R190). -/
theorem allocateNext_eq_none {t : Table} (h : t.wf) {m : Nat} (hm : IsMaxKey t m) (hk : 253 ≤ m) :
    t.allocateNext = none := by
  obtain rfl := (isMaxKey_iff h).mp hm
  obtain ⟨-, ha⟩ | ⟨hle, -⟩ := t.allocateNext_cases
  · exact ha
  · omega

/-- In AwaitingAddressConfirm the invariant's `tx` is the request FSM_GO builds, and there is room for its address
byte. -/
theorem inv_tx_awaitingAddressConfirm {p : Params} {x : Worker} (h : x.Inv p) (hs : x.state = .awaitingAddressConfirm) :
    x.raw.length ≤ 254 ∧ x.tx = requestBytes p p.fnSendRegisterAddress (x.raw ++ [x.addr]) := by
  obtain ⟨-, -, ⟨-, -, -, -, hroom⟩, -, ⟨-, -, htx⟩, -⟩ := h
  have hraw : x.raw.length ≤ 254 := hroom (.inl hs)
  exact ⟨hraw, (encodeFrame_request_iff (by simp; omega)).mp (htx hs)⟩

/-! ### FSM_RESULT, by the pending exchange (rule R174) -/

theorem exec_fsmResult_of_exchangeResult {s : State} {w present : Byte} {data : List Byte} {x : Worker}
    {r : Option (List Byte)} (h : s.worker? w = some x) (hr : exchangeResult present data = some r) :
    exec (.fsmResult w present data) s = .next (deliver w r s) := by
  simp only [exec, execFsmResult, h, hr]

theorem exchangeResult_bytes (f : WireFrame) : exchangeResult 0x01 f.bytes = some (some f.bytes) := by
  rw [exchangeResult_one, if_neg (bytes_ne_nil f)]

/-- Every exchange result in its domain is delivered (rule R151). -/
theorem exists_exchangeResult {present : Byte} {data : List Byte}
    (h : (present = 0x00 ∧ data = []) ∨ present = 0x01) : ∃ r, exchangeResult present data = some r := by
  obtain ⟨rfl, rfl⟩ | rfl := h
  · exact ⟨none, exchangeResult_zero⟩
  · exact ⟨_, exchangeResult_one data⟩

section
variable {s : State} {w : Byte} {x : Worker} (h : s.worker? w = some x) (r : Option (List Byte))
include h

/-- Rule R175. -/
theorem deliver_reRegister (hp : x.pend = .reRegister) :
    deliver w r s = (s.setWorker w { x with pend := .none, phase := .offlineQuery }).answer .ok [] := by
  simp only [deliver, h, hp]

theorem deliver_offlineQuery (hp : x.pend = .offlineQuery) :
    deliver w r s = answerOfflineQuery w { x with pend := .none } r s := by
  simp only [deliver, h, hp]

theorem deliver_sendRegisterAddress (hp : x.pend = .sendRegisterAddress) :
    deliver w r s = answerAddressConfirm w { x with pend := .none } r s := by
  simp only [deliver, h, hp]

end

/-! ### No usable answer (rules R178, R186) -/

/-- An exchange result that is no frame: its status and the bytes the diagnostics capture. -/
inductive Unusable (p : Params) : Option (List Byte) → Status → List Byte → Prop where
  | noAnswer : Unusable p none .noResponse []
  | undecodable {bytes : List Byte} {st : Status} (h : decodeFrame p.decodeCheckMagic bytes = .error st) :
      Unusable p (some bytes) st bytes

theorem exists_unusable {p : Params} {present e : Byte} {data : List Byte}
    (h : (data = [] ∧ (present = 0x00 ∨ present = 0x01) ∧ e = 0x06) ∨
      (data ≠ [] ∧ present = 0x01 ∧ decodeError p.decodeCheckMagic data = some e)) :
    ∃ r st, exchangeResult present data = some r ∧ Unusable p r st data ∧ st.code = e := by
  obtain ⟨rfl, hpresent, rfl⟩ | ⟨hdata, rfl, he⟩ := h
  · refine ⟨none, .noResponse, ?_, .noAnswer, rfl⟩
    obtain rfl | rfl := hpresent
    · exact exchangeResult_zero
    · exact exchangeResult_one []
  · obtain ⟨st, hst, hcode⟩ := decodeError_some he
    exact ⟨some data, st, by rw [exchangeResult_one, if_neg hdata], .undecodable hst, hcode⟩

theorem answerOfflineQuery_unusable {s : State} {r : Option (List Byte)} {st : Status} {bytes : List Byte}
    (h : Unusable s.params r st bytes) (w : Byte) (x : Worker) :
    answerOfflineQuery w x r s = s.failStep w { x with phase := .reRegister } st 0 0 0 bytes 2 false := by
  cases h with
  | noAnswer => rfl
  | undecodable h => simp only [answerOfflineQuery, h]

theorem answerAddressConfirm_unusable {s : State} {r : Option (List Byte)} {st : Status} {bytes : List Byte}
    (h : Unusable s.params r st bytes) (w : Byte) (x : Worker) :
    answerAddressConfirm w x r s = s.failStep w x st 0 0 0 bytes 4 false := by
  cases h with
  | noAnswer => rfl
  | undecodable h => simp only [answerAddressConfirm, h]

/-! ### A frame that decodes: its checks pass or fail (rules R176, R177, R183, R184) -/

section
variable {s : State} {w : Byte} {x : Worker} {f : WireFrame}

/-- FAIL with the failed checks `m` and both checksums, as the statements spell it (rules R185, R189). -/
theorem failStep_rejected {m : BitVec 5} (hm : m ≠ 0) (hl : f.payload.length ≤ 255) (step : BitVec 3) :
    s.failStep w { x with pend := .none } (reasonOf m) m
        (verdictOf s.params.cksumWideCompare (frameOf f.bytes)).expected
        (verdictOf s.params.cksumWideCompare (frameOf f.bytes)).found f.bytes step true =
      { s with
        workers := s.workers.set w.toNat (rejected s.params f m step x), result := [reasonByte m] } := by
  simp only [verdict_expected hl, verdict_found hl, rejected, ← reasonByte_eq hm]
  rfl

variable (hf : Decodes s.params f)
include hf

theorem answerOfflineQuery_accepted (hm : mask2 s.params f = 0) :
    answerOfflineQuery w { x with pend := .none } (some f.bytes) s = (s.setWorker w
      { x with pend := .none, raw := f.payload, phase := .reRegister, state := .awaitingSerial }).answer .ok [] := by
  simp only [answerOfflineQuery, decodeFrame_of_decodes hf, mask2_eq hf.1]
  rw [if_pos hm, frameOf_bytes hf.1]

theorem answerOfflineQuery_rejected (hm : mask2 s.params f ≠ 0) :
    answerOfflineQuery w { x with pend := .none } (some f.bytes) s =
      { s with
        workers := s.workers.set w.toNat (rejected s.params f (mask2 s.params f) 2 x),
        result := [reasonByte (mask2 s.params f)] } := by
  simp only [answerOfflineQuery, decodeFrame_of_decodes hf, mask2_eq hf.1]
  rw [if_neg hm, failStep_rejected hm hf.1]

theorem answerAddressConfirm_accepted (hm : mask4 s.params x.addr f = 0) :
    answerAddressConfirm w { x with pend := .none } (some f.bytes) s =
      (State.setWorker { s with table := s.table.record x.addr.toNat (filterSerial s.params x.raw) } w
        { x with
          pend := .none, serialText := filterSerial s.params x.raw, state := .registered }).answer .ok [] := by
  simp only [answerAddressConfirm, decodeFrame_of_decodes hf, mask4_eq hf.1]
  rw [if_pos hm]

theorem answerAddressConfirm_rejected (hm : mask4 s.params x.addr f ≠ 0) :
    answerAddressConfirm w { x with pend := .none } (some f.bytes) s =
      { s with
        workers := s.workers.set w.toNat (rejected s.params f (mask4 s.params x.addr f) 4 x),
        result := [reasonByte (mask4 s.params x.addr f)] } := by
  simp only [answerAddressConfirm, decodeFrame_of_decodes hf, mask4_eq hf.1]
  rw [if_neg hm, failStep_rejected hm hf.1]

end

/-! ### FSM_RESET -/

theorem exec_fsmReset_badWorker {s : State} {w : Byte} (h : s.worker? w = none) :
    exec (.fsmReset w) s = .next (s.answer .badWorker []) := by
  simp only [exec, execFsmReset, h]

theorem exec_fsmReset_ok {s : State} {w : Byte} {x : Worker} (h : s.worker? w = some x) :
    exec (.fsmReset w) s = .next ((s.resetWorker w).answer .ok []) := by
  simp only [exec, execFsmReset, h]

/-! ### The serial filter (rule R195) -/

theorem isSpace_iff (b : Byte) : isSpace b = true ↔ b ∈ whiteSpace := decide_eq_true_iff

/-- The filter is the library's `rdropWhile`, which drops from the end. -/
theorem filterSerial_eq_rdropWhile (p : Params) (bytes : List Byte) :
    filterSerial p bytes = (bytes.filter fun b => decide (b ∈ p.serialCharset)).rdropWhile isSpace := rfl

/-- The kept bytes are the text and the white space that was trimmed. -/
theorem filterSerial_append_spaces (p : Params) (bytes : List Byte) :
    ∃ spaces, (bytes.filter fun b => decide (b ∈ p.serialCharset)) = filterSerial p bytes ++ spaces ∧
      ∀ b ∈ spaces, b ∈ whiteSpace := by
  refine ⟨_, (List.rdropWhile_append_rtakeWhile (p := isSpace)).symm, fun b hb => ?_⟩
  exact (isSpace_iff b).mp (List.mem_rtakeWhile_imp hb)

theorem filterSerial_getLast_not_space {p : Params} {bytes : List Byte} {b : Byte}
    (h : (filterSerial p bytes).getLast? = some b) : b ∉ whiteSpace := by
  obtain ⟨hne, rfl⟩ := List.mem_getLast?_eq_getLast h
  exact fun hb => List.rdropWhile_last_not _ _ hne ((isSpace_iff _).mpr hb)

theorem decode_filterSerial {data : List Byte} (h : data.length ≤ 255) (p : Params) :
    decode p ⟨none, OP_FILTER_SERIAL :: length8 data.length :: data⟩ = .filterSerial data := by
  have hn : data.length = (length8 data.length).toNat := (length8_toNat h).symm
  have hop : ∀ args, decodeOperands OP_FILTER_SERIAL args = decodeFilter args := fun _ => rfl
  refine decode_command ?_ p
  rw [hop, decodeFilter, if_pos hn]

/-! ### The obligations -/

/-- Settles O24: the length is checked first, then the table has no address; each failure is FAIL of step 3. -/
theorem goAbandonsWithoutAddress : Obligations.GoAbandonsWithoutAddress := by
  unfold Obligations.GoAbandonsWithoutAddress
  refine fun s w x hx hs hp => ⟨fun hl => ?tooLong, fun hl hwf hm => ?exhausted⟩
  case tooLong =>
    rw [exec_fsmGo_of_idle hx hp, goStep_payloadTooLong s w hs hl]
    rfl
  case exhausted =>
    obtain ⟨m, hm, hk⟩ := hm
    rw [exec_fsmGo_of_idle hx hp, goStep_addressSpaceExhausted w hs hl (allocateNext_eq_none hwf hm hk)]
    rfl

/-- Settles O25: the frame FSM_GO builds is the one the invariant says is in `tx`. -/
theorem goResendsSameFrame : Obligations.GoResendsSameFrame := by
  unfold Obligations.GoResendsSameFrame
  intro s w x hx hs hp hinv
  obtain ⟨hraw, htx⟩ := inv_tx_awaitingAddressConfirm hinv hs
  refine ⟨htx.trans (requestFrame_eq _ _ _).symm, ?_⟩
  rw [exec_fsmGo_of_idle hx hp, goStep_resend s w hs hraw, ← htx]
  rfl

/-- Settles O28: the four checks pass, so the payload is the serial. -/
theorem offlineQueryAccepted : Obligations.OfflineQueryAccepted := by
  unfold Obligations.OfflineQueryAccepted
  intro s w x f hx hp hf hm
  rw [exec_fsmResult_of_exchangeResult hx (exchangeResult_bytes f), deliver_offlineQuery hx _ hp,
    answerOfflineQuery_accepted hf hm]
  rfl

/-- Settles O29: a check of the four fails, so the step's FAIL records them all. -/
theorem offlineQueryRejected : Obligations.OfflineQueryRejected := by
  unfold Obligations.OfflineQueryRejected
  intro s w x f hx hp hf hm
  rw [exec_fsmResult_of_exchangeResult hx (exchangeResult_bytes f), deliver_offlineQuery hx _ hp,
    answerOfflineQuery_rejected hf hm]

/-- Settles O30: no answer and an undecodable one are one case, whose FAIL is not fatal. -/
theorem noUsableAnswerIsNotFatal : Obligations.NoUsableAnswerIsNotFatal := by
  unfold Obligations.NoUsableAnswerIsNotFatal
  intro s w x present data e hx hanswer
  obtain ⟨r, st, hr, hu, rfl⟩ := exists_unusable hanswer
  refine ⟨fun hp => ?offlineQuery, fun hp => ?sendRegisterAddress⟩
  case offlineQuery =>
    rw [exec_fsmResult_of_exchangeResult hx hr, deliver_offlineQuery hx _ hp, answerOfflineQuery_unusable hu]
    rfl
  case sendRegisterAddress =>
    rw [exec_fsmResult_of_exchangeResult hx hr, deliver_sendRegisterAddress hx _ hp, answerAddressConfirm_unusable hu]
    rfl

/-- Settles O31: the five checks pass, so the table's one write is the record at the worker's address. -/
theorem addressConfirmAccepted : Obligations.AddressConfirmAccepted := by
  unfold Obligations.AddressConfirmAccepted
  intro s w x f hx hp hf hm hwf
  have haddr : x.addr.toNat ≤ 255 := Nat.le_of_lt_succ x.addr.isLt
  refine ⟨s.table.record x.addr.toNat (filterSerial s.params x.raw), ?_, Table.record_wf hwf haddr _,
    fun a => Table.read_record hwf _ a _⟩
  rw [exec_fsmResult_of_exchangeResult hx (exchangeResult_bytes f), deliver_sendRegisterAddress hx _ hp,
    answerAddressConfirm_accepted hf hm]
  rfl

/-- Settles O32: a check of the five fails, so the step's FAIL records them all and the table is not written. -/
theorem addressConfirmRejected : Obligations.AddressConfirmRejected := by
  unfold Obligations.AddressConfirmRejected
  intro s w x f hx hp hf hm
  rw [exec_fsmResult_of_exchangeResult hx (exchangeResult_bytes f), deliver_sendRegisterAddress hx _ hp,
    answerAddressConfirm_rejected hf hm]

/-- Settles O43: the text is what is left when white space is dropped from the end of the kept bytes. -/
theorem filterSerialTrims : Obligations.FilterSerialTrims := by
  unfold Obligations.FilterSerialTrims
  intro s data
  obtain ⟨spaces, hsplit, hspaces⟩ := filterSerial_append_spaces s.params data
  exact ⟨fun hl => decode_filterSerial hl s.params, filterSerial s.params data, spaces, rfl, hsplit, hspaces,
    fun _ => filterSerial_getLast_not_space⟩

/-- Settles O22: the phase decides which of the two requests is sent. -/
theorem goSendsFirstRequests : Obligations.GoSendsFirstRequests := by
  unfold Obligations.GoSendsFirstRequests
  refine fun s w x hx hs hp => ⟨fun hphase => ?reRegister, fun hphase => ?offlineQuery⟩
  case reRegister =>
    rw [exec_fsmGo_of_idle hx hp, goStep_reRegister s w hs hphase, requestFrame_eq]
    rfl
  case offlineQuery =>
    rw [exec_fsmGo_of_idle hx hp, goStep_offlineQuery s w hs hphase, requestFrame_eq]
    rfl

/-- Settles O27: the delivery to a pending ReRegister does not read the exchange result. -/
theorem reRegisterAnswerIgnored : Obligations.ReRegisterAnswerIgnored := by
  unfold Obligations.ReRegisterAnswerIgnored
  intro s w x hx hp present data hd
  obtain ⟨r, hr⟩ := exists_exchangeResult hd
  rw [exec_fsmResult_of_exchangeResult hx hr, deliver_reRegister hx r hp]
  rfl

/-- Settles O40: the worker's index decides between its reset and BadWorker. -/
theorem fsmResetResetsOneWorker : Obligations.FsmResetResetsOneWorker := by
  unfold Obligations.FsmResetResetsOneWorker
  refine fun s w => ⟨decode_command rfl s.params, fun hw => ?badWorker, fun hw => ?reset⟩
  case badWorker => exact exec_fsmReset_badWorker (worker?_eq_none_of_nw_le hw)
  case reset =>
    obtain ⟨x, hx⟩ := exists_worker?_of_lt_nw hw
    exact exec_fsmReset_ok hx

/-- Settles O42: the table left is the empty one. -/
theorem tableResetFreesEveryEntry : Obligations.TableResetFreesEveryEntry := by
  unfold Obligations.TableResetFreesEveryEntry
  exact fun s => ⟨decode_command rfl s.params, [], rfl, Table.wf_nil, Table.read_nil⟩

end Sys2Proof.Machine
end

section
/-! PROOFS. The derived output ALL_ABANDONED (rule R236). -/

open Sys2Proof Sys2Proof.Machine

namespace Sys2Proof.Machine

theorem allAbandoned_iff_forall_mem (s : State) :
    s.allAbandoned = true ↔ ∀ x ∈ s.workers, x.state = .abandoned := by
  simp only [State.allAbandoned, List.all_eq_true, decide_eq_true_eq]

/-- For an index of a worker, the state read at the index is that worker's. -/
theorem map_state_getElem?_eq_some_iff {s : State} {n : Nat} (h : n < s.workers.length) (st : FsmState) :
    (s.workers[n]?).map (·.state) = some st ↔ s.workers[n].state = st := by
  rw [List.getElem?_eq_getElem h, Option.map_some, Option.some_inj]

/-- Settles O55: every worker held is the worker at an index below `nw`, and the two conditions agree there. -/
theorem allAbandonedSignal : Obligations.AllAbandonedSignal := by
  unfold Obligations.AllAbandonedSignal
  intro s
  calc s.allAbandoned = true
    _ ↔ ∀ x ∈ s.workers, x.state = .abandoned := allAbandoned_iff_forall_mem s
    _ ↔ ∀ n, ∀ h : n < s.nw, s.workers[n].state = .abandoned := List.forall_mem_iff_getElem
    _ ↔ ∀ n, n < s.nw → (s.workers[n]?).map (·.state) = some .abandoned :=
      forall₂_congr fun _ h => (map_state_getElem?_eq_some_iff h .abandoned).symm

end Sys2Proof.Machine
end

section
/-! PROOFS. The reset values (70_reset_and_hazards.md, rule R251). -/

open Sys2Proof Sys2Proof.Machine

namespace Sys2Proof.Machine

theorem worker?_resetWith (p : Params) {nw : Nat} {w : Byte} (h : w.toNat < nw) :
    (State.resetWith p nw).worker? w = some Worker.reset := by
  rw [worker?_eq, resetWith_workers, List.getElem?_replicate_of_lt h]

/-- A reset worker is not Abandoned, so one worker is enough; with none, ALL_ABANDONED would be true. -/
theorem allAbandoned_resetWith (p : Params) {nw : Nat} (h : 0 < nw) : (State.resetWith p nw).allAbandoned = false := by
  rw [Bool.eq_false_iff, ne_eq, allAbandoned_iff_forall_mem]
  intro hall
  have hmem : Worker.reset ∈ (State.resetWith p nw).workers := List.mem_replicate.mpr ⟨h.ne', rfl⟩
  exact absurd (hall Worker.reset hmem) (by decide)

/-- Settles O47: the worker found is `Worker.reset`, and the readback map of it is the table of rule R251. -/
theorem resetValues : Obligations.ResetValues := by
  unfold Obligations.ResetValues
  intro p nw w hw s
  have reads : ∀ {r data}, readback Worker.reset r = some data → exec (.fsmRead w r) s = .next (s.answer .ok data) :=
    exec_fsmRead_ok (worker?_resetWith p hw)
  exact ⟨reads rfl, reads rfl, reads rfl, reads rfl, reads rfl, reads rfl, reads rfl, reads rfl, reads rfl, reads rfl,
    reads rfl, Table.read_nil, allAbandoned_resetWith p (Nat.zero_lt_of_lt hw)⟩

end Sys2Proof.Machine
end

section
/-! PROOFS. The ports (30_encoding.md, 42_exchange_port.md): the decoder and the encoder undo each other, and a step runs
what they carry. -/

open Sys2Proof Sys2Proof.Machine Sys2Proof.Claims

namespace Sys2Proof.Machine

/-! ### A frame of each row (rules R78 to R82) -/

/-- In its family, a frame of a row has the row's function code and no earlier row's. -/
theorem frameInstr_eq_of_wf {p : Params} (hv : p.Valid) {i : Instr} {w : Byte} {f : WireFrame}
    (hi : frame? i = some (w, f)) (hwf : i.wf p = true) : frameInstr p w f = i := by
  obtain ⟨h12, h13, h14, h15, h23, h24, h25, h34, h35, h45⟩ := register_codes_ne hv
  cases i with
  | reRegister | offlineQuery | sendRegisterAddress | offlineQueryReply | addressConfirm =>
    obtain ⟨rfl, rfl⟩ := by simpa [frame?] using hi
    obtain ⟨⟨-, hF⟩, hfn⟩ := by simpa [Instr.wf, WireFrame.inFamily] using hwf
    simp [frameInstr, hF, hfn, h12.symm, h13.symm, h14.symm, h15.symm, h23.symm, h24.symm, h25.symm, h34.symm,
      h35.symm, h45.symm]
  | reRegisterReply =>
    obtain ⟨rfl, rfl⟩ := by simpa [frame?] using hi
    obtain ⟨⟨-, hF⟩, hfn⟩ := by simpa [Instr.wf, WireFrame.inFamily] using hwf
    obtain ⟨h1, h2, h3, h4, h5⟩ := reRegisterReply_code_ne hv hfn
    simp [frameInstr, hF, hfn, h1.symm, h2.symm, h3.symm, h4.symm, h5.symm]
  | registerFamilyOther =>
    obtain ⟨rfl, rfl⟩ := by simpa [frame?] using hi
    obtain ⟨⟨-, hF⟩, h1, h2, h3, h4, h5, h6⟩ := by
      simpa [Instr.wf, WireFrame.inFamily, namedRegister, Params.regNamed] using hwf
    simp [frameInstr, hF, h1, h2, h3, h4, h5, h6]
  | queryNormalInfo =>
    obtain ⟨rfl, rfl⟩ := by simpa [frame?] using hi
    obtain ⟨⟨-, hF⟩, hfn⟩ := by simpa [Instr.wf, WireFrame.inFamily] using hwf
    simp [frameInstr, hF, hfn]
  | queryNormalInfoReply =>
    obtain ⟨rfl, rfl⟩ := by simpa [frame?] using hi
    obtain ⟨⟨-, hF⟩, hfn⟩ := by simpa [Instr.wf, WireFrame.inFamily] using hwf
    simp [frameInstr, hF, hfn, (read_codes_ne hv).symm]
  | readFamilyOther =>
    obtain ⟨rfl, rfl⟩ := by simpa [frame?] using hi
    obtain ⟨⟨-, hF⟩, h1, h2⟩ := by simpa [Instr.wf, WireFrame.inFamily, namedRead, Params.readNamed] using hwf
    simp [frameInstr, hF, h1, h2]
  | writeFamily | executeFamily | unknownControl =>
    obtain ⟨rfl, rfl⟩ := by simpa [frame?] using hi
    obtain ⟨-, hF⟩ := by simpa [Instr.wf, WireFrame.inFamily] using hwf
    simp [frameInstr, hF]
  | _ => simp [frame?] at hi

theorem frame_wf_of_wf {p : Params} {i : Instr} {w : Byte} {f : WireFrame} (hi : frame? i = some (w, f))
    (hwf : i.wf p = true) : f.wf = true := by
  cases i <;> simp_all [frame?, Instr.wf, WireFrame.inFamily]

theorem encode_of_frame? {i : Instr} {w : Byte} {f : WireFrame} (hi : frame? i = some (w, f)) :
    encode i = ⟨some w, f.bytes⟩ := by
  cases i <;> simp [frame?] at hi <;> obtain ⟨rfl, rfl⟩ := hi <;> rfl

theorem frame?_frameInstr (p : Params) (w : Byte) (f : WireFrame) : frame? (frameInstr p w f) = some (w, f) := by
  unfold frameInstr
  cases familyOf p f.ctrl with
  | register | read => dsimp only; split_ifs <;> rfl
  | write | execute | unknown => rfl

theorem decode_frame_bytes {p : Params} (hv : p.Valid) {i : Instr} {w : Byte} {f : WireFrame}
    (hi : frame? i = some (w, f)) (hwf : i.wf p = true) : decode p ⟨some w, f.bytes⟩ = i := by
  calc decode p ⟨some w, f.bytes⟩ = frameInstr p w f := decodeRead_bytes (frame_wf_of_wf hi hwf)
    _ = i := frameInstr_eq_of_wf hv hi hwf

/-! ### The command port -/

theorem decodeOperands_eq_none_iff {op : Byte} {args : List Byte} :
    decodeOperands op args = none ↔ legalForm (op :: args) = false := by
  rw [legalForm_iff, ← Option.not_isSome_iff_eq_none, Bool.not_eq_true]

/-- What has no format is ILLEGAL_COMMAND (rules R86, R89). -/
theorem decode_illegalCommand {bytes : List Byte} (h : legalForm bytes = false) (p : Params) :
    decode p ⟨none, bytes⟩ = .illegalCommand bytes := by
  cases bytes with
  | nil => rfl
  | cons op args => simp only [decode, decodeCommand, decodeOperands_eq_none_iff.mpr h, Option.getD_none]

/-- A command of the form `op, L (2), data[L]`, its length field as the encoder spells it. -/
theorem decode_lengthField {op : Byte} {k : List Byte → Instr}
    (hop : ∀ args, decodeOperands op args = (decodeLenData args).map k) {data : List Byte} (h : data.length ≤ 65535)
    (p : Params) : decode p ⟨none, [op] ++ be16Length data.length ++ data⟩ = k data := by
  rw [← twoBytes_length]
  exact decode_lenData hop h p

theorem decode_encodeResult {data : List Byte} (h : data.length ≤ 65535) (w present : Byte) (p : Params) :
    decode p ⟨none, OP_FSM_RESULT :: w :: present :: (be16Length data.length ++ data)⟩ =
      .fsmResult w present data := by
  have hop : ∀ args, decodeOperands OP_FSM_RESULT args = decodeResult args := fun _ => rfl
  refine decode_command ?_ p
  rw [hop, decodeResult, decodeLenData_of_length h, Option.map_some]

/-- Encode then decode, for a command. -/
theorem decode_encode_command {p : Params} {i : Instr} (hi : frame? i = none) (hwf : i.wf p = true) :
    decode p (encode i) = i := by
  cases i with
  | encode src dst ctrl fn payload => exact decode_encodeCommand (of_decide_eq_true hwf) src dst ctrl fn p
  | checksum data | decode data | verify data =>
    exact decode_lengthField (fun _ => rfl) (of_decide_eq_true hwf) p
  | fsmResult w present data => exact decode_encodeResult (of_decide_eq_true hwf) w present p
  | filterSerial data => exact decode_filterSerial (of_decide_eq_true hwf) p
  | illegalCommand bytes => exact decode_illegalCommand (by simpa [Instr.wf] using hwf) p
  | lookup | functionName | codeOf | responseOf | fsmReset | fsmGo | fsmRead | tableReset => exact decode_command rfl p
  | _ => simp [frame?] at hi

/-- Settles O3: a command's format is read back from its bytes, and a frame's row from its family and function code. -/
theorem decodeOfEncode : Obligations.DecodeOfEncode := by
  unfold Obligations.DecodeOfEncode
  intro p i hv hwf
  match hi : frame? i with
  | none => exact decode_encode_command hi hwf
  | some (w, f) =>
    rw [encode_of_frame? hi]
    exact decode_frame_bytes hv hi hwf

/-- Decode then encode, at the command port. -/
theorem encode_decode_command (p : Params) (bytes : List Byte) :
    encode (decode p ⟨none, bytes⟩) = ⟨none, bytes⟩ ∧ (decode p ⟨none, bytes⟩).wf p = true := by
  cases hl : legalForm bytes with
  | false =>
    rw [decode_illegalCommand hl]
    exact ⟨rfl, by simp [Instr.wf, hl]⟩
  | true =>
    cases bytes with
    | nil => simp [legalForm] at hl
    | cons op args =>
      rw [legalForm_iff] at hl
      obtain ⟨i, hi⟩ := Option.isSome_iff_exists.mp hl
      rw [decode_command hi]
      exact ⟨(encode_decodeOperands hi).1, (encode_decodeOperands hi).2 p⟩

/-- Settles O5: a legal form is an opcode's operands, and every other byte sequence is itself the illegal command. -/
theorem commandBytesReencode : Obligations.CommandBytesReencode := by
  unfold Obligations.CommandBytesReencode
  exact encode_decode_command

/-- A command of a legal form is no illegal command: it would be its own bytes, of no form. -/
theorem decode_ne_illegalCommand {bytes : List Byte} (h : legalForm bytes = true) (p : Params) (b : List Byte) :
    decode p ⟨none, bytes⟩ ≠ .illegalCommand b := by
  intro hd
  obtain ⟨he, hwf⟩ := encode_decode_command p bytes
  rw [hd] at he hwf
  obtain rfl : b = bytes := congrArg PortWord.bytes he
  simp [Instr.wf, h] at hwf

/-- The opcodes of rule R87. -/
def opcodes : List Byte :=
  [OP_ENCODE, OP_CHECKSUM, OP_DECODE, OP_VERIFY, OP_LOOKUP, OP_FUNCTION_NAME, OP_CODE_OF, OP_RESPONSE_OF, OP_FSM_RESET,
    OP_FSM_GO, OP_FSM_RESULT, OP_FSM_READ, OP_FILTER_SERIAL, OP_TABLE_RESET]

theorem decodeOperands_eq_none_of_not_mem {op : Byte} (h : op ∉ opcodes) (args : List Byte) :
    decodeOperands op args = none := by
  simp only [opcodes, List.mem_cons, List.not_mem_nil, or_false, not_or] at h
  simp only [decodeOperands, h, if_false]

/-- The ranges of rule R89 hold no opcode of rule R87. -/
theorem not_mem_opcodes {op : Byte} (h : op = 0x00 ∨ (0x05#8 ≤ op ∧ op ≤ 0x0F#8) ∨ (0x14#8 ≤ op ∧ op ≤ 0x1F#8) ∨
    (0x24#8 ≤ op ∧ op ≤ 0x2F#8) ∨ 0x32#8 ≤ op) : op ∉ opcodes := by
  intro hm
  simp only [opcodes, List.mem_cons, List.not_mem_nil, or_false] at hm
  rcases hm with rfl | rfl | rfl | rfl | rfl | rfl | rfl | rfl | rfl | rfl | rfl | rfl | rfl | rfl <;>
    exact absurd h (by decide)

/-- Settles O7: the forms of rule R87 and the illegal commands share no byte sequence. -/
theorem illegalCommandsAreAnswered : Obligations.IllegalCommandsAreAnswered := by
  unfold Obligations.IllegalCommandsAreAnswered
  refine fun s op args bytes => ⟨fun hop => ?_, fun hl => decode_illegalCommand hl s.params,
    fun hl => decode_ne_illegalCommand hl s.params, rfl⟩
  have hnone := decodeOperands_eq_none_of_not_mem (not_mem_opcodes hop) args
  exact decode_illegalCommand (decodeOperands_eq_none_iff.mp hnone) s.params

/-! ### The exchange port -/

/-- A read is a frame exactly when DECODE, its header and trailer unchecked, has no error. -/
theorem decodeError_false_eq_none_iff {buf : List Byte} :
    decodeError false buf = none ↔ ∃ f, parseFrame buf = some f := by
  calc decodeError false buf = none
    _ ↔ ∃ f, Decodes .tc1 f ∧ f.bytes = buf := decodeError_eq_none_iff (p := .tc1)
    _ ↔ ∃ f, parseFrame buf = some f := by
      constructor
      · rintro ⟨f, hf, rfl⟩
        exact ⟨f, parseFrame_bytes hf.1⟩
      · rintro ⟨f, hf⟩
        obtain ⟨rfl, hl⟩ := bytes_of_parseFrame hf
        exact ⟨f, ⟨hl, fun hm => nomatch hm⟩, rfl⟩

theorem decode_empty_read (p : Params) (w : Byte) : decode p ⟨some w, []⟩ = .fsmResult w 0x00 [] := rfl

/-- A read of no whole frame is the exchange result it is (rules R155, R156). -/
theorem decode_read_without_frame {bytes : List Byte} (hne : bytes ≠ []) (hl : bytes.length ≤ 65535)
    (hf : parseFrame bytes = none) (p : Params) (w : Byte) : decode p ⟨some w, bytes⟩ = .fsmResult w 0x01 bytes := by
  have ht : bytes.take READ_MAX = bytes := List.take_of_length_le hl
  obtain ⟨b, bs, rfl⟩ := List.exists_cons_of_ne_nil hne
  simp only [decode, decodeRead, ht, hf]

/-- A read that starts with a whole frame is that frame, in its row. -/
theorem decode_read_frame {bytes : List Byte} {f : WireFrame} (hl : bytes.length ≤ 65535)
    (hf : parseFrame bytes = some f) (p : Params) (w : Byte) :
    decode p ⟨some w, bytes⟩ = frameInstr p w f ∧ f.wf = true ∧ f.bytes = bytes := by
  obtain ⟨rfl, hp⟩ := bytes_of_parseFrame hf
  have hwf : f.wf = true := (wf_iff f).mpr ⟨hp, hl⟩
  exact ⟨decodeRead_bytes hwf, hwf, rfl⟩

/-- Settles O6: a read is empty, holds no whole frame, or is a frame's bytes. -/
theorem readReencodes : Obligations.ReadReencodes := by
  unfold Obligations.ReadReencodes
  intro p w bytes hl
  by_cases hne : bytes = []
  · subst hne
    exact ⟨rfl, fun _ => rfl, fun h => absurd rfl h⟩
  cases hf : parseFrame bytes with
  | none =>
    have hd := decode_read_without_frame hne hl hf p w
    have herr : decodeError false bytes ≠ none := by simp [decodeError_false_eq_none_iff, hf]
    exact ⟨hd ▸ decide_eq_true hl, fun h => absurd h hne, fun _ => .inl ⟨hd, herr⟩⟩
  | some f =>
    obtain ⟨hd, hwf, hb⟩ := decode_read_frame hl hf p w
    have herr : decodeError false bytes = none := decodeError_false_eq_none_iff.mpr ⟨f, hf⟩
    exact ⟨hd ▸ frameInstr_wf hwf, fun h => absurd h hne,
      fun _ => .inr ⟨by rw [hd, encode_frameInstr, hb], herr⟩⟩

/-! ### A step (rules R14, R86, R250, R251) -/

theorem step_of_inbox_nil {s : State} (h : s.inbox = []) : step s = .next s := by
  simp only [step, h]

theorem step_of_blockReset {s : State} {rest : List Input} (h : s.inbox = .blockReset :: rest) :
    step s = .next (State.blockReset { s with inbox := rest }) := by
  simp only [step, h, portWord]

theorem step_of_portWord {s : State} {i : Input} {rest : List Input} {word : PortWord} (h : s.inbox = i :: rest)
    (hw : portWord s.params i = some word) : step s = exec (decode s.params word) { s with inbox := rest } := by
  simp only [step, h, hw]

/-- Settles O1: one equation of `step` for each kind of input. -/
theorem stepRunsDecodedInstruction : Obligations.StepRunsDecodedInstruction := by
  unfold Obligations.StepRunsDecodedInstruction
  exact fun s rest => ⟨step_of_inbox_nil, step_of_blockReset, fun _ h => step_of_portWord h rfl,
    fun _ _ h => step_of_portWord h rfl⟩

/-- An agent with one attempt left reads what stands at its port, empty or not. -/
theorem firstRead_singleton {n : Nat} (h : 1 ≤ n) (bytes : List Byte) : firstRead n [bytes] = bytes := by
  have ht : [bytes].take n = [bytes] := List.take_of_length_le h
  cases bytes <;> simp [firstRead, ht]

theorem portWord_inputOf {p : Params} (h : 1 ≤ p.maxAttempts) (word : PortWord) :
    portWord p (inputOf word) = some word := by
  obtain ⟨port, bytes⟩ := word
  cases port with
  | none => rfl
  | some w => simp only [inputOf, portWord, firstRead_singleton h]

/-- Settles O4: the bytes reach the decoder whole, and decode to the instruction. -/
theorem encodedInstructionRuns : Obligations.EncodedInstructionRuns := by
  unfold Obligations.EncodedInstructionRuns
  intro s i rest hv hwf h
  obtain ⟨-, -, -, hattempts, -⟩ := id hv
  rw [step_of_portWord h (portWord_inputOf hattempts _), decodeOfEncode s.params i hv hwf]

/-- Settles O2: each word is read byte by byte. -/
theorem writtenWordsDecode : Obligations.WrittenWordsDecode := by
  unfold Obligations.WrittenWordsDecode
  exact ⟨rfl, rfl, rfl, rfl, rfl, by decide⟩

end Sys2Proof.Machine
end

section
/-! PROOFS. The invariant of one worker and of the table (rules R22 to R32): what every operation of the handshake keeps of
it, and so every step. -/

open Sys2Proof Sys2Proof.Machine Sys2Proof.Claims

namespace Sys2Proof.Machine

/-! ### Statuses and lengths -/

theorem status_code_le (st : Status) : st.code ≤ 0x0C#8 := by cases st <;> decide

/-- The statuses that FAIL raises: neither OK nor one of the command level (rules R221, R228). -/
def Status.ofFail : Status → Bool
  | .ok | .illegalCommand | .badWorker | .busy | .notPending => false
  | .malformedHeader | .truncatedPayload | .checksumMismatch | .protocolViolation | .addressSpaceExhausted
  | .noResponse | .payloadTooLong | .malformedTrailer => true

theorem code_not_mem_of_ofFail {st : Status} (h : st.ofFail = true) :
    st.code ∉ ([0x00, 0x08, 0x09, 0x0A, 0x0B] : List Byte) := by
  revert h
  cases st <;> decide

theorem code_ne_zero_of_ofFail {st : Status} (h : st.ofFail = true) : st.code ≠ 0x00 := fun h0 =>
  code_not_mem_of_ofFail h (by simp [h0])

theorem reasonOf_ofFail (m : BitVec 5) : (reasonOf m).ofFail = true := by
  unfold reasonOf
  split <;> rfl

theorem decodeFrame_error_ofFail {magic : Bool} {buf : List Byte} {e : Status}
    (h : decodeFrame magic buf = .error e) : e.ofFail = true := by
  rcases decodeFrame_error h with rfl | rfl | rfl <;> rfl

theorem filterSerial_length_le (p : Params) (bytes : List Byte) : (filterSerial p bytes).length ≤ bytes.length := by
  obtain ⟨spaces, hsplit, -⟩ := filterSerial_append_spaces p bytes
  have hle := List.length_filter_le (fun b => decide (b ∈ p.serialCharset)) bytes
  rw [hsplit, List.length_append] at hle
  omega

/-- The payload of a frame that DECODE takes fits its length byte (rules R73, R107). -/
theorem payload_length_of_decodeFrame {magic : Bool} {buf : List Byte} {g : Frame}
    (h : decodeFrame magic buf = .ok g) : g.payload.length ≤ 255 := by
  obtain ⟨f, rfl, hl, -, rfl⟩ := decodeFrame_ok_iff.mp h
  rw [frameOf_bytes hl]
  exact hl

/-! ### One worker's registers -/

section
variable {p : Params} {x : Worker}

theorem inv_reset (p : Params) : Worker.reset.Inv p := by
  simp [Worker.Inv, Worker.PendMatches, Worker.AddrMatches, Worker.LengthsFit, Worker.DiagMatches, Worker.TxMatches,
    Worker.TextMatches, Worker.reset]

/-- The end of an exchange (rule R174). -/
theorem inv_pend_none (h : x.Inv p) : ({ x with pend := .none } : Worker).Inv p := by
  obtain ⟨⟨hphase, -, -, -⟩, haddr, hlen, hdiag, ⟨-, -, htx⟩, htext⟩ := h
  exact ⟨⟨hphase, nofun, nofun, nofun⟩, haddr, hlen, hdiag, ⟨nofun, nofun, htx⟩, htext⟩

/-- The phase after step 2 (rule R23): with nothing pending, ReRegister belongs to every state. -/
theorem inv_phase_reRegister (h : x.Inv p) (hp : x.pend = .none) :
    ({ x with phase := .reRegister } : Worker).Inv p := by
  obtain ⟨-, haddr, hlen, hdiag, htx, htext⟩ := h
  exact ⟨⟨fun _ => rfl, by simp [hp], by simp [hp], by simp [hp]⟩, haddr, hlen, hdiag, htx, htext⟩

/-- Rule R175. -/
theorem inv_phase_offlineQuery (h : x.Inv p) (hp : x.pend = .none) (hs : x.state = .unregistered) :
    ({ x with phase := .offlineQuery } : Worker).Inv p := by
  obtain ⟨-, haddr, hlen, hdiag, htx, htext⟩ := h
  exact ⟨⟨fun hne => absurd hs hne, by simp [hp], by simp [hp], by simp [hp]⟩, haddr, hlen, hdiag, htx, htext⟩

/-- The diagnostic capture of FAIL (rule R185), for a failure that is not fatal. -/
theorem inv_fail (h : x.Inv p) {r : Status} (hr : r.ofFail = true) (m : BitVec 5) (e f : Half) (b : List Byte)
    {n : BitVec 3} (hn : n = 2 ∨ n = 3 ∨ n = 4) : (x.fail p r m e f b n false).Inv p := by
  obtain ⟨hpend, haddr, ⟨htx, hraw, hserial, -, hroom⟩, -, htxm, htext⟩ := h
  have hframe : (b.take p.rxBufMax).length ≤ p.rxBufMax := List.length_take_le _ _
  exact ⟨hpend, haddr, ⟨htx, hraw, hserial, hframe, hroom⟩, .inr ⟨code_ne_zero_of_ofFail hr, status_code_le r, hn⟩, htxm,
    htext⟩

/-- A worker that gives up with nothing pending keeps its other registers (rules R185, R187). -/
theorem inv_abandoned (h : x.Inv p) (hp : x.pend = .none) :
    ({ x with state := .abandoned, phase := .reRegister } : Worker).Inv p := by
  obtain ⟨-, ⟨hrange, hzero, -, -⟩, ⟨htx, hraw, hserial, hframe, -⟩, hdiag, -, -⟩ := h
  exact ⟨⟨fun _ => rfl, by simp [hp], by simp [hp], by simp [hp]⟩, ⟨hrange, hzero, by simp, by simp⟩,
    ⟨htx, hraw, hserial, hframe, by simp⟩, hdiag, ⟨by simp [hp], by simp [hp], by simp⟩, by simp [Worker.TextMatches]⟩

theorem inv_fail_fatal (h : x.Inv p) (hp : x.pend = .none) {r : Status} (hr : r.ofFail = true) (m : BitVec 5)
    (e f : Half) (b : List Byte) {n : BitVec 3} (hn : n = 2 ∨ n = 3 ∨ n = 4) : (x.fail p r m e f b n true).Inv p :=
  inv_abandoned (inv_fail h hr m e f b hn) hp

/-- Rule R176. -/
theorem inv_awaitingSerial (h : x.Inv p) (hp : x.pend = .none) (hs : x.state = .unregistered) {raw : List Byte}
    (hraw : raw.length ≤ 255) :
    ({ x with raw := raw, phase := .reRegister, state := .awaitingSerial } : Worker).Inv p := by
  obtain ⟨-, ⟨hrange, hzero, hfree, -⟩, ⟨htx, -, hserial, hframe, -⟩, hdiag, -, -⟩ := h
  exact ⟨⟨fun _ => rfl, by simp [hp], by simp [hp], by simp [hp]⟩,
    ⟨hrange, hzero, fun _ => hfree (.inl hs), by simp⟩, ⟨htx, hraw, hserial, hframe, by simp⟩, hdiag,
    ⟨by simp [hp], by simp [hp], by simp⟩, by simp [Worker.TextMatches]⟩

/-- Rule R184. -/
theorem inv_registered (h : x.Inv p) (hp : x.pend = .none) (hs : x.state = .awaitingAddressConfirm) :
    ({ x with serialText := filterSerial p x.raw, state := .registered } : Worker).Inv p := by
  obtain ⟨⟨hphase, -, -, -⟩, ⟨hrange, hzero, -, hvalid⟩, ⟨htx, hraw, -, hframe, hroom⟩, hdiag, -, -⟩ := h
  have htext := (filterSerial_length_le p x.raw).trans hraw
  exact ⟨⟨fun _ => hphase (by simp [hs]), by simp [hp], by simp [hp], by simp [hp]⟩,
    ⟨hrange, hzero, by simp, fun _ => hvalid (.inl hs)⟩, ⟨htx, hraw, htext, hframe, fun _ => hroom (.inl hs)⟩, hdiag,
    ⟨by simp [hp], by simp [hp], by simp⟩, fun _ => rfl⟩

/-- Rule R172. -/
theorem inv_sends_reRegister (h : x.Inv p) (hs : x.state = .unregistered) (hphase : x.phase = .reRegister) :
    ({ x with tx := requestBytes p p.fnReRegister [], pend := .reRegister } : Worker).Inv p := by
  obtain ⟨-, haddr, ⟨-, hraw, hserial, hframe, hroom⟩, hdiag, -, htext⟩ := h
  have htx := encodeFrame_eq_bytes (src := ADDR_CONTROLLER) (dst := ADDR_BROADCAST) (ctrl := p.ctrlRegister)
    (fn := p.fnReRegister) (payload := []) (by simp)
  exact ⟨⟨by simp [hs], fun _ => ⟨hs, hphase⟩, nofun, nofun⟩, haddr,
    ⟨by simp [requestBytes_length], hraw, hserial, hframe, hroom⟩, hdiag, ⟨fun _ => htx, nofun, by simp [hs]⟩, htext⟩

/-- Rule R173. -/
theorem inv_sends_offlineQuery (h : x.Inv p) (hs : x.state = .unregistered) (hphase : x.phase = .offlineQuery) :
    ({ x with tx := requestBytes p p.fnOfflineQuery [], pend := .offlineQuery } : Worker).Inv p := by
  obtain ⟨-, haddr, ⟨-, hraw, hserial, hframe, hroom⟩, hdiag, -, htext⟩ := h
  have htx := encodeFrame_eq_bytes (src := ADDR_CONTROLLER) (dst := ADDR_BROADCAST) (ctrl := p.ctrlRegister)
    (fn := p.fnOfflineQuery) (payload := []) (by simp)
  exact ⟨⟨by simp [hs], nofun, fun _ => ⟨hs, hphase⟩, nofun⟩, haddr,
    ⟨by simp [requestBytes_length], hraw, hserial, hframe, hroom⟩, hdiag, ⟨nofun, fun _ => htx, by simp [hs]⟩, htext⟩

/-- Rules R179 and R182: in AwaitingAddressConfirm the request for the worker's address is sent, again or for the
first time. -/
theorem inv_sends_address (hphase : x.phase = .reRegister) (hs : x.state = .awaitingAddressConfirm)
    (hvalid : x.addrValid = true) (hrange : ADDR_MIN ≤ x.addr.toNat ∧ x.addr.toNat ≤ ADDR_MAX)
    (hraw : x.raw.length ≤ 254) (hserial : x.serialText.length ≤ 255) (hframe : x.diagFrame.length ≤ p.rxBufMax)
    (hdiag : x.DiagMatches) :
    ({ x with
      tx := requestBytes p p.fnSendRegisterAddress (x.raw ++ [x.addr]), pend := .sendRegisterAddress } : Worker).Inv p
    := by
  have hroom : (x.raw ++ [x.addr]).length ≤ 255 := by simp; omega
  have htx := encodeFrame_eq_bytes (src := ADDR_CONTROLLER) (dst := ADDR_BROADCAST) (ctrl := p.ctrlRegister)
    (fn := p.fnSendRegisterAddress) hroom
  have hlen : (requestBytes p p.fnSendRegisterAddress (x.raw ++ [x.addr])).length ≤ 266 := by
    rw [requestBytes_length]; omega
  exact ⟨⟨fun _ => hphase, nofun, nofun, fun _ => hs⟩,
    ⟨fun _ => hrange, by simp [hvalid], by simp [hs], fun _ => hvalid⟩,
    ⟨hlen, by simp only; omega, hserial, hframe, fun _ => hraw⟩, hdiag, ⟨nofun, nofun, fun _ => htx⟩,
    by simp [Worker.TextMatches, hs]⟩

end

/-! ### The worker an instruction is for -/

theorem eq_of_getElem?_set {α : Type} {l : List α} {n : Nat} {x y z : α} (hx : l[n]? = some x)
    (hz : (l.set n y)[n]? = some z) : z = y := by
  have hlt : n < l.length := (List.getElem?_eq_some_iff.mp hx).1
  rw [List.getElem?_set_self hlt] at hz
  exact (Option.some.inj hz).symm

/-- An address that `allocate_next` gives is read back from its byte (rule R190). -/
theorem toNat_allocated {a : Nat} (h : a ≤ 253) : (BitVec.ofNat 8 a).toNat = a := by
  rw [BitVec.toNat_ofNat, Nat.mod_eq_of_lt (by omega)]

theorem inv_of_goOutcome {s t : State} {w : Byte} {x y : Worker} (h : GoOutcome s w x t) (hp : x.pend = .none)
    (hx : s.workers[w.toNat]? = some x) (hy : t.workers[w.toNat]? = some y) (hinv : x.Inv s.params) :
    y.Inv s.params := by
  obtain ⟨⟨hphase, -, -, -⟩, ⟨hrange, -, -, hvalid⟩, ⟨-, -, hserial, hframe, -⟩, hdiag, -, -⟩ := id hinv
  cases h with
  | reRegister hs hph =>
    rw [eq_of_getElem?_set hx hy]
    exact inv_sends_reRegister hinv hs hph
  | offlineQuery hs hph =>
    rw [eq_of_getElem?_set hx hy]
    exact inv_sends_offlineQuery hinv hs hph
  | tooLong | exhausted =>
    rw [eq_of_getElem?_set hx hy]
    exact inv_fail_fatal hinv hp rfl 0 0 0 [] (.inr (.inl rfl))
  | allocated hs hl hk =>
    have haddr := toNat_allocated (a := s.table.maxKey + 1) (by omega)
    have hpos := s.table.one_le_maxKey
    rw [eq_of_getElem?_set hx hy]
    exact inv_sends_address (x := { x with
        addr := BitVec.ofNat 8 (s.table.maxKey + 1), addrValid := true, state := .awaitingAddressConfirm })
      (hphase (by simp [hs])) rfl rfl (by rw [haddr]; simp only [ADDR_MIN, ADDR_MAX]; omega) hl hserial hframe hdiag
  | resent hs hl =>
    rw [eq_of_getElem?_set hx hy]
    exact inv_sends_address (hphase (by simp [hs])) hs (hvalid (.inl hs)) (hrange (hvalid (.inl hs))) hl hserial hframe
      hdiag
  | noRoom | terminal =>
    obtain rfl := Option.some.inj (hx.symm.trans hy)
    exact hinv

theorem inv_of_delivery {s t : State} {w : Byte} {x y : Worker} {r : Option (List Byte)} (h : Delivery s w x r t)
    (hx : s.workers[w.toNat]? = some x) (hy : t.workers[w.toNat]? = some y) (hinv : x.Inv s.params) :
    y.Inv s.params := by
  obtain ⟨⟨-, hreg, hquery, hsend⟩, -, -, -, -, -⟩ := id hinv
  have hidle := inv_pend_none hinv
  cases h with
  | notPending =>
    obtain rfl := Option.some.inj (hx.symm.trans hy)
    exact hinv
  | ignored r h =>
    rw [eq_of_getElem?_set hx hy]
    exact inv_phase_offlineQuery hidle rfl (hreg h).1
  | noReply h =>
    rw [eq_of_getElem?_set hx hy]
    exact inv_fail (inv_phase_reRegister hidle rfl) rfl 0 0 0 [] (.inl rfl)
  | badReply bytes e h he =>
    rw [eq_of_getElem?_set hx hy]
    exact inv_fail (inv_phase_reRegister hidle rfl) (decodeFrame_error_ofFail he) 0 0 0 bytes (.inl rfl)
  | serial bytes f h hf hm =>
    rw [eq_of_getElem?_set hx hy]
    exact inv_awaitingSerial hidle rfl (hquery h).1 (payload_length_of_decodeFrame hf)
  | badSerial bytes f v m =>
    rw [eq_of_getElem?_set hx hy]
    exact inv_fail_fatal hidle rfl (reasonOf_ofFail m) m v.expected v.found bytes (.inl rfl)
  | noConfirm h =>
    rw [eq_of_getElem?_set hx hy]
    exact inv_fail hidle rfl 0 0 0 [] (.inr (.inr rfl))
  | badConfirm bytes e h he =>
    rw [eq_of_getElem?_set hx hy]
    exact inv_fail hidle (decodeFrame_error_ofFail he) 0 0 0 bytes (.inr (.inr rfl))
  | confirmed bytes f h hf hm =>
    rw [eq_of_getElem?_set hx hy]
    exact inv_registered hidle rfl (hsend h)
  | refuted bytes f v m =>
    rw [eq_of_getElem?_set hx hy]
    exact inv_fail_fatal hidle rfl (reasonOf_ofFail m) m v.expected v.found bytes (.inr (.inr rfl))

section
variable {i : Instr} {s t : State}

/-- Every worker after an instruction is a worker before it, or the one the instruction is for. -/
theorem effect_worker_cases (h : Effect s i t) {n : Nat} {y : Worker} (hy : t.workers[n]? = some y) :
    ∃ x, s.workers[n]? = some x ∧ (y = x ∨ ∃ w, i.worker? = some w ∧ w.toNat = n) := by
  obtain ⟨-, hnw, -⟩ := effect_params h
  have hlt : n < s.workers.length := (List.getElem?_eq_some_iff.mp hy).1.trans_eq hnw
  refine ⟨s.workers[n], List.getElem?_eq_getElem hlt, ?_⟩
  by_cases hw : ∃ w, i.worker? = some w ∧ w.toNat = n
  · exact .inr hw
  · have hsame := effect_workers h (n := n) fun w hi hn => hw ⟨w, hi, hn⟩
    rw [hy, List.getElem?_eq_getElem hlt] at hsame
    exact .inl (Option.some.inj hsame)

theorem effect_workers_inv (h : Effect s i t) (hinv : ∀ x ∈ s.workers, x.Inv s.params) :
    ∀ y ∈ t.workers, y.Inv s.params := by
  intro y hmem
  obtain ⟨n, hy⟩ := List.mem_iff_getElem?.mp hmem
  obtain ⟨x, hx, rfl | ⟨w, -, rfl⟩⟩ := effect_worker_cases h hy
  · exact hinv _ (List.mem_iff_getElem?.mpr ⟨n, hx⟩)
  · have hxinv := hinv x (List.mem_iff_getElem?.mpr ⟨w.toNat, hx⟩)
    obtain rfl | ⟨-, rfl⟩ | ⟨-, hp, hgo⟩ | ⟨-, rd, r, hd⟩ := worker_effect h hx hy
    · exact hxinv
    · exact inv_reset s.params
    · exact inv_of_goOutcome hgo hp hx hy hxinv
    · exact inv_of_delivery (s := { s with reading := rd }) hd hx hy hxinv

end

/-! ### The table -/

theorem tableInv_nil : Table.Inv [] := ⟨Table.wf_nil, nofun⟩

theorem tableInv_write {t : Table} (h : t.Inv) {a : Nat} (ha : ADDR_MIN ≤ a ∧ a ≤ ADDR_MAX) {e : Entry}
    (he : e.Fits) : (t.write a e).Inv := by
  obtain ⟨hwf, hkeys⟩ := h
  have hbyte : a ≤ 255 := ha.2.trans (by decide)
  refine ⟨Table.write_wf hwf hbyte e, fun x hx => ?_⟩
  obtain rfl | hx := Table.mem_write hx
  · exact ⟨ha.1, ha.2, he⟩
  · exact hkeys x hx

/-- A worker that waits for its address's confirmation holds that address (rules R27, R170). -/
theorem addr_of_pend_sendRegisterAddress {p : Params} {x : Worker} (h : x.Inv p) (hp : x.pend = .sendRegisterAddress) :
    x.state = .awaitingAddressConfirm ∧ x.addrValid = true ∧ ADDR_MIN ≤ x.addr.toNat ∧ x.addr.toNat ≤ ADDR_MAX := by
  obtain ⟨⟨-, -, -, hsend⟩, ⟨hrange, -, -, hvalid⟩, -⟩ := h
  exact ⟨hsend hp, hvalid (.inl (hsend hp)), hrange (hvalid (.inl (hsend hp)))⟩

theorem effect_table_inv {i : Instr} {s t : State} (h : Effect s i t) (hinv : ∀ x ∈ s.workers, x.Inv s.params)
    (ht : s.table.Inv) : t.table.Inv := by
  obtain heq | ⟨-, rfl⟩ | ⟨w, x, -, -, -, hk, heq, -⟩ | ⟨w, x, hx, hp, -, heq, -⟩ := effect_table h
  · exact heq ▸ ht
  · exact tableInv_nil
  · have hpos := s.table.one_le_maxKey
    rw [heq]
    exact tableInv_write ht (by simp only [ADDR_MIN, ADDR_MAX]; omega) trivial
  · have hxinv := hinv x (List.mem_iff_getElem?.mpr ⟨w.toNat, hx⟩)
    obtain ⟨-, -, haddr⟩ := addr_of_pend_sendRegisterAddress hxinv hp
    obtain ⟨-, -, ⟨-, hraw, -⟩, -⟩ := hxinv
    rw [heq]
    exact tableInv_write ht haddr ((filterSerial_length_le _ _).trans hraw)

/-! ### Every step -/

theorem effect_inv {i : Instr} {s t : State} (h : Effect s i t) (hinv : s.Inv) : t.Inv := by
  obtain ⟨hv, hnw, hworkers, htable⟩ := hinv
  obtain ⟨hparams, hnw', -⟩ := effect_params h
  exact ⟨hparams ▸ hv, hnw' ▸ hnw, hparams ▸ effect_workers_inv h hworkers, effect_table_inv h hworkers htable⟩

theorem inv_of_all_reset {s : State} (hv : s.params.Valid) (hnw : 0 < s.nw) (hw : ∀ x ∈ s.workers, x = Worker.reset)
    (ht : s.table = []) : s.Inv :=
  ⟨hv, hnw, fun x hx => hw x hx ▸ inv_reset s.params, ht ▸ tableInv_nil⟩

theorem blockReset_workers_eq_reset (s : State) : ∀ x ∈ s.blockReset.workers, x = Worker.reset := by
  simp

theorem nw_blockReset (s : State) : s.blockReset.nw = s.nw := by simp [State.nw]

/-- Settles O58: a step waits, resets the block, or has an instruction's effect, and each keeps the invariant. -/
theorem stepKeepsInvariant : Obligations.StepKeepsInvariant := by
  unfold Obligations.StepKeepsInvariant
  intro s t hinv hstep
  obtain ⟨-, rfl⟩ | ⟨i, rest, -, -, rfl⟩ | ⟨i, rest, word, -, -, hexec⟩ := step_cases hstep
  · exact hinv
  · obtain ⟨hv, hnw, -, -⟩ := hinv
    exact inv_of_all_reset hv (hnw.trans_eq (nw_blockReset _).symm) (blockReset_workers_eq_reset _) rfl
  · exact effect_inv (effect_of_exec hexec) hinv

end Sys2Proof.Machine
end

section
/-! PROOFS. A session (rules R32, R190, R193, R257, R260): how the addresses the workers hold and the table move together,
and that reset starts one. -/

open Sys2Proof Sys2Proof.Machine Sys2Proof.Claims

namespace Sys2Proof.Machine

/-! ### What an effect does to the addresses -/

/-- The worker `y` holds an address only if `x` held the same one, and as far confirmed. -/
structure HoldsAsBefore (x y : Worker) : Prop where
  valid : y.addrValid = true → x.addrValid = true ∧ y.addr = x.addr
  awaiting : y.state = .awaitingAddressConfirm → x.state = .awaitingAddressConfirm ∧ y.addr = x.addr
  registered : y.state = .registered → x.state = .registered ∧ y.addr = x.addr ∧ y.serialText = x.serialText

theorem HoldsAsBefore.refl (x : Worker) : HoldsAsBefore x x :=
  ⟨fun h => ⟨h, rfl⟩, fun h => ⟨h, rfl⟩, fun h => ⟨h, rfl, rfl⟩⟩

theorem holdsAsBefore_reset (x : Worker) : HoldsAsBefore x Worker.reset := ⟨nofun, nofun, nofun⟩

/-- Registers other than the state, the address and the text do not matter to what a worker holds. -/
theorem holdsAsBefore_of_eq {x y : Worker} (ha : y.addr = x.addr) (hv : y.addrValid = x.addrValid)
    (ht : y.serialText = x.serialText) (hs : y.state = x.state ∨ y.state = .abandoned ∨ y.state = .awaitingSerial) :
    HoldsAsBefore x y := by
  refine ⟨fun h => ⟨hv ▸ h, ha⟩, fun h => ?_, fun h => ?_⟩
  · obtain hs | hs | hs := hs
    · exact ⟨hs ▸ h, ha⟩
    · simp [hs] at h
    · simp [hs] at h
  · obtain hs | hs | hs := hs
    · exact ⟨hs ▸ h, ha, ht⟩
    · simp [hs] at h
    · simp [hs] at h

/-- The worker `y` was given the address after the largest key (rules R179, R190). -/
structure Allocated (s : State) (y : Worker) (tbl : Table) : Prop where
  room : s.table.maxKey ≤ 252
  table : tbl = s.table.write (s.table.maxKey + 1) .reserved
  state : y.state = .awaitingAddressConfirm
  addr : y.addr = BitVec.ofNat 8 (s.table.maxKey + 1)

/-- The worker `x` had its address confirmed, and is `y` after it (rule R184). -/
structure Confirmed (s : State) (x y : Worker) (tbl : Table) : Prop where
  pend : x.pend = .sendRegisterAddress
  table : tbl = s.table.record x.addr.toNat y.serialText
  state : y.state = .registered
  addr : y.addr = x.addr

section
variable {s t : State} {w : Byte} {x y : Worker}

theorem goOutcome_addresses (h : GoOutcome s w x t) (hx : s.workers[w.toNat]? = some x)
    (hy : t.workers[w.toNat]? = some y) : (t.table = s.table ∧ HoldsAsBefore x y) ∨ Allocated s y t.table := by
  cases h with
  | allocated hs hl hk =>
    rw [eq_of_getElem?_set hx hy]
    exact .inr ⟨hk, rfl, rfl, rfl⟩
  | reRegister | offlineQuery | resent =>
    rw [eq_of_getElem?_set hx hy]
    exact .inl ⟨rfl, holdsAsBefore_of_eq rfl rfl rfl (.inl rfl)⟩
  | tooLong | exhausted =>
    rw [eq_of_getElem?_set hx hy]
    exact .inl ⟨rfl, holdsAsBefore_of_eq rfl rfl rfl (.inr (.inl rfl))⟩
  | noRoom | terminal =>
    obtain rfl := Option.some.inj (hx.symm.trans hy)
    exact .inl ⟨rfl, .refl x⟩

theorem delivery_addresses {r : Option (List Byte)} (h : Delivery s w x r t) (hx : s.workers[w.toNat]? = some x)
    (hy : t.workers[w.toNat]? = some y) : (t.table = s.table ∧ HoldsAsBefore x y) ∨ Confirmed s x y t.table := by
  cases h with
  | confirmed bytes f h =>
    rw [eq_of_getElem?_set hx hy]
    exact .inr ⟨h, rfl, rfl, rfl⟩
  | notPending =>
    obtain rfl := Option.some.inj (hx.symm.trans hy)
    exact .inl ⟨rfl, .refl x⟩
  | ignored | noReply | badReply | noConfirm | badConfirm =>
    rw [eq_of_getElem?_set hx hy]
    exact .inl ⟨rfl, holdsAsBefore_of_eq rfl rfl rfl (.inl rfl)⟩
  | serial =>
    rw [eq_of_getElem?_set hx hy]
    exact .inl ⟨rfl, holdsAsBefore_of_eq rfl rfl rfl (.inr (.inr rfl))⟩
  | badSerial | refuted =>
    rw [eq_of_getElem?_set hx hy]
    exact .inl ⟨rfl, holdsAsBefore_of_eq rfl rfl rfl (.inr (.inl rfl))⟩

end

/-- What an instruction does to the table and to the addresses the workers hold. -/
inductive AddressChange (s : State) (i : Instr) (t : State) : Prop where
  | kept (ht : t.table = s.table)
      (hw : ∀ (n : Nat) (y : Worker), t.workers[n]? = some y → ∃ x, s.workers[n]? = some x ∧ HoldsAsBefore x y)
  | emptied (hi : i = .tableReset) (ht : t.table = []) (hw : t.workers = s.workers)
  | allocated (n : Nat) (y : Worker) (hy : t.workers[n]? = some y) (h : Allocated s y t.table)
      (hw : ∀ m : Nat, m ≠ n → t.workers[m]? = s.workers[m]?)
  | confirmed (n : Nat) (x y : Worker) (hx : s.workers[n]? = some x) (hy : t.workers[n]? = some y)
      (h : Confirmed s x y t.table) (hw : ∀ m : Nat, m ≠ n → t.workers[m]? = s.workers[m]?)

section
variable {s t : State} {i : Instr} {w : Byte} {x : Worker}

theorem effect_other_workers (h : Effect s i t) (hi : i.worker? = some w) {n : Nat} (hn : n ≠ w.toNat) :
    t.workers[n]? = s.workers[n]? := by
  refine effect_workers h fun v hv he => ?_
  rw [hi] at hv
  obtain rfl := Option.some.inj hv
  exact hn he.symm

theorem effect_worker (h : Effect s i t) (hx : s.workers[w.toNat]? = some x) : ∃ y, t.workers[w.toNat]? = some y := by
  obtain ⟨-, hnw, -⟩ := effect_params h
  have hlt : w.toNat < s.workers.length := (List.getElem?_eq_some_iff.mp hx).1
  exact ⟨_, List.getElem?_eq_getElem (hlt.trans_eq hnw.symm)⟩

theorem addressChange_of_worker (h : Effect s i t) (hi : i.worker? = some w) (hx : s.workers[w.toNat]? = some x)
    (hw : ∀ y, t.workers[w.toNat]? = some y →
      (t.table = s.table ∧ HoldsAsBefore x y) ∨ Allocated s y t.table ∨ Confirmed s x y t.table) :
    AddressChange s i t := by
  have other : ∀ m, m ≠ w.toNat → t.workers[m]? = s.workers[m]? := fun m hm => effect_other_workers h hi hm
  obtain ⟨y, hy⟩ := effect_worker h hx
  obtain ⟨ht, hxy⟩ | ha | hc := hw y hy
  · refine .kept ht fun n z hz => ?_
    by_cases hn : n = w.toNat
    · subst hn
      obtain rfl := Option.some.inj (hy.symm.trans hz)
      exact ⟨x, hx, hxy⟩
    · exact ⟨z, other n hn ▸ hz, .refl z⟩
  · exact .allocated _ y hy ha other
  · exact .confirmed _ x y hx hy hc other

theorem effect_addresses (h : Effect s i t) : AddressChange s i t := by
  have answers : ∀ {u : State}, u.table = s.table → u.workers = s.workers → AddressChange s i u :=
    fun ht hw => .kept ht fun n y hy => ⟨y, hw ▸ hy, .refl y⟩
  cases h with
  | answers | lost => exact answers rfl rfl
  | went w x t hx hp hgo =>
    exact addressChange_of_worker (.went w x t hx hp hgo) rfl hx fun y hy =>
      (goOutcome_addresses hgo hx hy).imp_right .inl
  | delivered w present data x r t hx hr hd =>
    exact addressChange_of_worker (.delivered w present data x r t hx hr hd) rfl hx fun y hy =>
      (delivery_addresses hd hx hy).imp_right .inr
  | received i w f x t hi hx hd =>
    refine addressChange_of_worker (.received i w f x t hi hx hd) (worker?_of_frame? hi) hx fun y hy => ?_
    obtain hk | ⟨hp, ht, hs, ha⟩ := delivery_addresses hd hx hy
    · exact .inl hk
    · exact .inr (.inr ⟨hp, ht, hs, ha⟩)
  | workerReset w x hx =>
    refine addressChange_of_worker (.workerReset w x hx) rfl hx fun y hy => .inl ⟨rfl, ?_⟩
    rw [eq_of_getElem?_set hx hy]
    exact holdsAsBefore_reset x
  | tableReset => exact .emptied rfl rfl rfl

end

/-! ### The session's clauses, worker by worker -/

section
variable {s : State}

theorem addressesDistinct_iff : s.AddressesDistinct ↔ ∀ (m n : Nat) (x y : Worker), m ≠ n →
    s.workers[m]? = some x → s.workers[n]? = some y → x.addrValid = true → y.addrValid = true → x.addr ≠ y.addr := by
  rw [State.AddressesDistinct, List.pairwise_iff_getElem]
  constructor
  · intro h m n x y hmn hx hy hvx hvy
    obtain ⟨hm, rfl⟩ := List.getElem?_eq_some_iff.mp hx
    obtain ⟨hn, rfl⟩ := List.getElem?_eq_some_iff.mp hy
    obtain hlt | hlt := Nat.lt_or_gt_of_ne hmn
    · exact h m n hm hn hlt hvx hvy
    · exact (h n m hn hm hlt hvy hvx).symm
  · intro h m n hm hn hlt
    exact h m n _ _ hlt.ne (List.getElem?_eq_getElem hm) (List.getElem?_eq_getElem hn)

theorem inv_of_getElem? (h : s.Inv) {n : Nat} {x : Worker} (hx : s.workers[n]? = some x) : x.Inv s.params := by
  obtain ⟨-, -, hworkers, -⟩ := h
  exact hworkers x (List.mem_iff_getElem?.mpr ⟨n, hx⟩)

theorem addressesHeld_of_getElem? (h : s.AddressesHeld) {n : Nat} {x : Worker} (hx : s.workers[n]? = some x) :
    (x.addrValid = true → s.table.read x.addr.toNat ≠ .free) ∧
    (x.state = .awaitingAddressConfirm → s.table.read x.addr.toNat = .reserved) ∧
    (x.state = .registered → s.table.read x.addr.toNat = .recorded x.serialText) :=
  h x (List.mem_iff_getElem?.mpr ⟨n, hx⟩)

end

/-! ### The table of a session -/

theorem Table.read_maxKey_succ {t : Table} (h : t.wf) : t.read (t.maxKey + 1) = .free := by
  by_contra hne
  have hle := Table.le_maxKey ((Table.read_ne_free_iff h _).mp hne)
  omega

/-- The largest key of the keys `{2, ..., k}` is their number's successor. -/
theorem Table.maxKey_of_contiguous {t : Table} (h : t.Contiguous) : t.maxKey = t.length + 1 := by
  have hmem : ∀ a, a ∈ t.keys ↔ 2 ≤ a ∧ a < 2 + t.length := fun a => by
    rw [h, List.mem_range'_1]; rfl
  have hpos := t.one_le_maxKey
  have hle : 2 ≤ t.length + 1 → t.length + 1 ≤ t.maxKey := fun hl => Table.le_maxKey ((hmem _).mpr ⟨hl, by omega⟩)
  obtain h1 | hk := t.maxKey_eq_or_mem
  · omega
  · have := (hmem _).mp hk
    omega

theorem Table.contiguous_write_maxKey_succ {t : Table} (h : t.Contiguous) {e : Entry} (he : e ≠ .free) :
    (t.write (t.maxKey + 1) e).Contiguous := by
  have habove : ∀ x ∈ t, x.1 < t.maxKey + 1 := fun x hx =>
    Nat.lt_succ_of_le (Table.le_maxKey (List.mem_map_of_mem hx))
  have hmax := Table.maxKey_of_contiguous h
  rw [Table.write_above habove he, Table.Contiguous, List.length_append, List.length_singleton,
    List.range'_1_concat, ← h, hmax]
  simp [Table.keys, ADDR_MIN]
  omega

theorem Table.contiguous_write_of_mem {t : Table} (hwf : t.wf) (h : t.Contiguous) {a : Nat} (ha : a ∈ t.keys)
    {e : Entry} (he : e ≠ .free) : (t.write a e).Contiguous := by
  have hkeys := Table.keys_write_of_mem hwf ha he
  have hlen : (t.write a e).length = t.length := by simpa [Table.keys] using congrArg List.length hkeys
  rw [Table.Contiguous, hkeys, hlen]
  exact h

/-! ### What each change keeps of a session -/

section
variable {s t : State}

theorem session_of_kept (h : s.Session) (hinv : t.Inv) (ht : t.table = s.table)
    (hw : ∀ (n : Nat) (y : Worker), t.workers[n]? = some y → ∃ x, s.workers[n]? = some x ∧ HoldsAsBefore x y) :
    t.Session := by
  obtain ⟨-, hcont, hheld, hdist⟩ := h
  refine ⟨hinv, ht ▸ hcont, fun y hmem => ?_, addressesDistinct_iff.mpr fun m n x y hmn hx hy hvx hvy => ?_⟩
  · obtain ⟨n, hy⟩ := List.mem_iff_getElem?.mp hmem
    obtain ⟨x, hx, hxy⟩ := hw n y hy
    obtain ⟨hfree, hreserved, hrecorded⟩ := addressesHeld_of_getElem? hheld hx
    rw [ht]
    refine ⟨fun hv => ?_, fun hs => ?_, fun hs => ?_⟩
    · obtain ⟨hvx, ha⟩ := hxy.valid hv
      exact ha ▸ hfree hvx
    · obtain ⟨hsx, ha⟩ := hxy.awaiting hs
      exact ha ▸ hreserved hsx
    · obtain ⟨hsx, ha, htext⟩ := hxy.registered hs
      exact ha ▸ htext ▸ hrecorded hsx
  · obtain ⟨x', hx', hxx⟩ := hw m x hx
    obtain ⟨y', hy', hyy⟩ := hw n y hy
    obtain ⟨hvx', hax⟩ := hxx.valid hvx
    obtain ⟨hvy', hay⟩ := hyy.valid hvy
    rw [hax, hay]
    exact addressesDistinct_iff.mp hdist m n x' y' hmn hx' hy' hvx' hvy'

/-- With no address held, nothing is said of the table's entries. -/
theorem session_of_no_address (hinv : t.Inv) (ht : t.table = []) (hw : ∀ x ∈ t.workers, x.addrValid = false) :
    t.Session := by
  refine ⟨hinv, by simp [ht, Table.Contiguous, Table.keys], fun x hx => ?_,
    addressesDistinct_iff.mpr fun m n x y _ hx _ hvx _ => ?_⟩
  · obtain ⟨-, -, hworkers, -⟩ := hinv
    obtain ⟨-, ⟨-, -, -, hvalid⟩, -⟩ := hworkers x hx
    have hv := hw x hx
    refine ⟨by simp [hv], fun hs => ?_, fun hs => ?_⟩
    · simp [hvalid (.inl hs)] at hv
    · simp [hvalid (.inr hs)] at hv
  · have hv := hw x (List.mem_iff_getElem?.mpr ⟨m, hx⟩)
    simp [hv] at hvx

theorem session_of_allocated (h : s.Session) (hinv : t.Inv) {n : Nat} {y : Worker} (hy : t.workers[n]? = some y)
    (ha : Allocated s y t.table) (hw : ∀ m : Nat, m ≠ n → t.workers[m]? = s.workers[m]?) : t.Session := by
  obtain ⟨⟨-, -, -, hwf, -⟩, hcont, hheld, hdist⟩ := h
  obtain ⟨hroom, htable, hstate, haddr⟩ := ha
  have hnew : y.addr.toNat = s.table.maxKey + 1 := by rw [haddr, toNat_allocated (by omega)]
  have hread : ∀ a, t.table.read a = if a = y.addr.toNat then .reserved else s.table.read a := fun a => by
    rw [htable, Table.read_write hwf, hnew]
  have hother : ∀ {x : Worker}, s.table.read x.addr.toNat ≠ .free → x.addr.toNat ≠ y.addr.toNat := fun hx he =>
    hx (by rw [he, hnew]; exact Table.read_maxKey_succ hwf)
  refine ⟨hinv, ?_, fun z hmem => ?_, addressesDistinct_iff.mpr fun k m x z hkm hx hz hvx hvz => ?_⟩
  · rw [htable]
    exact Table.contiguous_write_maxKey_succ hcont nofun
  · obtain ⟨m, hz⟩ := List.mem_iff_getElem?.mp hmem
    by_cases hm : m = n
    · subst hm
      obtain rfl := Option.some.inj (hy.symm.trans hz)
      simp [hread, hstate]
    · obtain ⟨hfree, hreserved, hrecorded⟩ := addressesHeld_of_getElem? hheld (hw m hm ▸ hz)
      have hkeep : s.table.read z.addr.toNat ≠ .free → t.table.read z.addr.toNat = s.table.read z.addr.toNat :=
        fun hne => by rw [hread, if_neg (hother hne)]
      exact ⟨fun hv => by rw [hkeep (hfree hv)]; exact hfree hv,
        fun hs => by rw [hkeep (by simp [hreserved hs])]; exact hreserved hs,
        fun hs => by rw [hkeep (by simp [hrecorded hs])]; exact hrecorded hs⟩
  · have held : ∀ {m' z'}, m' ≠ n → t.workers[m']? = some z' → z'.addrValid = true →
        z'.addr ≠ y.addr := fun hm' hz' hv he =>
      hother ((addressesHeld_of_getElem? hheld (hw _ hm' ▸ hz')).1 hv) (congrArg BitVec.toNat he)
    by_cases hk : k = n
    · subst hk
      obtain rfl := Option.some.inj (hy.symm.trans hx)
      exact (held hkm.symm hz hvz).symm
    · by_cases hm : m = n
      · subst hm
        obtain rfl := Option.some.inj (hy.symm.trans hz)
        exact held hk hx hvx
      · exact addressesDistinct_iff.mp hdist k m x z hkm (hw k hk ▸ hx) (hw m hm ▸ hz) hvx hvz

theorem session_of_confirmed (h : s.Session) (hinv : t.Inv) {n : Nat} {x y : Worker} (hx : s.workers[n]? = some x)
    (hy : t.workers[n]? = some y) (hc : Confirmed s x y t.table)
    (hw : ∀ m : Nat, m ≠ n → t.workers[m]? = s.workers[m]?) : t.Session := by
  obtain ⟨hsinv, hcont, hheld, hdist⟩ := h
  obtain ⟨hpend, htable, hstate, haddr⟩ := hc
  obtain ⟨hsx, hvx, -⟩ := addr_of_pend_sendRegisterAddress (inv_of_getElem? hsinv hx) hpend
  obtain ⟨-, -, -, hwf, -⟩ := hsinv
  obtain ⟨hfreex, -, -⟩ := addressesHeld_of_getElem? hheld hx
  have hread : ∀ a, t.table.read a = if a = x.addr.toNat then .recorded y.serialText else s.table.read a := fun a => by
    rw [htable, Table.read_record hwf]
  have hother : ∀ {m : Nat} {z : Worker}, m ≠ n → t.workers[m]? = some z → z.addrValid = true → z.addr ≠ x.addr :=
    fun hm hz hvz => addressesDistinct_iff.mp hdist _ _ _ _ hm (hw _ hm ▸ hz) hx hvz hvx
  refine ⟨hinv, ?_, fun z hmem => ?_, addressesDistinct_iff.mpr fun k m z z' hkm hz hz' hvz hvz' => ?_⟩
  · rw [htable]
    exact Table.contiguous_write_of_mem hwf hcont ((Table.read_ne_free_iff hwf _).mp (hfreex hvx)) nofun
  · obtain ⟨m, hz⟩ := List.mem_iff_getElem?.mp hmem
    by_cases hm : m = n
    · subst hm
      obtain rfl := Option.some.inj (hy.symm.trans hz)
      simp [hread, hstate, haddr]
    · have hzs := hw m hm ▸ hz
      obtain ⟨hfree, hreserved, hrecorded⟩ := addressesHeld_of_getElem? hheld hzs
      obtain ⟨-, ⟨-, -, -, hvalid⟩, -⟩ := inv_of_getElem? hinv hz
      have hkeep : z.addrValid = true → t.table.read z.addr.toNat = s.table.read z.addr.toNat := fun hv => by
        rw [hread, if_neg (mt BitVec.eq_of_toNat_eq (hother hm hz hv))]
      exact ⟨fun hv => by rw [hkeep hv]; exact hfree hv,
        fun hs => by rw [hkeep (hvalid (.inl hs))]; exact hreserved hs,
        fun hs => by rw [hkeep (hvalid (.inr hs))]; exact hrecorded hs⟩
  · by_cases hk : k = n
    · subst hk
      obtain rfl := Option.some.inj (hy.symm.trans hz)
      exact haddr ▸ (hother hkm.symm hz' hvz').symm
    · by_cases hm : m = n
      · subst hm
        obtain rfl := Option.some.inj (hy.symm.trans hz')
        exact haddr ▸ hother hk hz hvz
      · exact addressesDistinct_iff.mp hdist k m z z' hkm (hw k hk ▸ hz) (hw m hm ▸ hz') hvz hvz'

theorem effect_session {i : Instr} (h : Effect s i t) (hs : s.Session)
    (hi : i = .tableReset → ∀ x ∈ s.workers, x.addrValid = false) : t.Session := by
  have hinv : t.Inv := effect_inv h hs.1
  cases effect_addresses h with
  | kept ht hw => exact session_of_kept hs hinv ht hw
  | emptied he ht hw => exact session_of_no_address hinv ht (hw ▸ hi he)
  | allocated n y hy ha hw => exact session_of_allocated hs hinv hy ha hw
  | confirmed n x y hx hy hc hw => exact session_of_confirmed hs hinv hx hy hc hw

end

/-! ### The obligations -/

/-- A state of reset workers and an empty table starts a session. -/
theorem session_of_all_reset {s : State} (hv : s.params.Valid) (hnw : 0 < s.nw)
    (hw : ∀ x ∈ s.workers, x = Worker.reset) (ht : s.table = []) : s.Session :=
  session_of_no_address (inv_of_all_reset hv hnw hw ht) ht fun x hx => hw x hx ▸ rfl

/-- Settles O59: a TABLE_RESET with no address held starts a session anew, and every other effect moves the table and
the addresses together. -/
theorem stepKeepsSession : Obligations.StepKeepsSession := by
  unfold Obligations.StepKeepsSession
  intro s t hs hhazard hstep
  obtain ⟨-, rfl⟩ | ⟨i, rest, -, -, rfl⟩ | ⟨i, rest, word, hi, hw, hexec⟩ := step_cases hstep
  · exact hs
  · obtain ⟨⟨hv, hnw, -, -⟩, -⟩ := hs
    exact session_of_all_reset hv (hnw.trans_eq (nw_blockReset _).symm) (blockReset_workers_eq_reset _) rfl
  · refine effect_session (effect_of_exec hexec) hs fun hreset x hx => ?_
    by_contra hvx
    have hnext : s.nextInstr = some .tableReset := by simp only [State.nextInstr, hi, hw, hreset]
    exact hhazard ⟨hnext, x, hx, eq_true_of_ne_false hvx⟩

theorem cleanLaunch_resetWith (p : Params) (nw : Nat) : (State.resetWith p nw).CleanLaunch :=
  ⟨fun _ hx => List.eq_of_mem_replicate hx, rfl, rfl⟩

/-- Settles O57: every launch has its workers at their reset values and an empty table, which start a session. -/
theorem resetStartsSession : Obligations.ResetStartsSession := by
  unfold Obligations.ResetStartsSession
  refine ⟨fun p nw hv hnw => ⟨?_, cleanLaunch_resetWith p nw⟩, fun s rest hi hheld => ?_,
    fun s hv hnw ⟨hw, ht, _⟩ => session_of_all_reset hv hnw hw ht⟩
  · obtain ⟨hw, ht, -⟩ := cleanLaunch_resetWith p nw
    exact session_of_all_reset hv (by simpa [State.nw] using hnw) hw ht
  · exact ⟨_, step_of_blockReset hi, rfl, blockReset_workers_eq_reset _, rfl, hheld⟩

/-- Settles O45: a write of an assigned entry frees none, and the address that is recorded was held, so it was not
free. -/
theorem tableEntriesStayAssigned : Obligations.TableEntriesStayAssigned := by
  unfold Obligations.TableEntriesStayAssigned
  intro i s t hexec hwf
  have hread : ∀ a b e, (s.table.write b e).read a = if a = b then e else s.table.read a := fun a b e =>
    Table.read_write hwf b a e
  obtain heq | ⟨hi, rfl⟩ | ⟨w, x, hi, -, -, -, heq, -⟩ | ⟨w, x, hx, hp, -, heq, -⟩ :=
    effect_table (effect_of_exec hexec)
  · rw [heq]
    exact ⟨fun _ _ => id, fun _ a hfree hne => absurd hfree hne⟩
  · exact ⟨fun hne => absurd hi hne, fun _ a _ hne => absurd rfl hne⟩
  · rw [heq]
    refine ⟨fun _ a hne => ?_, fun _ a hfree hne => ⟨w, hi, ?_⟩⟩
    · rw [hread]
      split_ifs
      · nofun
      · exact hne
    · rw [hread] at hne ⊢
      split_ifs at hne ⊢
      · rfl
      · exact absurd hfree hne
  · rw [heq, Table.record]
    refine ⟨fun _ a hne => ?_, fun hs a hfree hne => ?_⟩
    · rw [hread]
      split_ifs
      · nofun
      · exact hne
    · obtain ⟨hinv, -, hheld, -⟩ := hs
      obtain ⟨-, hvx, -⟩ := addr_of_pend_sendRegisterAddress (inv_of_getElem? hinv hx) hp
      rw [hread] at hne
      split_ifs at hne with ha
      · exact absurd (ha ▸ hfree) ((addressesHeld_of_getElem? hheld hx).1 hvx)
      · exact absurd hfree hne

end Sys2Proof.Machine
end

section
/-! PROOFS. How an instruction ends (60_exceptions.md): its status, what it wrote, and what it left alone. -/

open Sys2Proof Sys2Proof.Machine Sys2Proof.Claims

namespace Sys2Proof.Machine

/-! ### The three endings of a step of the handshake (rules R185, R220, R228) -/

/-- A step of worker `w`, whose registers are `x`, ends with an answer alone, with OK and its diagnostics as they were,
or in FAIL. -/
inductive Ending (s : State) (w : Byte) (x : Worker) : State → Prop where
  | answered (st : Status) : Ending s w x (s.answer st [])
  | succeeded (tbl : Table) (y : Worker) (hd : diagnostics y = diagnostics x) :
      Ending s w x ((State.setWorker { s with table := tbl } w y).answer .ok [])
  | failed (y : Worker) (st : Status) (m : BitVec 5) (e f : Half) (b : List Byte) (n : BitVec 3) (fatal : Bool)
      (hst : st.ofFail = true) : Ending s w x (s.failStep w y st m e f b n fatal)

section
variable {s t : State} {w : Byte} {x : Worker}

theorem goOutcome_ending (h : GoOutcome s w x t) : Ending s w x t := by
  cases h with
  | reRegister | offlineQuery | resent => exact .succeeded s.table _ rfl
  | allocated => exact .succeeded _ _ rfl
  | tooLong | exhausted => exact .failed _ _ _ _ _ _ _ _ rfl
  | noRoom | terminal => exact .answered _

theorem delivery_ending {r : Option (List Byte)} (h : Delivery s w x r t) : Ending s w x t := by
  cases h with
  | notPending => exact .answered _
  | ignored | serial => exact .succeeded s.table _ rfl
  | confirmed => exact .succeeded _ _ rfl
  | noReply | noConfirm => exact .failed _ _ _ _ _ _ _ _ rfl
  | badReply bytes e h he => exact .failed _ _ _ _ _ _ _ _ (decodeFrame_error_ofFail he)
  | badConfirm bytes e h he => exact .failed _ _ _ _ _ _ _ _ (decodeFrame_error_ofFail he)
  | badSerial | refuted => exact .failed _ _ _ _ _ _ _ _ (reasonOf_ofFail _)

theorem ending_result (h : Ending s w x t) : ∃ st : Status, t.result = [st.code] := by
  cases h with
  | answered st => exact ⟨st, rfl⟩
  | succeeded => exact ⟨.ok, rfl⟩
  | failed y st => exact ⟨st, rfl⟩

/-- The diagnostics are as they were, or hold the failure that the status is. -/
theorem ending_diagnostics {y : Worker} (h : Ending s w x t) (hx : s.workers[w.toNat]? = some x)
    (hy : t.workers[w.toNat]? = some y) :
    diagnostics y = diagnostics x ∨ (t.result = [y.diagReason] ∧ y.diagReason ≠ 0x00) := by
  cases h with
  | answered st =>
    obtain rfl := Option.some.inj (hx.symm.trans hy)
    exact .inl rfl
  | succeeded tbl z hd =>
    rw [eq_of_getElem?_set hx hy]
    exact .inl hd
  | failed z st m e f b n fatal hst =>
    rw [eq_of_getElem?_set hx hy, fail_diagReason]
    exact .inr ⟨rfl, code_ne_zero_of_ofFail hst⟩

/-- A command-level status comes with no effect, and only OK with a write of the table. -/
theorem ending_precise (h : Ending s w x t) :
    (t.workers = s.workers ∧ t.table = s.table) ∨ t.result = [0x00] ∨
      (t.table = s.table ∧ ∃ st : Status, t.result = [st.code] ∧ st.ofFail = true) := by
  cases h with
  | answered st => exact .inl ⟨rfl, rfl⟩
  | succeeded => exact .inr (.inl rfl)
  | failed y st m e f b n fatal hst => exact .inr (.inr ⟨rfl, st, rfl, hst⟩)

end

section
variable {i : Instr} {s t : State}

theorem effect_result (h : Effect s i t) : ∃ (st : Status) (data : List Byte), t.result = st.code :: data := by
  have single : (∃ st : Status, t.result = [st.code]) → ∃ (st : Status) (data : List Byte), t.result = st.code :: data :=
    fun ⟨st, hst⟩ => ⟨st, [], hst⟩
  cases h with
  | answers i st d => exact ⟨st, d, rfl⟩
  | went w x t h hp ht => exact single (ending_result (goOutcome_ending ht))
  | delivered w present data x r t h hr ht => exact single (ending_result (delivery_ending ht))
  | received i w f x t hi h ht => exact single (ending_result (delivery_ending ht))
  | lost => exact ⟨.badWorker, [], rfl⟩
  | workerReset | tableReset => exact ⟨.ok, [], rfl⟩

theorem effect_precise (h : Effect s i t) :
    (t.workers = s.workers ∧ t.table = s.table) ∨ t.result = [0x00] ∨
      (t.table = s.table ∧ ∃ st : Status, t.result = [st.code] ∧ st.ofFail = true) := by
  cases h with
  | answers | lost => exact .inl ⟨rfl, rfl⟩
  | went w x t h hp ht => exact ending_precise (goOutcome_ending ht)
  | delivered w present data x r t h hr ht => exact ending_precise (delivery_ending ht)
  | received i w f x t hi h ht =>
    have hend := ending_precise (delivery_ending ht)
    exact hend
  | workerReset | tableReset => exact .inr (.inl rfl)

/-- What is left of `worker_effect` when the worker is not reset: nothing happened to it, or a step of the handshake. -/
theorem worker_effect_of_not_reset (h : Effect s i t) {w : Byte} {x y : Worker} (hx : s.workers[w.toNat]? = some x)
    (hy : t.workers[w.toNat]? = some y) (hi : i ≠ .fsmReset w) :
    y = x ∨ (i = .fsmGo w ∧ x.pend = .none ∧ GoOutcome s w x t) ∨
      ∃ rd r, Delivery { s with reading := rd } w x r t := by
  obtain rfl | ⟨he, -⟩ | hgo | ⟨-, hd⟩ := worker_effect h hx hy
  · exact .inl rfl
  · exact absurd he hi
  · exact .inr (.inl hgo)
  · exact .inr (.inr hd)

end

/-! ### The kinds of frame -/

theorem exists_wireKind {i : Instr} {w : Byte} {f : WireFrame} (h : frame? i = some (w, f)) :
    ∃ k ∈ wireKinds, i = k w f := by
  cases i <;> simp [frame?] at h <;> obtain ⟨rfl, rfl⟩ := h <;> simp [wireKinds]

/-! ### The obligations -/

/-- Settles O8: every effect leaves a result that starts with the code of a status. -/
theorem everyInstructionAnswers : Obligations.EveryInstructionAnswers := by
  unfold Obligations.EveryInstructionAnswers
  intro i s
  obtain ⟨t, hexec, heffect⟩ := exec_effect i s
  obtain ⟨st, data, hresult⟩ := effect_result heffect
  exact ⟨t, st.code, data, hexec, hresult, status_code_le st⟩

/-- Settles O49: the effect of an instruction writes at the worker it is for. -/
theorem otherWorkersUntouched : Obligations.OtherWorkersUntouched := by
  unfold Obligations.OtherWorkersUntouched
  exact fun i s t n hexec hn => effect_workers (effect_of_exec hexec) hn

/-- Settles O51: FSM_GO does nothing in a terminal state, and an answer finds nothing pending. -/
theorem terminalUntilReset : Obligations.TerminalUntilReset := by
  unfold Obligations.TerminalUntilReset
  intro i s t w x hexec hx ⟨hterm, hp⟩ hi
  have heffect := effect_of_exec hexec
  obtain ⟨y, hy⟩ := effect_worker heffect hx
  obtain rfl | ⟨-, -, hgo⟩ | ⟨rd, r, hd⟩ := worker_effect_of_not_reset heffect hx hy hi
  · exact hy
  · cases hgo with
    | noRoom | terminal => exact hx
    | _ => simp_all
  · cases hd with
    | notPending => exact hx
    | _ => simp_all

/-- Settles O52: FSM_GO needs nothing pending, and a delivery leaves nothing pending and `tx` as it was. -/
theorem pendingExchangeIsStable : Obligations.PendingExchangeIsStable := by
  unfold Obligations.PendingExchangeIsStable
  intro i s t w x y hexec hx hy
  obtain rfl | ⟨hi, rfl⟩ | ⟨hi, hp, -⟩ | ⟨hi, rd, r, hd⟩ := worker_effect (effect_of_exec hexec) hx hy
  · exact ⟨fun h h' => absurd h h', fun h h' => absurd h' h, fun _ _ => rfl, fun _ _ => rfl⟩
  · exact ⟨fun _ h => absurd rfl h, fun _ _ => .inl hi, fun _ h => absurd rfl h, fun _ h => absurd hi h⟩
  · exact ⟨fun _ _ => hi, fun h => absurd hp h, fun h => absurd hp h, fun h => absurd hp h⟩
  · obtain ⟨hpend, htx⟩ := delivery_pend hd hx hy
    refine ⟨fun _ h => absurd hpend h, fun _ _ => .inr ?_, fun _ h => absurd hpend h, fun _ _ => htx⟩
    exact hi.imp_right fun ⟨f, hf⟩ =>
      have ⟨k, hk, hik⟩ := exists_wireKind hf
      ⟨k, hk, f, hik⟩

/-- Settles O53: a step of the handshake that writes the diagnostics ends in FAIL. -/
theorem diagnosticsKept : Obligations.DiagnosticsKept := by
  unfold Obligations.DiagnosticsKept
  intro i s t w x y hexec hx hy hi
  have key : diagnostics y = diagnostics x ∨ (t.result = [y.diagReason] ∧ y.diagReason ≠ 0x00) := by
    obtain rfl | ⟨-, -, hgo⟩ | ⟨rd, r, hd⟩ := worker_effect_of_not_reset (effect_of_exec hexec) hx hy hi
    · exact .inl rfl
    · exact ending_diagnostics (goOutcome_ending hgo) hx hy
    · exact ending_diagnostics (delivery_ending hd) hx hy
  obtain hsame | ⟨hresult, hne⟩ := key
  · exact ⟨fun _ => hsame, fun h => absurd hsame h⟩
  · rw [hresult]
    exact ⟨fun h0 => absurd (Option.some.inj h0) hne, fun _ => rfl⟩

/-- Settles O54: an answer alone writes nothing, OK is no failure, and FAIL writes the worker but not the table. -/
theorem failuresArePrecise : Obligations.FailuresArePrecise := by
  unfold Obligations.FailuresArePrecise
  intro i s t st hexec hst
  obtain ⟨hw, ht⟩ | hok | ⟨ht, fail, hresult, hfail⟩ := effect_precise (effect_of_exec hexec)
  · exact ⟨fun _ => ⟨hw, ht⟩, fun _ => ht⟩
  · obtain rfl : 0x00 = st := by simpa [hok] using hst
    exact ⟨fun h => absurd h (by decide), fun h => absurd rfl h⟩
  · obtain rfl : fail.code = st := by simpa [hresult] using hst
    exact ⟨fun h => absurd (List.mem_cons_of_mem _ h) (code_not_mem_of_ofFail hfail), fun _ => ht⟩

end Sys2Proof.Machine
end

section
/-! PROOFS. The checksum (40_codec.md sections 2 and 5): the negated sum, the round trip of the codec, and which changes of
one byte it detects. -/

open Sys2Proof Sys2Proof.Machine Sys2Proof.Claims

namespace Sys2Proof.Machine

/-! ### The negated sum (rule R105) -/

/-- Settles O10: the unmasked value is CHECKSUM's before truncation, and its remainder is the negated sum. -/
theorem checksumIsNegatedSum : Obligations.ChecksumIsNegatedSum := by
  unfold Obligations.ChecksumIsNegatedSum
  intro s data
  have hneg : (1 + (byteSum data ^^^ 0xFFFF)) % 65536 = negSum data := wideChecksum_mod data
  refine ⟨?_, hneg, fun hl => decode_lenData (op := OP_CHECKSUM) (fun _ => rfl) hl s.params⟩
  rw [hneg, twoBytes_negSum]
  rfl

/-! ### A frame that verifies -/

/-- The checksum field and the covered bytes of a frame that verifies add up to zero modulo 2^16. -/
theorem total_of_sumGood {p : Params} {f : WireFrame} (h : sumGood p f = true) :
    (twoByteValue f.cksumHi f.cksumLo + byteSum (covered f)) % 65536 = 0 := by
  obtain ⟨hwide, hdefault⟩ := (sumGood_iff p f).mp h
  cases hc : p.cksumWideCompare with
  | false =>
    rw [hdefault hc, negSum]
    omega
  | true =>
    obtain ⟨-, hsum⟩ := hwide hc
    rw [hsum]

theorem sumGood_congr {f g : WireFrame} (hc : covered g = covered f) (hhi : g.cksumHi = f.cksumHi)
    (hlo : g.cksumLo = f.cksumLo) (p : Params) : sumGood p g = sumGood p f := by
  simp only [sumGood, hc, hhi, hlo]

theorem exec_verify_good {s : State} {f : WireFrame} (h : Decodes s.params f) (hg : sumGood s.params f = true) :
    exec (.verify f.bytes) s = .next { s with
      result := [0x00, 0x01] ++ (twoBytes (negSum (covered f)) ++ [f.cksumHi, f.cksumLo]) } := by
  rw [exec_verify_of_decodes h, hg]
  rfl

theorem exec_verify_bad {s : State} {f : WireFrame} (h : Decodes s.params f) (hg : sumGood s.params f = false) :
    exec (.verify f.bytes) s = .next { s with
      result := [0x03, 0x00] ++ (twoBytes (negSum (covered f)) ++ [f.cksumHi, f.cksumLo]) } := by
  rw [exec_verify_of_decodes h, hg]
  rfl

/-! ### The round trip (rule R115) -/

section
variable (src dst ctrl fn : Byte) (payload : List Byte)

theorem covered_encodedFrame :
    covered (encodedFrame src dst ctrl fn payload) = frameBody src dst ctrl fn payload :=
  take_body (encodedFrame src dst ctrl fn payload)

/-- The fixed header alone makes a body's sum positive (rule R106). -/
theorem byteSum_frameBody_pos : 0 < byteSum (frameBody src dst ctrl fn payload) := by
  have hhdr : HDR0.toNat = 165 := rfl
  simp only [frameBody, List.cons_append, byteSum_cons, hhdr]
  omega

theorem decodes_encodedFrame {payload : List Byte} (h : payload.length ≤ 255) (p : Params) :
    Decodes p (encodedFrame src dst ctrl fn payload) := ⟨h, fun _ => ⟨rfl, rfl, rfl⟩⟩

theorem twoByteValue_encodedFrame : twoByteValue (encodedFrame src dst ctrl fn payload).cksumHi
    (encodedFrame src dst ctrl fn payload).cksumLo = negSum (frameBody src dst ctrl fn payload) := by
  rw [twoByteValue_eq, ← toNat_checksumOf]
  exact congrArg BitVec.toNat (be16_hi8_lo8 _)

theorem sumGood_encodedFrame {p : Params}
    (hw : p.cksumWideCompare = true → byteSum (frameBody src dst ctrl fn payload) < 65536) :
    sumGood p (encodedFrame src dst ctrl fn payload) = true := by
  have hpos := byteSum_frameBody_pos src dst ctrl fn payload
  rw [sumGood_iff, twoByteValue_encodedFrame, covered_encodedFrame]
  refine ⟨fun hc => ⟨hw hc, ?_⟩, fun _ => rfl⟩
  have hlt := hw hc
  rw [negSum]
  omega

end

/-- Settles O15: the frame is one DECODE takes, and its checksum field is the negated sum of what the checksum covers. -/
theorem codecRoundTrip : Obligations.CodecRoundTrip := by
  unfold Obligations.CodecRoundTrip
  intro s src dst ctrl fn payload hl
  have hdec := decodes_encodedFrame src dst ctrl fn hl s.params
  have hcks : twoBytes (negSum (frameBody src dst ctrl fn payload)) =
      [(encodedFrame src dst ctrl fn payload).cksumHi, (encodedFrame src dst ctrl fn payload).cksumLo] :=
    twoBytes_negSum _
  refine ⟨(encodedFrame src dst ctrl fn payload).bytes, (encodedFrame src dst ctrl fn payload).cksumHi,
    (encodedFrame src dst ctrl fn payload).cksumLo, ?_, ?_, fun hw => ?_⟩
  · rw [exec_encode_ok hl, spelledFrame_eq]
    rfl
  · rw [exec_decode_of_decodes hdec]
    simp [frameData, encodedFrame, State.answer, Status.code, HDR0, HDR1, TRL0, TRL1]
  · have hbody : (encodedFrame src dst ctrl fn payload).bytes.take (7 + payload.length) =
        frameBody src dst ctrl fn payload := covered_encodedFrame src dst ctrl fn payload
    rw [hbody] at hw
    rw [exec_verify_good hdec (sumGood_encodedFrame src dst ctrl fn payload hw), covered_encodedFrame, hcks]
    rfl

/-! ### A change of one byte (rule R116) -/

theorem byteSum_set {l : List Byte} {i : Nat} {c : Byte} (h : l[i]? = some c) (b : Byte) :
    byteSum (l.set i b) + c.toNat = byteSum l + b.toNat := by
  induction l generalizing i with
  | nil => simp at h
  | cons a l ih =>
    cases i with
    | zero =>
      obtain rfl : a = c := by simpa using h
      simp only [List.set_cons_zero, byteSum_cons]
      omega
    | succ i =>
      have := ih (i := i) (by simpa using h)
      simp only [List.set_cons_succ, byteSum_cons]
      omega

theorem byteAt_of_getElem? {l : List Byte} {i : Nat} {c : Byte} (h : l[i]? = some c) : byteAt l i = c := by
  rw [byteAt, List.getD_eq_getElem?_getD, h, Option.getD_some]

theorem byteAt_set_self {l : List Byte} {i : Nat} (h : i < l.length) (b : Byte) : byteAt (l.set i b) i = b :=
  byteAt_of_getElem? (List.getElem?_set_self h)

theorem byteAt_set_ne {i j : Nat} (h : i ≠ j) (l : List Byte) (b : Byte) : byteAt (l.set i b) j = byteAt l j := by
  simp only [byteAt, List.getD_eq_getElem?_getD, List.getElem?_set_ne h]

/-- A frame with one byte other than the length byte changed is a frame with a payload of the same length; its covered
bytes and its checksum field are read off the changed bytes. -/
theorem exists_frame_of_set {f : WireFrame} (hl : f.payload.length ≤ 255) {i : Nat} (hi : i ≠ 6) (b : Byte) :
    ∃ g : WireFrame, g.bytes = f.bytes.set i b ∧ g.payload.length ≤ 255 ∧ covered g = (covered f).set i b ∧
      g.cksumHi = byteAt (f.bytes.set i b) (7 + f.payload.length) ∧
      g.cksumLo = byteAt (f.bytes.set i b) (8 + f.payload.length) := by
  have hlen := wireFrame_length f
  have h6 : (byteAt (f.bytes.set i b) 6).toNat = f.payload.length := by
    rw [byteAt_set_ne hi, byteAt_6, length8_toNat hl]
  obtain ⟨g, hg, hgl, hgn⟩ := exists_wireFrame (buf := f.bytes.set i b) (by rw [List.length_set]; omega)
    (by rw [h6, List.length_set]; omega)
  rw [h6] at hgn
  refine ⟨g, hg, hgl, ?_, ?_, ?_⟩
  · rw [covered, covered, hg, hgn, List.take_set]
  · rw [← hg, ← hgn, byteAt_cksumHi]
  · rw [← hg, ← hgn, byteAt_cksumLo]

/-- The change moves the total of the checksum field and the covered bytes by a multiple of the byte's weight that is
less than 2^16, so not to another multiple of 2^16. -/
theorem sumGood_of_set_eq_false {p : Params} {f g : WireFrame} {i : Nat} {b c : Byte} (hgood : sumGood p f = true)
    (hc : f.bytes[i]? = some c) (hne : c ≠ b) (hi : i ≤ 8 + f.payload.length) (hcov : covered g = (covered f).set i b)
    (hhi : g.cksumHi = byteAt (f.bytes.set i b) (7 + f.payload.length))
    (hlo : g.cksumLo = byteAt (f.bytes.set i b) (8 + f.payload.length)) : sumGood p g = false := by
  rw [Bool.eq_false_iff]
  intro hg
  have hf0 := total_of_sumGood hgood
  have hg0 := total_of_sumGood hg
  have hcb : c.toNat ≠ b.toNat := mt BitVec.eq_of_toNat_eq hne
  have hclt := c.isLt
  have hblt := b.isLt
  have hlt : i < f.bytes.length := (List.getElem?_eq_some_iff.mp hc).1
  have hcovlen : (covered f).length ≤ 7 + f.payload.length := List.length_take_le _ _
  rw [hcov, hhi, hlo] at hg0
  simp only [twoByteValue] at hf0 hg0
  obtain hlt7 | rfl | rfl : i < 7 + f.payload.length ∨ i = 7 + f.payload.length ∨ i = 8 + f.payload.length := by omega
  · have hsum := byteSum_set (l := covered f) (by rw [covered, List.getElem?_take_of_lt hlt7, hc]) b
    rw [byteAt_set_ne (by omega), byteAt_set_ne (by omega), byteAt_cksumHi, byteAt_cksumLo] at hg0
    omega
  · have hold : f.cksumHi = c := (byteAt_cksumHi f).symm.trans (byteAt_of_getElem? hc)
    rw [List.set_eq_of_length_le hcovlen, byteAt_set_self hlt, byteAt_set_ne (by omega), byteAt_cksumLo] at hg0
    rw [hold] at hf0
    omega
  · have hold : f.cksumLo = c := (byteAt_cksumLo f).symm.trans (byteAt_of_getElem? hc)
    rw [List.set_eq_of_length_le (l := covered f) (by omega), byteAt_set_self hlt,
      byteAt_set_ne (by omega), byteAt_cksumHi] at hg0
    rw [hold] at hf0
    omega

/-- Settles O16: a covered byte and a checksum byte move the total, and a byte after them is in neither. -/
theorem singleByteCorruptionDetected : Obligations.SingleByteCorruptionDetected := by
  unfold Obligations.SingleByteCorruptionDetected
  intro s f i b hmagic hl hgood ⟨c, hc, hne⟩
  have hdec : ∀ g : WireFrame, g.payload.length ≤ 255 → Decodes s.params g := fun g hg =>
    ⟨hg, fun h => by simp [hmagic] at h⟩
  refine ⟨fun hi h6 => ?_, fun hi => ?_⟩
  · obtain ⟨g, hg, hgl, hcov, hhi, hlo⟩ := exists_frame_of_set hl h6 b
    have hbad := sumGood_of_set_eq_false hgood hc hne hi hcov hhi hlo
    exact ⟨_, hg ▸ exec_verify_bad (hdec g hgl) hbad, rfl⟩
  · obtain ⟨g, hg, hgl, hcov, hhi, hlo⟩ := exists_frame_of_set hl (by omega : i ≠ 6) b
    have hcovlen : (covered f).length ≤ 7 + f.payload.length := List.length_take_le _ _
    rw [List.set_eq_of_length_le (by omega)] at hcov
    rw [byteAt_set_ne (by omega), byteAt_cksumHi] at hhi
    rw [byteAt_set_ne (by omega), byteAt_cksumLo] at hlo
    exact ⟨_, hg ▸ exec_verify_good (hdec g hgl) ((sumGood_congr hcov hhi hlo s.params).trans hgood), rfl⟩

end Sys2Proof.Machine
end

section
/-! PROOFS. FSM_GO's requests (43_handshake.md sections 2, 4 and 6) and the command-level statuses (60_exceptions.md
section 3). -/

open Sys2Proof Sys2Proof.Machine Sys2Proof.Claims

namespace Sys2Proof.Machine

/-! ### FSM_GO with an exchange pending, and in a terminal state (rules R171, R187) -/

theorem exec_fsmGo_busy {s : State} {w : Byte} {x : Worker} (h : s.worker? w = some x) (hp : x.pend ≠ .none) :
    exec (.fsmGo w) s = .next (s.answer .busy []) := by
  simp only [exec, execFsmGo, h, hp, if_false]

theorem goStep_terminal {x : Worker} (h : x.state = .registered ∨ x.state = .abandoned) (w : Byte) (s : State) :
    goStep w x s = s.answer .ok [] := by
  obtain h | h := h <;> simp only [goStep, h]

/-- Settles O26: what is pending decides first, then the state. -/
theorem goBusyOrTerminal : Obligations.GoBusyOrTerminal := by
  unfold Obligations.GoBusyOrTerminal
  refine fun s w x hx => ⟨decode_command rfl s.params, exec_fsmGo_busy hx, fun hp hs => ?_⟩
  rw [exec_fsmGo_of_idle hx hp, goStep_terminal hs]
  rfl

/-! ### Step 3 with an address left (rules R179, R190) -/

theorem goStep_allocate {s : State} {x : Worker} (w : Byte) (h : x.state = .awaitingSerial) (hl : x.raw.length ≤ 254)
    (hk : s.table.maxKey ≤ 252) : goStep w x s =
      (State.setWorker { s with table := s.table.write (s.table.maxKey + 1) .reserved } w
        { x with
          addr := BitVec.ofNat 8 (s.table.maxKey + 1), addrValid := true, state := .awaitingAddressConfirm,
          tx := requestBytes s.params s.params.fnSendRegisterAddress
            (x.raw ++ [BitVec.ofNat 8 (s.table.maxKey + 1)]),
          pend := .sendRegisterAddress }).answer .ok [] := by
  have ha : s.table.allocateNext = some (s.table.maxKey + 1, s.table.write (s.table.maxKey + 1) .reserved) := by
    obtain ⟨hgt, -⟩ | ⟨-, ha⟩ := s.table.allocateNext_cases
    · omega
    · exact ha
  have hlen : (x.raw ++ [BitVec.ofNat 8 (s.table.maxKey + 1)]).length ≤ 255 := by simp; omega
  simp only [goStep, h, goAllocate, ha]
  rw [if_neg (by omega)]
  exact emitted_emit hlen { s with table := s.table.write (s.table.maxKey + 1) .reserved } w _ _ _

/-- Settles O23: the table's one write is the reservation of the largest key's successor. -/
theorem goAllocatesNextAddress : Obligations.GoAllocatesNextAddress := by
  unfold Obligations.GoAllocatesNextAddress
  intro s w x m hx hs hp hl hwf hm hk
  obtain rfl := (isMaxKey_iff hwf).mp hm
  refine ⟨s.table.write (s.table.maxKey + 1) .reserved, ?_, Table.write_wf hwf (by omega) _,
    fun a => Table.read_write hwf _ a _⟩
  rw [exec_fsmGo_of_idle hx hp, goStep_allocate w hs hl (by omega), requestFrame_eq]
  rfl

/-- The address just reserved is the largest key. -/
theorem isMaxKey_of_reserved {t t' : Table} {m : Nat} (hm : IsMaxKey t m)
    (h : ∀ a, t'.read a = if a = m + 1 then .reserved else t.read a) : IsMaxKey t' (m + 1) := by
  obtain ⟨-, -, hmax⟩ := hm
  refine ⟨.inr (by simp [h]), by omega, fun a ha => ?_⟩
  rw [h] at ha
  split_ifs at ha with heq
  · exact heq.le
  · exact (hmax a ha).trans (Nat.le_succ m)

theorem getElem?_set_toNat_ne {v w : Byte} (h : v ≠ w) (ws : List Worker) (x : Worker) :
    (ws.set v.toNat x)[w.toNat]? = ws[w.toNat]? :=
  List.getElem?_set_ne fun he => h (BitVec.eq_of_toNat_eq he)

theorem getElem?_set_toNat_self {ws : List Worker} {w : Byte} {x : Worker} (h : ws[w.toNat]? = some x) (y : Worker) :
    (ws.set w.toNat y)[w.toNat]? = some y :=
  List.getElem?_set_self (List.getElem?_eq_some_iff.mp h).1

/-- What FSM_GO's allocation says of the next one (rules R67, R190). -/
theorem allocation_of_exec {s t : State} {w : Byte} {x : Worker} {m : Nat} (hx : s.workers[w.toNat]? = some x)
    (hs : x.state = .awaitingSerial) (hp : x.pend = .none) (hl : x.raw.length ≤ 254) (hwf : s.table.wf)
    (hm : IsMaxKey s.table m) (hk : m + 1 ≤ 253) (hexec : exec (.fsmGo w) s = .next t) :
    ∃ y, t.workers = s.workers.set w.toNat y ∧ (y.addr, y.addrValid) = (BitVec.ofNat 8 (m + 1), true) ∧
      t.table.wf ∧ IsMaxKey t.table (m + 1) := by
  obtain ⟨tbl, hgo, hwf', hread⟩ := goAllocatesNextAddress s w x m hx hs hp hl hwf hm hk
  rw [hgo] at hexec
  injection hexec with ht
  subst ht
  exact ⟨_, rfl, rfl, hwf', isMaxKey_of_reserved hm hread⟩

/-- Settles O44: the second FSM_GO finds the first one's address as the largest key. -/
theorem twoWorkersGetConsecutiveAddresses : Obligations.TwoWorkersGetConsecutiveAddresses := by
  unfold Obligations.TwoWorkersGetConsecutiveAddresses
  intro s t u v w x y m hvw hx hy hsx hsy hpx hpy hlx hly hwf hm hk hexecv hexecw
  obtain ⟨x', ht, hx', hwf', hm'⟩ := allocation_of_exec hx hsx hpx hlx hwf hm (by omega) hexecv
  have hyt : t.workers[w.toNat]? = some y := by rw [ht, getElem?_set_toNat_ne hvw, hy]
  obtain ⟨y', hu, hy', -, -⟩ := allocation_of_exec hyt hsy hpy hly hwf' hm' (by omega) hexecw
  refine ⟨?_, ?_⟩
  · rw [hu, getElem?_set_toNat_ne hvw.symm, ht, getElem?_set_toNat_self hx, Option.map_some, hx']
  · rw [hu, getElem?_set_toNat_self hyt, Option.map_some, hy']

/-! ### The command-level statuses (rules R88, R151, R197, R225) -/

theorem exec_fsmGo_badWorker {s : State} {w : Byte} (h : s.worker? w = none) :
    exec (.fsmGo w) s = .next (s.answer .badWorker []) := by
  simp only [exec, execFsmGo, h]

theorem exec_fsmResult_badWorker {s : State} {w : Byte} (h : s.worker? w = none) (present : Byte) (data : List Byte) :
    exec (.fsmResult w present data) s = .next (s.answer .badWorker []) := by
  simp only [exec, execFsmResult, h]

theorem exec_fsmResult_illegalCommand {s : State} {w present : Byte} {data : List Byte} {x : Worker}
    (h : s.worker? w = some x) (hr : exchangeResult present data = none) :
    exec (.fsmResult w present data) s = .next (s.answer .illegalCommand []) := by
  simp only [exec, execFsmResult, h, hr]

/-- Rule R88: a `present` outside its domain, or bytes where none is said. -/
theorem exchangeResult_eq_none {present : Byte} {data : List Byte}
    (h : present ∉ ([0x00, 0x01] : List Byte) ∨ (present = 0x00 ∧ data ≠ [])) : exchangeResult present data = none := by
  obtain h | ⟨rfl, h⟩ := h
  · simp only [List.mem_cons, List.not_mem_nil, or_false, not_or] at h
    simp only [exchangeResult, h, if_false]
  · simp only [exchangeResult, h, if_true, if_false]

theorem deliver_notPending {s : State} {w : Byte} {x : Worker} (h : s.worker? w = some x) (hp : x.pend = .none)
    (r : Option (List Byte)) : deliver w r s = s.answer .notPending [] := by
  simp only [deliver, h, hp]

/-- Settles O33: the worker is looked up first, then the operands are read, then the pending exchange. -/
theorem commandStatusesInOrder : Obligations.CommandStatusesInOrder := by
  unfold Obligations.CommandStatusesInOrder
  refine fun s w present reg data => ⟨fun hw => ?badWorker, fun hw => ?_⟩
  case badWorker =>
    have hx := worker?_eq_none_of_nw_le hw
    exact ⟨exec_fsmReset_badWorker hx, exec_fsmGo_badWorker hx, exec_fsmResult_badWorker hx present data,
      exec_fsmRead_badWorker hx reg⟩
  obtain ⟨x, hx⟩ := exists_worker?_of_lt_nw hw
  refine ⟨fun hd => exec_fsmResult_illegalCommand hx (exchangeResult_eq_none hd),
    fun hreg => exec_fsmRead_illegalCommand hx (readback_eq_none_of_gt x hreg), fun hd hp => ?notPending⟩
  case notPending =>
    obtain ⟨r, hr⟩ := exists_exchangeResult hd
    rw [hx, Option.map_some, Option.some_inj] at hp
    rw [exec_fsmResult_of_exchangeResult hx hr, deliver_notPending hx hp]
    rfl

/-! ### The frames FSM_GO offers (rules R150, R172, R173, R179, R182) -/

/-- A request of the FSM, as a frame of the wire. -/
def request (p : Params) (fn : Byte) (payload : List Byte) : WireFrame :=
  encodedFrame ADDR_CONTROLLER ADDR_BROADCAST p.ctrlRegister fn payload

theorem request_bytes (p : Params) (fn : Byte) (payload : List Byte) :
    (request p fn payload).bytes = requestBytes p fn payload := rfl

theorem request_inFamily {p : Params} {fn : Byte} {payload : List Byte} (h : payload.length ≤ 255) :
    (request p fn payload).inFamily p .register = true := by
  have hwf : (request p fn payload).wf = true := by
    rw [wf_iff, request_bytes, requestBytes_length]
    exact ⟨h, by omega⟩
  simp only [WireFrame.inFamily, hwf, Bool.true_and, decide_eq_true_eq]
  exact familyOf_register

/-- A request is well-formed as the row of its own function code. -/
theorem request_wf {p : Params} {fn : Byte} {payload : List Byte} (h : payload.length ≤ 255) :
    ((request p fn payload).inFamily p .register && decide ((request p fn payload).fn = fn)) = true := by
  rw [request_inFamily h]
  exact decide_eq_true rfl

theorem offered_of_getElem? {t : State} {w : Byte} {y : Worker} (hy : t.workers[w.toNat]? = some y)
    (hp : y.pend ≠ .none) : t.offered w = some y.tx := by
  have hy' : t.worker? w = some y := hy
  simp only [State.offered, hy', hp, if_false]

/-- Settles O38: the outcomes of FSM_GO that leave an exchange pending build one of the three requests. -/
theorem emittedFramesAreRequests : Obligations.EmittedFramesAreRequests := by
  unfold Obligations.EmittedFramesAreRequests
  intro s t w v x y hv hx hp hinv hexec hy hpend
  refine ⟨offered_of_getElem? hy hpend, ?_⟩
  rw [exec_fsmGo_of_idle hx hp] at hexec
  injection hexec with ht
  have hgo : GoOutcome s w x t := ht ▸ goStep_outcome s w x
  cases hgo with
  | reRegister =>
    rw [eq_of_getElem?_set hx hy]
    refine ⟨request s.params s.params.fnReRegister [], rfl, rfl, rfl, fun _ => ⟨rfl, ?_⟩, nofun, nofun⟩
    exact decode_frame_bytes hv rfl (request_wf (by simp))
  | offlineQuery =>
    rw [eq_of_getElem?_set hx hy]
    refine ⟨request s.params s.params.fnOfflineQuery [], rfl, rfl, rfl, nofun, fun _ => ⟨rfl, ?_⟩, nofun⟩
    exact decode_frame_bytes hv rfl (request_wf (by simp))
  | allocated hs hl hk =>
    rw [eq_of_getElem?_set hx hy]
    refine ⟨request s.params s.params.fnSendRegisterAddress (x.raw ++ [BitVec.ofNat 8 (s.table.maxKey + 1)]), rfl, rfl,
      rfl, nofun, nofun, fun _ => ⟨rfl, ?_⟩⟩
    exact decode_frame_bytes hv rfl (request_wf (by simp; omega))
  | resent hs hl =>
    rw [eq_of_getElem?_set hx hy]
    refine ⟨request s.params s.params.fnSendRegisterAddress (x.raw ++ [x.addr]), rfl, rfl, rfl, nofun, nofun,
      fun _ => ⟨rfl, ?_⟩⟩
    exact decode_frame_bytes hv rfl (request_wf (by simp; omega))
  | tooLong | exhausted =>
    rw [eq_of_getElem?_set hx hy, fail_pend] at hpend
    exact absurd hp hpend
  | noRoom | terminal =>
    obtain rfl := Option.some.inj (hx.symm.trans hy)
    exact absurd hp hpend

end Sys2Proof.Machine
end

section
/-! PROOFS. The frames of the wire (30_encoding.md section 2, 42_exchange_port.md): how the dispatcher reads each row, and
how the worker takes it. -/

open Sys2Proof Sys2Proof.Machine Sys2Proof.Claims

namespace Sys2Proof.Machine

/-! ### The dispatcher's reading (rules R132 to R134) -/

theorem lookupReading_of_threshold {p : Params} {ctrl t : Byte} {F : Family} (hF : familyOf p ctrl = F)
    (ht : threshold p F = some t) (fn : Byte) :
    lookupReading p ctrl fn = ⟨F, some (directionOf t fn), nameOf (nameTable p F) fn⟩ := by
  simp only [lookupReading, hF, ht]

theorem lookupReading_of_no_threshold {p : Params} {ctrl : Byte} {F : Family} (hF : familyOf p ctrl = F)
    (ht : threshold p F = none) (fn : Byte) : lookupReading p ctrl fn = ⟨F, none, 0x00⟩ := by
  simp only [lookupReading, hF, ht, ID_ABSENT]

theorem directionOf_request {t fn : Byte} (h : fn < t) : directionOf t fn = .request := if_pos h

theorem directionOf_response {t fn : Byte} (h : t ≤ fn) : directionOf t fn = .response := if_neg (BitVec.not_lt.mpr h)

/-- A code of no named entry has the name its extra entry gives it (rule R131). -/
theorem nameOf_append_extra {named : List (Byte × Byte)} {fn : Byte} (h : fn ∉ named.map Prod.fst) (es : List Extra) :
    nameOf (named ++ es.map fun e => (e.code, e.nameId)) fn = extraName es fn := by
  have hnone : named.find? (fun e => decide (e.1 = fn)) = none :=
    List.find?_eq_none.mpr fun e he => by
      have hne : e.1 ≠ fn := fun hfn => h (hfn ▸ List.mem_map_of_mem he)
      simp [hne]
  have hextra : (es.map fun e => (e.code, e.nameId)).find? (fun e => decide (e.1 = fn)) =
      (es.find? fun e => e.code == fn).map fun e => (e.code, e.nameId) := List.find?_map
  rw [nameOf, List.find?_append, hnone, Option.none_or, hextra, extraName]
  cases es.find? fun e => e.code == fn <;> rfl

theorem nameOf_register_extra {p : Params} {fn : Byte} (h : fn ∉ p.regNamed) :
    nameOf (nameTable p .register) fn = extraName p.regExtra fn := by
  refine nameOf_append_extra ?_ p.regExtra
  simpa [Params.regNamed, Function.comp_def] using h

theorem nameOf_read_extra {p : Params} {fn : Byte} (h : fn ∉ p.readNamed) :
    nameOf (nameTable p .read) fn = extraName p.readExtra fn := by
  refine nameOf_append_extra ?_ p.readExtra
  simpa [Params.readNamed] using h

/-! ### The worker's taking of a frame (rules R151, R174) -/

theorem delivery_reading {s t : State} {w : Byte} {x : Worker} {r : Option (List Byte)} (h : Delivery s w x r t) :
    t.reading = s.reading := by
  cases h <;> rfl

theorem deliver_reading (w : Byte) (r : Option (List Byte)) (s : State) : (deliver w r s).reading = s.reading := by
  match hx : s.worker? w with
  | none => rw [deliver_badWorker hx]; rfl
  | some x => exact delivery_reading (deliver_outcome hx r)

theorem exec_fsmResult_bytes (w : Byte) (f : WireFrame) (s : State) :
    exec (.fsmResult w 0x01 f.bytes) s = .next (deliver w (some f.bytes) s) := by
  match hx : s.worker? w with
  | none => rw [exec_fsmResult_badWorker hx, deliver_badWorker hx]
  | some x => exact exec_fsmResult_of_exchangeResult hx (exchangeResult_bytes f)

theorem readAndDelivered_of_reading {s : State} {i : Instr} {w : Byte} {f : WireFrame} {rd : Reading}
    (hi : frame? i = some (w, f)) (hrd : lookupReading s.params f.ctrl f.fn = rd) : ReadAndDelivered i s w f rd := by
  subst hrd
  exact ⟨receive w f s, exec_frame hi s, deliver_reading _ _ _, exec_fsmResult_bytes _ _ _⟩

/-! ### What a row says of its frame -/

section
variable {p : Params} {f : WireFrame} {F : Family}

theorem family_of_inFamily (h : f.inFamily p F = true) : familyOf p f.ctrl = F := by
  simp only [WireFrame.inFamily, Bool.and_eq_true, decide_eq_true_eq] at h
  exact h.2

theorem family_code_of_row {c : Byte} (h : (f.inFamily p F && decide (f.fn = c)) = true) :
    familyOf p f.ctrl = F ∧ f.fn = c := by
  rw [Bool.and_eq_true, decide_eq_true_eq] at h
  exact ⟨family_of_inFamily h.1, h.2⟩

/-- A frame of a named row is read as the row's name (rules R131 to R133). -/
theorem readAndDelivered_named {s : State} (hv : s.params.Valid) {i : Instr} {w t c id : Byte} {d : Direction}
    (hi : frame? i = some (w, f)) (hrow : (f.inFamily s.params F && decide (f.fn = c)) = true)
    (ht : threshold s.params F = some t) (hd : directionOf t c = d) (hm : (c, id) ∈ nameTable s.params F) :
    ReadAndDelivered i s w f ⟨F, some d, id⟩ := by
  obtain ⟨hF, rfl⟩ := family_code_of_row hrow
  refine readAndDelivered_of_reading hi ?_
  rw [lookupReading_of_threshold hF ht, hd, nameOf_of_mem (nameTable_codes_nodup hv F) hm]

end

/-- Settles O34: the row's family, its code's side of the threshold, and its code's entry in the table. -/
theorem framesAreReadAndDelivered : Obligations.FramesAreReadAndDelivered := by
  unfold Obligations.FramesAreReadAndDelivered
  intro s w f hv
  obtain ⟨-, ⟨h1, h2, h3, h4, h5, h6, -⟩, ⟨hr1, hr2, -⟩, -⟩ := id hv
  refine ⟨fun h => ?_, fun h => ?_, fun h => ?_, fun h => ?_, fun h => ?_, fun h => ?_, fun h => ?_, fun h => ?_,
    fun h => ?readOther, fun h => ?registerOther, fun h => ?write, fun h => ?execute, fun h => ?unknown⟩
  · exact readAndDelivered_named hv rfl h rfl (directionOf_request hr1) (by simp [nameTable, ID_QUERY_NORMAL_INFO])
  · exact readAndDelivered_named hv rfl h rfl (directionOf_response hr2)
      (by simp [nameTable, ID_QUERY_NORMAL_INFO_REPLY])
  · exact readAndDelivered_named hv rfl h rfl (directionOf_request h1) (by simp [nameTable, ID_REREGISTER])
  · exact readAndDelivered_named hv rfl h rfl (directionOf_request h2) (by simp [nameTable, ID_OFFLINE_QUERY])
  · exact readAndDelivered_named hv rfl h rfl (directionOf_request h3) (by simp [nameTable, ID_SEND_REGISTER_ADDRESS])
  · exact readAndDelivered_named hv rfl h rfl (directionOf_response h4) (by simp [nameTable, ID_OFFLINE_QUERY_REPLY])
  · exact readAndDelivered_named hv rfl h rfl (directionOf_response h5) (by simp [nameTable, ID_ADDRESS_CONFIRM])
  · simp only [Instr.wf, Bool.and_eq_true, decide_eq_true_eq] at h
    obtain ⟨hF, hc⟩ := h
    refine readAndDelivered_named (c := f.fn) hv rfl (by simp [hF]) rfl (directionOf_response (h6 f.fn (by simp [hc])))
      (by simp [nameTable, hc, ID_REREGISTER_REPLY])
  case readOther =>
    simp only [Instr.wf, namedRead, Bool.and_eq_true, Bool.not_eq_true', decide_eq_false_iff_not] at h
    refine readAndDelivered_of_reading rfl ?_
    rw [lookupReading_of_threshold (family_of_inFamily h.1) rfl, nameOf_read_extra h.2]
    rfl
  case registerOther =>
    simp only [Instr.wf, namedRegister, Bool.and_eq_true, Bool.not_eq_true', decide_eq_false_iff_not] at h
    refine readAndDelivered_of_reading rfl ?_
    rw [lookupReading_of_threshold (family_of_inFamily h.1) rfl, nameOf_register_extra h.2]
    rfl
  case write => exact readAndDelivered_of_reading rfl (lookupReading_of_no_threshold (family_of_inFamily h) rfl f.fn)
  case execute => exact readAndDelivered_of_reading rfl (lookupReading_of_no_threshold (family_of_inFamily h) rfl f.fn)
  case unknown => exact readAndDelivered_of_reading rfl (lookupReading_of_no_threshold (family_of_inFamily h) rfl f.fn)

/-! ### Frames as the answer of an exchange -/

theorem frame?_of_mem_wireKinds {k : Byte → WireFrame → Instr} (h : k ∈ wireKinds) (w : Byte) (f : WireFrame) :
    frame? (k w f) = some (w, f) := by
  simp only [wireKinds, List.mem_cons, List.not_mem_nil, or_false] at h
  rcases h with rfl | rfl | rfl | rfl | rfl | rfl | rfl | rfl | rfl | rfl | rfl | rfl | rfl <;> rfl

theorem registerKinds_subset : registerKinds ⊆ wireKinds := by simp [registerKinds, wireKinds]

theorem otherKinds_subset : otherKinds ⊆ wireKinds := by simp [otherKinds, wireKinds]

/-- What the dispatcher leaves before the worker takes the frame. -/
def State.read (s : State) (f : WireFrame) : State := { s with reading := some (lookupReading s.params f.ctrl f.fn) }

theorem exec_wireKind {k : Byte → WireFrame → Instr} (h : k ∈ wireKinds) (w : Byte) (f : WireFrame) (s : State) :
    exec (k w f) s = .next (deliver w (some f.bytes) (s.read f)) :=
  exec_frame (frame?_of_mem_wireKinds h w f) s

theorem worker?_read {s : State} {w : Byte} {x : Worker} (h : s.workers[w.toNat]? = some x) (f : WireFrame) :
    (s.read f).worker? w = some x := h

/-- Settles O35: the delivery to a pending ReRegister does not look at the frame. -/
theorem anyFrameAnswersReRegister : Obligations.AnyFrameAnswersReRegister := by
  unfold Obligations.AnyFrameAnswersReRegister
  intro k hk s w x f hx hp
  rw [exec_wireKind hk, deliver_reRegister (worker?_read hx f) _ hp]
  rfl

/-- Settles O36: the checks read no function code. -/
theorem registerFramesAccepted : Obligations.RegisterFramesAccepted := by
  unfold Obligations.RegisterFramesAccepted
  intro k hk s w x f hx hf
  rw [exec_wireKind (registerKinds_subset hk)]
  refine ⟨fun hp hm => ?_, fun hp hm hwf => ?_⟩
  · rw [deliver_offlineQuery (worker?_read hx f) _ hp, answerOfflineQuery_accepted (s := s.read f) hf hm]
    rfl
  · have haddr : x.addr.toNat ≤ 255 := Nat.le_of_lt_succ x.addr.isLt
    refine ⟨s.table.record x.addr.toNat (filterSerial s.params x.raw), ?_, Table.record_wf hwf haddr _,
      fun a => Table.read_record hwf _ a _⟩
    rw [deliver_sendRegisterAddress (worker?_read hx f) _ hp, answerAddressConfirm_accepted (s := s.read f) hf hm]
    rfl

/-- The control code of a frame outside the Register family is another (rules R76, R81, R82). -/
theorem ctrl_ne_of_otherKinds {k : Byte → WireFrame → Instr} (hk : k ∈ otherKinds) {p : Params} {w : Byte}
    {f : WireFrame} (h : (k w f).wf p = true) : f.ctrl ≠ p.ctrlRegister := by
  intro hc
  have hF : familyOf p f.ctrl = .register := familyOf_register_iff.mpr hc
  simp only [otherKinds, List.mem_cons, List.not_mem_nil, or_false] at hk
  rcases hk with rfl | rfl | rfl | rfl | rfl | rfl <;> simp [Instr.wf, WireFrame.inFamily, hF] at h

theorem maskOf_ctrl (src dst cksum ack : Bool) : (maskOf src dst true cksum ack).getLsbD 2 = true := by
  revert src dst cksum ack
  decide

/-- With the control-code check among the failed ones the reason is ProtocolViolation (rule R189). -/
theorem reasonByte_of_ctrl {m : BitVec 5} (h : m.getLsbD 2 = true) : m ≠ 0 ∧ reasonByte m = 0x04 := by
  revert m
  decide

/-- Settles O37: the control-code check fails whatever the others say. -/
theorem otherFamiliesRejected : Obligations.OtherFamiliesRejected := by
  unfold Obligations.OtherFamiliesRejected
  intro k hk s w x f _ hx hf hwf
  have hctrl : (f.ctrl != s.params.ctrlRegister) = true := bne_iff_ne.mpr (ctrl_ne_of_otherKinds hk hwf)
  have hmask2 : (mask2 s.params f).getLsbD 2 = true := by rw [mask2, hctrl, maskOf_ctrl]
  have hmask4 : (mask4 s.params x.addr f).getLsbD 2 = true := by rw [mask4, hctrl, maskOf_ctrl]
  obtain ⟨hne2, hreason2⟩ := reasonByte_of_ctrl hmask2
  obtain ⟨hne4, hreason4⟩ := reasonByte_of_ctrl hmask4
  rw [exec_wireKind (otherKinds_subset hk)]
  refine ⟨fun hp => ⟨hmask2, ?_⟩, fun hp => ⟨hmask4, ?_⟩⟩
  · rw [deliver_offlineQuery (worker?_read hx f) _ hp, answerOfflineQuery_rejected (s := s.read f) hf hne2, ← hreason2]
    rfl
  · rw [deliver_sendRegisterAddress (worker?_read hx f) _ hp, answerAddressConfirm_rejected (s := s.read f) hf hne4,
      ← hreason4]
    rfl

/-! ### The attempts of an exchange (rules R152, R154, R155) -/

theorem firstRead_of_all_empty {before : List (List Byte)} (h : ∀ r ∈ before, r = []) (n : Nat) :
    firstRead n before = [] := by
  have hnone : (before.take n).find? (fun r => !r.isEmpty) = none :=
    List.find?_eq_none.mpr fun r hr => by simp [h r (List.mem_of_mem_take hr)]
  rw [firstRead, hnone, Option.getD_none]

theorem firstRead_of_first {before : List (List Byte)} (h : ∀ r ∈ before, r = []) {r : List Byte} (hr : r ≠ []) {n : Nat}
    (hn : before.length < n) (after : List (List Byte)) : firstRead n (before ++ r :: after) = r := by
  obtain ⟨k, rfl⟩ := Nat.exists_eq_add_of_lt hn
  have hbefore : before.find? (fun r => !r.isEmpty) = none :=
    List.find?_eq_none.mpr fun r' hr' => by simp [h r' hr']
  have htake : (before ++ r :: after).take (before.length + k + 1) = before ++ r :: after.take k := by
    rw [Nat.add_assoc, List.take_length_add_append, List.take_succ_cons]
  have hfirst : (r :: after.take k).find? (fun r => !r.isEmpty) = some r := by simp [hr]
  rw [firstRead, htake, List.find?_append, hbefore, Option.none_or, hfirst, Option.getD_some]

/-- Settles O39: the read that reaches the block is the first that is not empty, and it is delivered as FSM_RESULT
delivers it, read by the dispatcher if it is a frame. -/
theorem exchangeAnswersFirstRead : Obligations.ExchangeAnswersFirstRead := by
  unfold Obligations.ExchangeAnswersFirstRead
  intro s w before after rest hbefore
  refine ⟨fun hi => ?_, fun r hne hl hn hi => ?_⟩
  · rw [step_of_portWord hi rfl, firstRead_of_all_empty hbefore, decode_empty_read]
  · rw [step_of_portWord hi rfl, firstRead_of_first hbefore hne hn]
    cases hf : parseFrame r with
    | none =>
      have herr : decodeError false r ≠ none := by simp [decodeError_false_eq_none_iff, hf]
      rw [decode_read_without_frame hne hl hf, if_neg herr]
    | some f =>
      have herr : decodeError false r = none := decodeError_false_eq_none_iff.mpr ⟨f, hf⟩
      obtain ⟨hd, -, rfl⟩ := decode_read_frame hl hf s.params w
      rw [hd, exec_frame (frame?_frameInstr s.params w f), exec_fsmResult_bytes, if_pos herr]
      rfl

end Sys2Proof.Machine
end

section
/-! PROOFS. Runs of instructions: the block reset as commands, the parameters of a run, the handshake that registers a
worker, and the rounds that do not (rules R198, R252, R256). -/

open Sys2Proof Sys2Proof.Machine Sys2Proof.Claims

namespace Sys2Proof.Machine

/-! ### Running instructions -/

theorem runInstrs_cons {i : Instr} {s t : State} (h : exec i s = .next t) (is : List Instr) :
    runInstrs (i :: is) s = runInstrs is t := by
  simp only [runInstrs, h]

theorem runInstrs_append {is : List Instr} {s t : State} (h : runInstrs is s = .next t) (js : List Instr) :
    runInstrs (is ++ js) s = runInstrs js t := by
  induction is generalizing s with
  | nil =>
    obtain rfl : s = t := by simpa [runInstrs] using h
    rfl
  | cons i is ih =>
    obtain ⟨u, hu, -⟩ := exec_effect i s
    rw [runInstrs_cons hu] at h
    rw [List.cons_append, runInstrs_cons hu, ih h]

/-! ### The block reset as commands (rule R252) -/

/-- After FSM_RESET of the first `n` workers those are reset and nothing else of the registers has changed. -/
theorem runInstrs_fsmReset {s : State} {n : Nat} (hn : n ≤ s.nw) (h256 : n ≤ 256) :
    ∃ t, runInstrs ((List.range n).map fun w => Instr.fsmReset (BitVec.ofNat 8 w)) s = .next t ∧
      t.params = s.params ∧ t.table = s.table ∧ t.inbox = s.inbox ∧
      t.workers = List.replicate n Worker.reset ++ s.workers.drop n := by
  induction n with
  | zero => exact ⟨s, rfl, rfl, rfl, rfl, rfl⟩
  | succ n ih =>
    obtain ⟨t, hrun, hp, ht, hi, hw⟩ := ih (by omega) (by omega)
    have hlt : n < s.workers.length := hn
    have hindex : (BitVec.ofNat 8 n).toNat = n := by rw [BitVec.toNat_ofNat, Nat.mod_eq_of_lt (by omega)]
    rw [List.drop_eq_getElem_cons hlt] at hw
    generalize s.workers.drop (n + 1) = rest at hw ⊢
    have hx : t.worker? (BitVec.ofNat 8 n) = some s.workers[n] := by
      rw [worker?_eq, hindex, hw]
      simp
    refine ⟨(t.resetWorker (BitVec.ofNat 8 n)).answer .ok [], ?_, hp, ht, hi, ?_⟩
    · rw [List.range_succ, List.map_append, runInstrs_append hrun]
      exact runInstrs_cons (exec_fsmReset_ok hx) []
    · rw [answer_workers, State.resetWorker, setWorker_workers, hindex, hw, List.replicate_succ']
      simp

/-- Settles O46: FSM_RESET of every worker in turn leaves all of them reset. -/
theorem blockResetIsEveryReset : Obligations.BlockResetIsEveryReset := by
  unfold Obligations.BlockResetIsEveryReset
  intro s h256
  obtain ⟨t, hrun, hp, -, hi, hw⟩ := runInstrs_fsmReset (s := s) le_rfl h256
  refine ⟨State.answer { t with table := [] } .ok [], ?_, ?_, rfl, hp.symm, hi.symm⟩
  · rw [runInstrs_append hrun]
    exact runInstrs_cons rfl []
  · rw [answer_workers, hw, blockReset_workers, State.nw, List.drop_length, List.append_nil, List.map_const']

/-! ### The parameters of a run (rules R20, R256) -/

theorem step_params {s t : State} (h : step s = .next t) : t.params = s.params ∧ t.nw = s.nw := by
  obtain ⟨-, rfl⟩ | ⟨i, rest, -, -, rfl⟩ | ⟨i, rest, word, -, -, hexec⟩ := step_cases h
  · exact ⟨rfl, rfl⟩
  · exact ⟨rfl, nw_blockReset _⟩
  · obtain ⟨hp, hnw, -⟩ := effect_params (effect_of_exec hexec)
    exact ⟨hp, hnw⟩

/-- Settles O48: by induction on the steps, each of which is the step under the state's parameters and keeps them. -/
theorem parametersNeverChange : Obligations.ParametersNeverChange := by
  unfold Obligations.ParametersNeverChange
  refine ⟨fun s t => step_params, fun k nw s t hrun => ?_⟩
  have key : (machineUnder s.params nw).run k s.block = .next t.block ∧ t.params = s.params ∧ t.nw = s.nw := by
    induction k generalizing s with
    | zero =>
      obtain rfl : s = t := by
        injection hrun
      exact ⟨rfl, rfl, rfl⟩
    | succ k ih =>
      obtain ⟨u, hu⟩ := step_next s
      rw [run_succ (M := Sys2Proof.core) hu] at hrun
      obtain ⟨hp, hnw⟩ := step_params hu
      obtain ⟨hr, hp', hnw'⟩ := ih u hrun
      have hstep : (machineUnder s.params nw).step s.block = .next u.block := stepUnder_of_step hu
      rw [run_succ hstep]
      exact ⟨hp ▸ hr, hp'.trans hp, hnw'.trans hnw⟩
  obtain ⟨hr, hp, hnw⟩ := key
  exact ⟨hr, hp ▸ (block_under t).symm, hnw⟩

/-! ### From step 1 to the answer of step 2 (rules R172, R173, R175) -/

/-- A worker whose OfflineQuery is pending, with the registers `x` beside. -/
def offlineQueryPending (p : Params) (x : Worker) : Worker :=
  { x with phase := .offlineQuery, pend := .offlineQuery, tx := requestFrame p p.fnOfflineQuery [] }

theorem runInstrs_to_offlineQuery {s : State} {w : Byte} {x : Worker} (hx : s.workers[w.toNat]? = some x)
    (hs : x.state = .unregistered) (hphase : x.phase = .reRegister) (hp : x.pend = .none) (first : List Byte) :
    runInstrs [.fsmGo w, .fsmResult w 0x01 first, .fsmGo w] s = .next { s with
      workers := s.workers.set w.toNat (offlineQueryPending s.params x), result := [0x00] } := by
  have hgo := (goSendsFirstRequests s w x hx hs hp).1 hphase
  have hx1 := getElem?_set_toNat_self hx
    { x with tx := requestFrame s.params s.params.fnReRegister [], pend := .reRegister }
  have hresult := reRegisterAnswerIgnored { s with workers := _, result := [0x00] } w _ hx1 rfl 0x01 first (.inr rfl)
  have hx2 := getElem?_set_toNat_self hx1
    { x with tx := requestFrame s.params s.params.fnReRegister [], pend := .none, phase := .offlineQuery }
  have hquery := (goSendsFirstRequests { s with workers := _, result := [0x00] } w _ hx2 hs rfl).2 rfl
  rw [runInstrs_cons hgo, runInstrs_cons hresult, runInstrs_cons hquery]
  simp only [runInstrs, List.set_set]
  rfl

/-! ### The handshake that registers a worker (rule R198) -/

/-- Settles O56: the six commands are steps 1, 2, 3 and 4, each with its accepting effect. -/
theorem validHandshakeRegisters : Obligations.ValidHandshakeRegisters := by
  unfold Obligations.ValidHandshakeRegisters
  intro s w m r1 f2 f4 hx hwf hm hk hf2 hm2 hl hf4 hm4
  have hquery := runInstrs_to_offlineQuery hx rfl rfl rfl r1
  have hx2 := getElem?_set_toNat_self hx (offlineQueryPending s.params Worker.reset)
  have hserial := offlineQueryAccepted { s with workers := _, result := [0x00] } w _ f2 hx2 rfl hf2 hm2
  have hx3 := getElem?_set_toNat_self hx2
    { offlineQueryPending s.params Worker.reset with
      pend := .none, raw := f2.payload, phase := .reRegister, state := .awaitingSerial }
  obtain ⟨tbl, hgo, hwf', hread⟩ := goAllocatesNextAddress { s with workers := _, result := [0x00] } w _ m hx3 rfl rfl hl
    hwf hm hk
  have hx4 := getElem?_set_toNat_self hx3
    { offlineQueryPending s.params Worker.reset with
      raw := f2.payload, phase := .reRegister, addr := BitVec.ofNat 8 (m + 1), addrValid := true,
      state := .awaitingAddressConfirm, pend := .sendRegisterAddress,
      tx := requestFrame s.params s.params.fnSendRegisterAddress (f2.payload ++ [BitVec.ofNat 8 (m + 1)]) }
  obtain ⟨tbl', hconfirm, -, hread'⟩ := addressConfirmAccepted
    { s with workers := _, table := tbl, result := [0x00] } w _ f4 hx4 rfl hf4 hm4 hwf'
  have hx5 := getElem?_set_toNat_self hx4
    { offlineQueryPending s.params Worker.reset with
      raw := f2.payload, phase := .reRegister, addr := BitVec.ofNat 8 (m + 1), addrValid := true, pend := .none,
      tx := requestFrame s.params s.params.fnSendRegisterAddress (f2.payload ++ [BitVec.ofNat 8 (m + 1)]),
      serialText := filterSerial s.params f2.payload, state := .registered }
  have haddr := toNat_allocated hk
  have hrun := (runInstrs_append hquery [.fsmResult w 0x01 f2.bytes, .fsmGo w, .fsmResult w 0x01 f4.bytes]).trans
    ((runInstrs_cons hserial _).trans ((runInstrs_cons hgo _).trans (runInstrs_cons hconfirm [])))
  refine ⟨_, _, hrun, hx5, rfl, ⟨.inl rfl, rfl⟩, rfl, rfl, rfl, rfl, fun a => ?_, fun n hn => ?_⟩
  · simp only [hread', hread, haddr]
    split_ifs <;> rfl
  · simp only [List.getElem?_set_ne hn.symm]

end Sys2Proof.Machine
end

section
/-! PROOFS. What an instruction depends on (rules R61, R62, R233): the parameters but the settle delay, its worker and the
table. -/

open Sys2Proof Sys2Proof.Machine Sys2Proof.Claims

namespace Sys2Proof.Machine

/-! ### A resend without room -/

/-- A serial with no room for the address byte, in a state where it was checked (rules R181, R182). -/
theorem goStep_noRoom {x : Worker} (w : Byte) (h : x.state = .awaitingAddressConfirm) (hl : 254 < x.raw.length)
    (s : State) : goStep w x s = s.answer .payloadTooLong [] := by
  calc goStep w x s = goResend w x s := by simp only [goStep, h]
    _ = s.answer .payloadTooLong [] := by
      rw [goResend, emitAddress, emit_of_gt (by simp; omega), State.emitted]

/-! ### An answer that decodes, by its checks (rules R176, R177, R183, R184) -/

section
variable {s : State} {bytes : List Byte} {f : Frame} (hf : decodeFrame s.params.decodeCheckMagic bytes = .ok f)
include hf

theorem answerOfflineQuery_pass (hm : offlineQueryChecks s.params f (verdictOf s.params.cksumWideCompare f) = 0)
    (w : Byte) (x : Worker) : answerOfflineQuery w x (some bytes) s =
      (s.setWorker w { x with raw := f.payload, phase := .reRegister, state := .awaitingSerial }).answer .ok [] := by
  simp only [answerOfflineQuery, hf, hm, if_true]

theorem answerOfflineQuery_fail {v : Verdict} {m : BitVec 5} (hv : v = verdictOf s.params.cksumWideCompare f)
    (hm : m = offlineQueryChecks s.params f v) (h0 : m ≠ 0) (w : Byte) (x : Worker) :
    answerOfflineQuery w x (some bytes) s = s.failStep w x (reasonOf m) m v.expected v.found bytes 2 true := by
  subst hv hm
  simp only [answerOfflineQuery, hf, h0, if_false]

theorem answerAddressConfirm_pass {x : Worker}
    (hm : addressConfirmChecks s.params x.addr f (verdictOf s.params.cksumWideCompare f) = 0) (w : Byte) :
    answerAddressConfirm w x (some bytes) s =
      (State.setWorker { s with table := s.table.record x.addr.toNat (filterSerial s.params x.raw) } w
        { x with serialText := filterSerial s.params x.raw, state := .registered }).answer .ok [] := by
  simp only [answerAddressConfirm, hf, hm, if_true]

theorem answerAddressConfirm_fail {x : Worker} {v : Verdict} {m : BitVec 5}
    (hv : v = verdictOf s.params.cksumWideCompare f) (hm : m = addressConfirmChecks s.params x.addr f v) (h0 : m ≠ 0)
    (w : Byte) :
    answerAddressConfirm w x (some bytes) s = s.failStep w x (reasonOf m) m v.expected v.found bytes 4 true := by
  subst hv hm
  simp only [answerAddressConfirm, hf, h0, if_false]

end

/-! ### Two states that an instruction cannot tell apart -/

/-- What an instruction does not read: the settle delay, the other workers, what waits at the ports, and the model's own
fields. -/
structure Elsewhere where
  settleDelay : Nat
  workers     : List Worker
  inbox       : List Input
  result      : List Byte
  reading     : Option Reading

/-- `s` with `e` where an instruction does not read. -/
def State.elsewhere (s : State) (e : Elsewhere) : State where
  params  := { s.params with settleDelay := e.settleDelay }
  workers := e.workers
  table   := s.table
  inbox   := e.inbox
  result  := e.result
  reading := e.reading

/-- Two states with one table, one result and, at worker `w`, one set of registers. -/
structure AlikeAt (w : Byte) (t t' : State) : Prop where
  table : t'.table = t.table
  result : t'.result = t.result
  worker : t'.workers[w.toNat]? = t.workers[w.toNat]?

section
variable {s : State} {e : Elsewhere} {w : Byte} (hw : e.workers[w.toNat]? = s.workers[w.toNat]?)
include hw

theorem alikeAt_answer (st : Status) (data : List Byte) :
    AlikeAt w (s.answer st data) ((s.elsewhere e).answer st data) := ⟨rfl, rfl, hw⟩

theorem alikeAt_setWorker (tbl : Table) (y : Worker) (st : Status) (data : List Byte) :
    AlikeAt w ((State.setWorker { s with table := tbl } w y).answer st data)
      ((State.setWorker { s.elsewhere e with table := tbl } w y).answer st data) := by
  refine ⟨rfl, rfl, ?_⟩
  show (e.workers.set w.toNat y)[w.toNat]? = (s.workers.set w.toNat y)[w.toNat]?
  rw [List.getElem?_set_self', List.getElem?_set_self', hw]

theorem goStep_elsewhere (x : Worker) : AlikeAt w (goStep w x s) (goStep w x (s.elsewhere e)) := by
  have h := goStep_outcome s w x
  generalize goStep w x s = t at h ⊢
  cases h with
  | reRegister hs hp =>
    rw [goStep_reRegister _ w hs hp]
    exact alikeAt_setWorker hw s.table _ _ _
  | offlineQuery hs hp =>
    rw [goStep_offlineQuery _ w hs hp]
    exact alikeAt_setWorker hw s.table _ _ _
  | tooLong hs hl =>
    rw [goStep_payloadTooLong _ w hs hl]
    exact alikeAt_setWorker hw s.table _ _ _
  | exhausted hs hl hk =>
    have ha : (s.elsewhere e).table.allocateNext = none := by
      obtain ⟨-, ha⟩ | ⟨hle, -⟩ := s.table.allocateNext_cases
      · exact ha
      · omega
    rw [goStep_addressSpaceExhausted w hs hl ha]
    exact alikeAt_setWorker hw s.table _ _ _
  | allocated hs hl hk =>
    rw [goStep_allocate (s := s.elsewhere e) w hs hl hk]
    exact alikeAt_setWorker hw _ _ _ _
  | resent hs hl =>
    rw [goStep_resend _ w hs hl]
    exact alikeAt_setWorker hw s.table _ _ _
  | noRoom hs hl =>
    rw [goStep_noRoom w hs hl]
    exact alikeAt_answer hw _ _
  | terminal hs =>
    rw [goStep_terminal hs]
    exact alikeAt_answer hw _ _

theorem deliver_elsewhere (r : Option (List Byte)) : AlikeAt w (deliver w r s) (deliver w r (s.elsewhere e)) := by
  match hx : s.worker? w with
  | none =>
    rw [deliver_badWorker hx, deliver_badWorker (s := s.elsewhere e) (hw.trans hx)]
    exact alikeAt_answer hw _ _
  | some x =>
    have hx' : (s.elsewhere e).worker? w = some x := hw.trans hx
    have h := deliver_outcome hx r
    generalize deliver w r s = t at h ⊢
    cases h with
    | notPending r hp =>
      rw [deliver_notPending hx' hp]
      exact alikeAt_answer hw _ _
    | ignored r hp =>
      rw [deliver_reRegister hx' r hp]
      exact alikeAt_setWorker hw s.table _ _ _
    | noReply hp =>
      rw [deliver_offlineQuery hx' _ hp, answerOfflineQuery_unusable .noAnswer]
      exact alikeAt_setWorker hw s.table _ _ _
    | badReply bytes st hp he =>
      rw [deliver_offlineQuery hx' _ hp, answerOfflineQuery_unusable (s := s.elsewhere e) (.undecodable he)]
      exact alikeAt_setWorker hw s.table _ _ _
    | serial bytes f hp hf hm =>
      rw [deliver_offlineQuery hx' _ hp, answerOfflineQuery_pass (s := s.elsewhere e) hf hm]
      exact alikeAt_setWorker hw s.table _ _ _
    | badSerial bytes f v m hp hf hv hm h0 =>
      rw [deliver_offlineQuery hx' _ hp, answerOfflineQuery_fail (s := s.elsewhere e) hf hv hm h0]
      exact alikeAt_setWorker hw s.table _ _ _
    | noConfirm hp =>
      rw [deliver_sendRegisterAddress hx' _ hp, answerAddressConfirm_unusable .noAnswer]
      exact alikeAt_setWorker hw s.table _ _ _
    | badConfirm bytes st hp he =>
      rw [deliver_sendRegisterAddress hx' _ hp, answerAddressConfirm_unusable (s := s.elsewhere e) (.undecodable he)]
      exact alikeAt_setWorker hw s.table _ _ _
    | confirmed bytes f hp hf hm =>
      rw [deliver_sendRegisterAddress hx' _ hp,
        answerAddressConfirm_pass (s := s.elsewhere e) (x := { x with pend := .none }) hf hm]
      exact alikeAt_setWorker hw _ _ _ _
    | refuted bytes f v m hp hf hv hm h0 =>
      rw [deliver_sendRegisterAddress hx' _ hp,
        answerAddressConfirm_fail (s := s.elsewhere e) (x := { x with pend := .none }) hf hv hm h0]
      exact alikeAt_setWorker hw s.table _ _ _

end

/-! ### The same for every instruction -/

/-- Two states with one table, one result and, at the worker that `i` is for, one set of registers. -/
structure AlikeFor (i : Instr) (t t' : State) : Prop where
  table : t'.table = t.table
  result : t'.result = t.result
  worker : ∀ w, i.worker? = some w → t'.workers[w.toNat]? = t.workers[w.toNat]?

theorem alikeFor_of_alikeAt {i : Instr} {w : Byte} {t t' : State} (hi : i.worker? = some w) (h : AlikeAt w t t') :
    AlikeFor i t t' := by
  refine ⟨h.table, h.result, fun v hv => ?_⟩
  rw [hi] at hv
  obtain rfl := Option.some.inj hv
  exact h.worker

/-- The answer of a command that reads only: a status and data from the parameters and its worker. -/
theorem exec_readsOnly_elsewhere {i : Instr} (hi : i.readsOnly = true) {s : State} {e : Elsewhere}
    (hw : ∀ w, i.worker? = some w → e.workers[w.toNat]? = s.workers[w.toNat]?) :
    ∃ st data, exec i s = .next (s.answer st data) ∧
      exec i (s.elsewhere e) = .next ((s.elsewhere e).answer st data) := by
  cases i with
  | encode src dst ctrl fn payload =>
    obtain hl | hl := Nat.lt_or_ge 255 payload.length
    · exact ⟨_, _, exec_encode_payloadTooLong hl src dst ctrl fn _, exec_encode_payloadTooLong hl src dst ctrl fn _⟩
    · exact ⟨_, _, exec_encode_ok hl src dst ctrl fn _, exec_encode_ok hl src dst ctrl fn _⟩
  | checksum | lookup | filterSerial | illegalCommand => exact ⟨_, _, rfl, rfl⟩
  | decode data =>
    simp only [exec, execDecode, State.elsewhere]
    cases decodeFrame s.params.decodeCheckMagic data with
    | ok f => exact ⟨_, _, rfl, rfl⟩
    | error st => exact ⟨_, _, rfl, rfl⟩
  | verify data =>
    simp only [exec, execVerify, verifyFrame, State.elsewhere]
    cases decodeFrame s.params.decodeCheckMagic data with
    | ok f => exact ⟨_, _, rfl, rfl⟩
    | error st => exact ⟨_, _, rfl, rfl⟩
  | functionName family fn direction =>
    simp only [exec, execFunctionName]
    cases familyOperand family with
    | none => exact ⟨_, _, rfl, rfl⟩
    | some F =>
      cases directionOperand direction with
      | none => exact ⟨_, _, rfl, rfl⟩
      | some d => exact ⟨_, _, rfl, rfl⟩
  | codeOf family nameId | responseOf family nameId =>
    simp only [exec, execCodeOf, execResponseOf]
    cases familyOperand family with
    | none => exact ⟨_, _, rfl, rfl⟩
    | some F => exact ⟨_, _, rfl, rfl⟩
  | fsmRead w reg =>
    have hx' : (s.elsewhere e).worker? w = s.worker? w := hw w rfl
    cases hx : s.worker? w with
    | none => exact ⟨_, _, exec_fsmRead_badWorker hx reg, exec_fsmRead_badWorker (hx'.trans hx) reg⟩
    | some x =>
      cases hr : readback x reg with
      | none => exact ⟨_, _, exec_fsmRead_illegalCommand hx hr, exec_fsmRead_illegalCommand (hx'.trans hx) hr⟩
      | some data => exact ⟨_, _, exec_fsmRead_ok hx hr, exec_fsmRead_ok (hx'.trans hx) hr⟩
  | _ => simp [Instr.readsOnly] at hi

/-- No instruction tells `s` from `s` elsewhere. -/
theorem exec_elsewhere {i : Instr} {s : State} {e : Elsewhere}
    (hw : ∀ w, i.worker? = some w → e.workers[w.toNat]? = s.workers[w.toNat]?) :
    ∃ t t', exec i s = .next t ∧ exec i (s.elsewhere e) = .next t' ∧ AlikeFor i t t' := by
  by_cases hr : i.readsOnly = true
  · obtain ⟨st, data, h, h'⟩ := exec_readsOnly_elsewhere hr hw
    exact ⟨_, _, h, h', rfl, rfl, hw⟩
  match hf : frame? i with
  | some (w, f) =>
    have hi := worker?_of_frame? hf
    have halike := deliver_elsewhere (s := s.read f)
      (e := { e with reading := some (lookupReading s.params f.ctrl f.fn) }) (hw w hi) (some f.bytes)
    exact ⟨_, _, exec_frame hf s, exec_frame hf _, alikeFor_of_alikeAt hi halike⟩
  | none =>
    cases i with
    | tableReset => exact ⟨_, _, rfl, rfl, rfl, rfl, nofun⟩
    | fsmReset w =>
      have hx' : (s.elsewhere e).worker? w = s.worker? w := hw w rfl
      cases hx : s.worker? w with
      | none =>
        exact ⟨_, _, exec_fsmReset_badWorker hx, exec_fsmReset_badWorker (hx'.trans hx),
          alikeFor_of_alikeAt rfl (alikeAt_answer (hw w rfl) _ _)⟩
      | some x =>
        exact ⟨_, _, exec_fsmReset_ok hx, exec_fsmReset_ok (hx'.trans hx),
          alikeFor_of_alikeAt rfl (alikeAt_setWorker (hw w rfl) s.table _ _ _)⟩
    | fsmGo w =>
      have hx' : (s.elsewhere e).worker? w = s.worker? w := hw w rfl
      cases hx : s.worker? w with
      | none =>
        exact ⟨_, _, exec_fsmGo_badWorker hx, exec_fsmGo_badWorker (hx'.trans hx),
          alikeFor_of_alikeAt rfl (alikeAt_answer (hw w rfl) _ _)⟩
      | some x =>
        by_cases hp : x.pend = .none
        · exact ⟨_, _, exec_fsmGo_of_idle hx hp, exec_fsmGo_of_idle (hx'.trans hx) hp,
            alikeFor_of_alikeAt rfl (goStep_elsewhere (hw w rfl) x)⟩
        · exact ⟨_, _, exec_fsmGo_busy hx hp, exec_fsmGo_busy (hx'.trans hx) hp,
            alikeFor_of_alikeAt rfl (alikeAt_answer (hw w rfl) _ _)⟩
    | fsmResult w present data =>
      have hx' : (s.elsewhere e).worker? w = s.worker? w := hw w rfl
      cases hx : s.worker? w with
      | none =>
        exact ⟨_, _, exec_fsmResult_badWorker hx present data, exec_fsmResult_badWorker (hx'.trans hx) present data,
          alikeFor_of_alikeAt rfl (alikeAt_answer (hw w rfl) _ _)⟩
      | some x =>
        cases hd : exchangeResult present data with
        | none =>
          exact ⟨_, _, exec_fsmResult_illegalCommand hx hd, exec_fsmResult_illegalCommand (hx'.trans hx) hd,
            alikeFor_of_alikeAt rfl (alikeAt_answer (hw w rfl) _ _)⟩
        | some r =>
          exact ⟨_, _, exec_fsmResult_of_exchangeResult hx hd, exec_fsmResult_of_exchangeResult (hx'.trans hx) hd,
            alikeFor_of_alikeAt rfl (deliver_elsewhere (hw w rfl) r)⟩
    | _ => simp [Instr.readsOnly, frame?] at hr hf

/-! ### The obligations -/

/-- Settles O9: the answer depends on nothing a result can change. -/
theorem readingCommandsWriteNothing : Obligations.ReadingCommandsWriteNothing := by
  unfold Obligations.ReadingCommandsWriteNothing
  intro i s hi
  have reads : ∀ result, ∃ st data, exec i s = .next (s.answer st data) ∧
      exec i { s with result := result } = .next (State.answer { s with result := result } st data) := fun result =>
    exec_readsOnly_elsewhere hi (e := ⟨s.params.settleDelay, s.workers, s.inbox, result, s.reading⟩) fun _ _ => rfl
  obtain ⟨st, data, h, -⟩ := reads s.result
  obtain ⟨st', data', h', hagain⟩ := reads (st.code :: data)
  refine ⟨st.code :: data, h, hagain.trans ?_⟩
  have hresult : s.answer st' data' = s.answer st data := by
    rw [h'] at h
    injection h
  exact congrArg (fun t : State => Host.Outcome.next { s with result := t.result }) hresult

/-- Settles O50: the two states agree on all that the instruction reads. -/
theorem otherWorkersUnread : Obligations.OtherWorkersUnread := by
  unfold Obligations.OtherWorkersUnread
  intro i s s' w hi hp ht hw
  have hs' : s' = s.elsewhere ⟨s.params.settleDelay, s'.workers, s'.inbox, s'.result, s'.reading⟩ := by
    obtain ⟨p', ws', tbl', inbox', result', reading'⟩ := s'
    obtain rfl : s.params = p' := hp
    obtain rfl : s.table = tbl' := ht
    rfl
  have hworker : ∀ v, i.worker? = some v → s'.workers[v.toNat]? = s.workers[v.toNat]? := fun v hv => by
    rw [hi] at hv
    obtain rfl := Option.some.inj hv
    exact hw.symm
  obtain ⟨t, t', h, h', htable, hresult, hregisters⟩ := exec_elsewhere
    (e := ⟨s.params.settleDelay, s'.workers, s'.inbox, s'.result, s'.reading⟩) hworker
  exact ⟨t, t', h, hs' ▸ h', (hregisters w hi).symm, htable.symm, hresult.symm⟩

end Sys2Proof.Machine
end

section
/-! PROOFS. Time (rules R160, R233, R266): the bound of an exchange, the rounds without a usable answer, and the settle
delay that no step reads. -/

open Sys2Proof Sys2Proof.Machine Sys2Proof.Claims

namespace Sys2Proof.Machine

/-! ### The bound of an exchange (rules R160, R265) -/

theorem exchangeTime_le (p : Params) (reads : List (List Byte)) :
    exchangeTime p reads ≤ p.maxAttempts * p.settleDelay :=
  Nat.mul_le_mul_right _ (attemptsMade_le p.maxAttempts reads)

/-! ### Rounds (rules R178, R186) -/

/-- An answer that is none, or that DECODE refuses. -/
def NotUsable (p : Params) (a : List Byte) : Prop := a ≠ [] → decodeError p.decodeCheckMagic a ≠ none

theorem exists_status_of_notUsable {p : Params} {a : List Byte} (h : NotUsable p a) :
    ∃ e, (a = [] ∧ ((0x01 : Byte) = 0x00 ∨ (0x01 : Byte) = 0x01) ∧ e = 0x06) ∨
      (a ≠ [] ∧ (0x01 : Byte) = 0x01 ∧ decodeError p.decodeCheckMagic a = some e) := by
  by_cases ha : a = []
  · exact ⟨0x06, .inl ⟨ha, .inr rfl, rfl⟩⟩
  · obtain ⟨e, he⟩ := Option.ne_none_iff_exists'.mp (h ha)
    exact ⟨e, .inr ⟨ha, rfl, he⟩⟩

/-- The instructions `is` touch worker `w` alone, and leave it with registers of which `P` holds. -/
def LeavesWorker (is : List Instr) (s : State) (w : Byte) (P : Worker → Prop) : Prop :=
  ∃ t y, runInstrs is s = .next t ∧ t.params = s.params ∧ t.workers = s.workers.set w.toNat y ∧ t.table = s.table ∧ P y

/-- Rounds one after another: what every round keeps of the worker, any number of them keeps. -/
theorem leavesWorker_flatMap {p : Params} {w : Byte} {round : List Byte → List Instr} {P : Worker → Prop}
    {answers : List (List Byte)} (hround : ∀ a ∈ answers, ∀ (s : State) (x : Worker), s.params = p →
      s.workers[w.toNat]? = some x → P x → LeavesWorker (round a) s w P) {s : State} {x : Worker} (hp : s.params = p)
    (hx : s.workers[w.toNat]? = some x) (hP : P x) : LeavesWorker (answers.flatMap round) s w P := by
  induction answers generalizing s x with
  | nil =>
    obtain ⟨hlt, hget⟩ := List.getElem?_eq_some_iff.mp hx
    exact ⟨s, x, rfl, rfl, by rw [← hget, List.set_getElem_self], rfl, hP⟩
  | cons a answers ih =>
    obtain ⟨t, y, hrun, hparams, hworkers, htable, hPy⟩ := hround a List.mem_cons_self s x hp hx hP
    have hy : t.workers[w.toNat]? = some y := hworkers ▸ getElem?_set_toNat_self hx y
    obtain ⟨u, z, hrun', hparams', hworkers', htable', hPz⟩ := ih (fun a' ha' => hround a' (List.mem_cons_of_mem a ha'))
      (hparams.trans hp) hy hPy
    refine ⟨u, z, ?_, hparams'.trans hparams, ?_, htable'.trans htable, hPz⟩
    · rw [List.flatMap_cons, runInstrs_append hrun, hrun']
    · rw [hworkers', hworkers, List.set_set]

section
variable {s : State} {w : Byte} {x0 x : Worker} {a : List Byte} (hx : s.workers[w.toNat]? = some x)
  (hidle : x0.pend = .none) (ha : NotUsable s.params a)
include hx hidle ha

/-- A round of steps 1 and 2 (rule R178). -/
theorem leavesWorker_offlineQuery_round (hs : x0.state = .unregistered) (hphase : x0.phase = .reRegister)
    (h : startedOver x0 x) (first : List Byte) :
    LeavesWorker [.fsmGo w, .fsmResult w 0x01 first, .fsmGo w, .fsmResult w 0x01 a] s w (startedOver x0) := by
  obtain ⟨hstate, hph, hpend, hraw, haddr, hvalid, htext⟩ := h
  have hquery := runInstrs_to_offlineQuery hx (hstate.trans hs) (hph.trans hphase) (hpend.trans hidle) first
  have hx' := getElem?_set_toNat_self hx (offlineQueryPending s.params x)
  obtain ⟨e, he⟩ := exists_status_of_notUsable ha
  have hfail := (noUsableAnswerIsNotFatal { s with workers := _, result := [0x00] } w _ 0x01 a e hx' he).1 rfl
  refine ⟨_, _, (runInstrs_append hquery [.fsmResult w 0x01 a]).trans (runInstrs_cons hfail []), rfl,
    List.set_set .., rfl, hstate, hphase.symm, hidle.symm, hraw, haddr, hvalid, htext⟩

/-- A round of step 4 (rule R186): the frame sent again is the one in `tx`. -/
theorem leavesWorker_resend_round (hs : x0.state = .awaitingAddressConfirm) (hroom : x0.raw.length ≤ 254)
    (htx : x0.tx = requestBytes s.params s.params.fnSendRegisterAddress (x0.raw ++ [x0.addr]))
    (h : startedOver x0 x) :
    LeavesWorker [.fsmGo w, .fsmResult w 0x01 a] s w (fun y => startedOver x0 y ∧ y.tx = x0.tx) := by
  obtain ⟨hstate, hph, hpend, hraw, haddr, hvalid, htext⟩ := h
  have htx' : requestBytes s.params s.params.fnSendRegisterAddress (x.raw ++ [x.addr]) = x0.tx := by
    rw [hraw, haddr, htx]
  have hgo := exec_fsmGo_of_idle hx (hpend.trans hidle)
  rw [goStep_resend s w (hstate.trans hs) (hraw ▸ hroom), htx'] at hgo
  have hx' := getElem?_set_toNat_self hx { x with tx := x0.tx, pend := .sendRegisterAddress }
  obtain ⟨e, he⟩ := exists_status_of_notUsable ha
  have hfail := (noUsableAnswerIsNotFatal { s with workers := _, result := [0x00] } w _ 0x01 a e hx' he).2 rfl
  refine ⟨_, _, (runInstrs_cons hgo _).trans (runInstrs_cons hfail []), rfl, List.set_set .., rfl,
    ⟨hstate, hph, hidle.symm, hraw, haddr, hvalid, htext⟩, rfl⟩

end

/-! ### The settle delay (rule R233) -/

/-- The same state under another settle delay. -/
def State.withDelay (s : State) (delay : Nat) : State :=
  { s with params := { s.params with settleDelay := delay } }

/-- How the dispatcher's reading stands after an instruction: only a frame writes it (rule R132). -/
def readingAfter (i : Instr) (s : State) : Option Reading :=
  match frame? i with
  | some (_, f) => some (lookupReading s.params f.ctrl f.fn)
  | none => s.reading

theorem effect_reading {i : Instr} {s t : State} (h : Effect s i t) : t.reading = readingAfter i s := by
  cases h with
  | answers i st d hf => simp only [readingAfter, hf, answer_reading]
  | went w x t hx hp hgo => cases hgo <;> rfl
  | delivered w present data x r t hx hr hd => exact delivery_reading hd
  | received i w f x t hi hx hd => simp only [readingAfter, hi, delivery_reading hd]
  | lost i w f hi => simp only [readingAfter, hi, answer_reading]
  | workerReset | tableReset => rfl

theorem portWord_delay (p : Params) (delay : Nat) (i : Input) :
    portWord { p with settleDelay := delay } i = portWord p i := by
  cases i <;> rfl

theorem decode_delay (p : Params) (delay : Nat) (word : PortWord) :
    decode { p with settleDelay := delay } word = decode p word := rfl

theorem state_eq_of_fields {t t' : State} (hp : t'.params = t.params) (hw : t'.workers = t.workers)
    (ht : t'.table = t.table) (hi : t'.inbox = t.inbox) (hr : t'.result = t.result) (hd : t'.reading = t.reading) :
    t' = t := by
  cases t
  cases t'
  simp_all

theorem exec_delay {i : Instr} {s t : State} (h : exec i s = .next t) (delay : Nat) :
    exec i (s.withDelay delay) = .next (t.withDelay delay) := by
  obtain ⟨t₁, t', h₁, h', htable, hresult, hworker⟩ := exec_elsewhere (i := i) (s := s)
    (e := ⟨delay, s.workers, s.inbox, s.result, s.reading⟩) fun _ _ => rfl
  obtain rfl : t₁ = t := by
    rw [h₁] at h
    injection h
  have he := effect_of_exec h₁
  have he' := effect_of_exec h'
  obtain ⟨hp, -, hi⟩ := effect_params he
  obtain ⟨hp', -, hi'⟩ := effect_params he'
  have hworkers : t'.workers = t₁.workers := List.ext_getElem? fun n => by
    by_cases hn : ∃ w, i.worker? = some w ∧ w.toNat = n
    · obtain ⟨w, hw, rfl⟩ := hn
      exact hworker w hw
    · have hne : ∀ w, i.worker? = some w → w.toNat ≠ n := fun w hw he => hn ⟨w, hw, he⟩
      rw [effect_workers he hne, effect_workers he' hne]
      rfl
  have hreading : t'.reading = t₁.reading := by
    rw [effect_reading he, effect_reading he']
    rfl
  have ht' : t' = t₁.withDelay delay := by
    refine state_eq_of_fields (hp'.trans ?_) hworkers htable (hi'.trans hi.symm) hresult hreading
    rw [State.withDelay, hp]
    rfl
  exact ht' ▸ h'

theorem step_delay {s t : State} (h : step s = .next t) (delay : Nat) :
    step (s.withDelay delay) = .next (t.withDelay delay) := by
  obtain ⟨hi, rfl⟩ | ⟨i, rest, hi, hw, rfl⟩ | ⟨i, rest, word, hi, hw, hexec⟩ := step_cases h
  · exact step_of_inbox_nil hi
  · cases i with
    | blockReset => exact step_of_blockReset hi
    | command | exchange => simp [portWord] at hw
  · have hw' : portWord (s.withDelay delay).params i = some word := (portWord_delay s.params delay i).trans hw
    have hd : decode (s.withDelay delay).params word = decode s.params word := decode_delay s.params delay word
    rw [step_of_portWord (s := s.withDelay delay) hi hw', hd]
    exact exec_delay hexec delay

/-- Settles O60: each part by its own argument, the rounds by induction on the answers. -/
theorem handshakeHasNoDeadline : Obligations.HandshakeHasNoDeadline := by
  unfold Obligations.HandshakeHasNoDeadline
  refine ⟨exchangeTime_le, fun s w x first answers hx hp hinv hanswers => ⟨fun hs hphase => ?_, fun hs => ?_⟩,
    fun s t delay h => step_delay h delay⟩
  · obtain ⟨t, y, hrun, -, hworkers, htable, hy⟩ := leavesWorker_flatMap (p := s.params) (P := startedOver x)
      (round := fun a => [.fsmGo w, .fsmResult w 0x01 first, .fsmGo w, .fsmResult w 0x01 a]) (answers := answers)
      (fun a ha s' x' hp' hx' h =>
        leavesWorker_offlineQuery_round hx' hp (hp' ▸ hanswers a ha) hs hphase h first)
      rfl hx ⟨rfl, rfl, rfl, rfl, rfl, rfl, rfl⟩
    exact ⟨t, y, hrun, hworkers, htable, hy⟩
  · obtain ⟨hroom, htx⟩ := inv_tx_awaitingAddressConfirm hinv hs
    obtain ⟨t, y, hrun, -, hworkers, htable, hy, hytx⟩ := leavesWorker_flatMap (p := s.params)
      (P := fun y => startedOver x y ∧ y.tx = x.tx) (round := fun a => [.fsmGo w, .fsmResult w 0x01 a])
      (answers := answers)
      (fun a ha s' x' hp' hx' h =>
        leavesWorker_resend_round hx' hp (hp' ▸ hanswers a ha) hs hroom (hp' ▸ htx) h.1)
      rfl hx ⟨⟨rfl, rfl, rfl, rfl, rfl, rfl, rfl⟩, rfl⟩
    exact ⟨t, y, hrun, hworkers, htable, hy, hytx⟩

end Sys2Proof.Machine
end
